-- ==== Sys2Proof/Word.lean ====
section
/-! DEFINITION. The word types of LCDSEQ: the bytes of the panel link and of the staging buffer (R48, R31), the
16-bit color sample (R55), the 64-bit operation word (R60) and the 32-bit host register (R32 to R35). -/

namespace Sys2Proof

/-- One byte of the panel link, of the staging buffer or of a coordinate field (R48, R31, R61). -/
abbrev Byte := BitVec 8

/-- One 16-bit color sample, opaque to LCDSEQ (R55). -/
abbrev Sample := BitVec 16

/-- One operation word, delivered whole by `issue` (R45, R60). -/
abbrev OpWord := BitVec 64

/-- One host register value (R32 to R35, R45). -/
abbrev RegWord := BitVec 32

end Sys2Proof
end

