-- ==== Sys2Proof/Syntax.lean ====
section
/-! DEFINITION. The seven operations of the opcode map (R63), one constructor per row of the opcode table. -/

namespace Sys2Proof

/-- The operations LCDSEQ executes (R63).  An operand has exactly the width of its field in the operation word (R61), so
every term of this type is an operation the host can issue. -/
inductive Instr where
  /-- NOP, OPC 0x00 (R74). -/
  | nop
  /-- INIT, OPC 0x01 (R75). -/
  | init
  /-- TXN_BEGIN, OPC 0x02 (R77). -/
  | txnBegin
  /-- TXN_END, OPC 0x03 (R78). -/
  | txnEnd
  /-- SET_WINDOW x, y, w, h, OPC 0x04 (R81). -/
  | setWindow (x y w h : Byte)
  /-- FILL color, OPC 0x05 (R84). -/
  | fill (color : Sample)
  /-- DRAW_RECT x, y, w, h, color, OPC 0x06 (R85). -/
  | drawRect (x y w h : Byte) (color : Sample)
  deriving DecidableEq, Repr

end Sys2Proof
end

