-- ==== Sys2Proof/Decode.lean ====
section
/-! DEFINITION. The operation word (R60 to R66): its fields, the opcode table, the decoder, total over all words and
rejecting by name, and the encoder. -/

namespace Sys2Proof

/-! Fields (R61, R62): unsigned, taken as their bits. -/

/-- OPC, bits 63 to 56. -/
def opcOf (op : OpWord) : Byte := op.extractLsb' 56 8

/-- X, bits 55 to 48. -/
def xOf (op : OpWord) : Byte := op.extractLsb' 48 8

/-- Y, bits 47 to 40. -/
def yOf (op : OpWord) : Byte := op.extractLsb' 40 8

/-- W, bits 39 to 32. -/
def wOf (op : OpWord) : Byte := op.extractLsb' 32 8

/-- H, bits 31 to 24. -/
def hOf (op : OpWord) : Byte := op.extractLsb' 24 8

/-- RSV, bits 23 to 16: reserved, must be 0. -/
def rsvOf (op : OpWord) : Byte := op.extractLsb' 16 8

/-- COLOR, bits 15 to 0. -/
def colorOf (op : OpWord) : Sample := op.extractLsb' 0 16

/-- RESV[opc]: the must-be-zero bits of a defined operation code (R64). -/
def resv (opc : Byte) : OpWord :=
  match opc.toNat with
  | 0 => 0x00FFFFFFFFFFFFFF#64
  | 1 => 0x00FFFFFFFFFFFFFF#64
  | 2 => 0x00FFFFFFFFFFFFFF#64
  | 3 => 0x00FFFFFFFFFFFFFF#64
  | 4 => 0x0000000000FFFFFF#64
  | 5 => 0x00FFFFFFFFFF0000#64
  | 6 => 0x0000000000FF0000#64
  | _ => 0#64

/-- Why a word is no operation (R64, R65). -/
inductive DecodeError where
  /-- OPC is 0x07 or above (R65). -/
  | illegal
  /-- A must-be-zero bit of a defined OPC is set (R64). -/
  | reserved
  deriving DecidableEq, Repr

/-- `Decode` of R66, total over all 64-bit words. -/
def decode (op : OpWord) : Except DecodeError Instr :=
  if 6 < (opcOf op).toNat then .error .illegal
  else if op &&& resv (opcOf op) ≠ 0#64 then .error .reserved
  else match (opcOf op).toNat with
    | 0 => .ok .nop
    | 1 => .ok .init
    | 2 => .ok .txnBegin
    | 3 => .ok .txnEnd
    | 4 => .ok (.setWindow (xOf op) (yOf op) (wOf op) (hOf op))
    | 5 => .ok (.fill (colorOf op))
    | 6 => .ok (.drawRect (xOf op) (yOf op) (wOf op) (hOf op) (colorOf op))
    | _ => .error .illegal

/-- The operation word laid out from its fields, with RSV = 0 (R61, R67). -/
def layout (opc x y w h : Byte) (color : Sample) : OpWord :=
  opc ++ x ++ y ++ w ++ h ++ 0#8 ++ color

/-- The word of an operation: every field it does not use is 0 (R63, R67). -/
def encode : Instr → OpWord
  | .nop => layout 0#8 0#8 0#8 0#8 0#8 0#16
  | .init => layout 1#8 0#8 0#8 0#8 0#8 0#16
  | .txnBegin => layout 2#8 0#8 0#8 0#8 0#8 0#16
  | .txnEnd => layout 3#8 0#8 0#8 0#8 0#8 0#16
  | .setWindow x y w h => layout 4#8 x y w h 0#16
  | .fill color => layout 5#8 0#8 0#8 0#8 0#8 color
  | .drawRect x y w h color => layout 6#8 x y w h color

/-- The `match` word of an operation's row of the opcode table (R63). -/
def Instr.tableMatch : Instr → OpWord
  | .nop => 0x0000000000000000#64
  | .init => 0x0100000000000000#64
  | .txnBegin => 0x0200000000000000#64
  | .txnEnd => 0x0300000000000000#64
  | .setWindow _ _ _ _ => 0x0400000000000000#64
  | .fill _ => 0x0500000000000000#64
  | .drawRect _ _ _ _ _ => 0x0600000000000000#64

/-- The `mask` word of an operation's row of the opcode table (R63). -/
def Instr.tableMask : Instr → OpWord
  | .nop => 0xFFFFFFFFFFFFFFFF#64
  | .init => 0xFFFFFFFFFFFFFFFF#64
  | .txnBegin => 0xFFFFFFFFFFFFFFFF#64
  | .txnEnd => 0xFFFFFFFFFFFFFFFF#64
  | .setWindow _ _ _ _ => 0xFF00000000FFFFFF#64
  | .fill _ => 0xFFFFFFFFFFFF0000#64
  | .drawRect _ _ _ _ _ => 0xFF00000000FF0000#64

/-- One row of the opcode table: its (match, mask) pair (R63). -/
structure OpcodeRow where
  matchWord : OpWord
  mask : OpWord
  deriving DecidableEq, Repr

/-- The opcode table of R63, in its order. -/
def opcodeTable : List OpcodeRow :=
  [ ⟨0x0000000000000000#64, 0xFFFFFFFFFFFFFFFF#64⟩,
    ⟨0x0100000000000000#64, 0xFFFFFFFFFFFFFFFF#64⟩,
    ⟨0x0200000000000000#64, 0xFFFFFFFFFFFFFFFF#64⟩,
    ⟨0x0300000000000000#64, 0xFFFFFFFFFFFFFFFF#64⟩,
    ⟨0x0400000000000000#64, 0xFF00000000FFFFFF#64⟩,
    ⟨0x0500000000000000#64, 0xFFFFFFFFFFFF0000#64⟩,
    ⟨0x0600000000000000#64, 0xFF00000000FF0000#64⟩ ]

/-- A word matches a row of the opcode table (R63). -/
def OpcodeRow.matches (row : OpcodeRow) (op : OpWord) : Bool := op &&& row.mask == row.matchWord

/-- The operation the decoder reads from the `nbits` low bits of `w`, numbered as the opcode table numbers them (an
operation is one 64-bit word with no byte order, R45, R60); none where it refuses. -/
def decodeTableWord (nbits w : Nat) : Option Instr :=
  match decode (BitVec.ofNat 64 (w % 2 ^ nbits)) with
  | .ok i => some i
  | .error _ => none

end Sys2Proof
end

