-- ==== Sys2Proof/Config.lean ====
section
/-! DEFINITION. The implementation parameters of R8 as plain data, and the free values: constants with no body for what the
spec leaves unspecified (file 93, part 1). -/

namespace Sys2Proof

/-- OOB_POLICY: what SET_WINDOW and DRAW_RECT do with an out-of-panel rectangle (R8, R79). -/
inductive OobPolicy where
  | reject
  | fatal
  | clamp
  deriving DecidableEq, Repr

/-- WRAP_MARGIN: where a wrapped string line restarts (R8, R94). -/
inductive WrapMargin where
  | callX
  | zero
  deriving DecidableEq, Repr

/-- The 19 panel commands of R69, in its order. -/
inductive PanelCmd where
  | madctl | colmod | porctrl | gctrl | vcoms | lcmctrl | vdvvrhen | vrhs | vdvs | frctrl2
  | pwctrl1 | pvgamctrl | nvgamctrl | invon | slpout | dispon | caset | raset | ramwr
  deriving DecidableEq, Repr

/-- PANEL_CMD: the command code of each panel command (R8, R69). -/
structure PanelCodes where
  madctl : Byte
  colmod : Byte
  porctrl : Byte
  gctrl : Byte
  vcoms : Byte
  lcmctrl : Byte
  vdvvrhen : Byte
  vrhs : Byte
  vdvs : Byte
  frctrl2 : Byte
  pwctrl1 : Byte
  pvgamctrl : Byte
  nvgamctrl : Byte
  invon : Byte
  slpout : Byte
  dispon : Byte
  caset : Byte
  raset : Byte
  ramwr : Byte
  deriving DecidableEq, Repr

/-- INIT_PARAMS: the parameter bytes of each of the 16 bring-up commands (R8, R69). -/
structure InitParams where
  madctl : List Byte
  colmod : List Byte
  porctrl : List Byte
  gctrl : List Byte
  vcoms : List Byte
  lcmctrl : List Byte
  vdvvrhen : List Byte
  vrhs : List Byte
  vdvs : List Byte
  frctrl2 : List Byte
  pwctrl1 : List Byte
  pvgamctrl : List Byte
  nvgamctrl : List Byte
  invon : List Byte
  slpout : List Byte
  dispon : List Byte
  deriving DecidableEq, Repr

/-- WIRE: the wire level, OPEN in the spec (R6, R8, D31).  Only the data-select polarity is read, by the line levels of
R37; the other three are carried and read by no rule. -/
structure Wire where
  /-- SPI mode. -/
  spiMode : Nat
  /-- Bit order: least significant bit first. -/
  lsbFirst : Bool
  /-- Clock rate in hertz. -/
  clockHz : Nat
  /-- The level of data-select in command mode; data mode has the other level (R15, N2). -/
  dcCommand : Bool
  deriving DecidableEq, Repr

/-- The configuration parameters of R8.  They are fixed before reset and no operation changes them (R38); `State` carries
them so that every statement quantifies over every configuration. -/
structure Config where
  /-- CAP, the staging buffer capacity in bytes. -/
  cap : Nat
  oob : OobPolicy
  panelCmd : PanelCodes
  initParams : InitParams
  /-- The five delay parameters, in milliseconds. -/
  tRstHigh : Nat
  tRstLow : Nat
  tRstRecover : Nat
  tSlpout : Nat
  tDispon : Nat
  /-- DET_LEVEL, the level of the auxiliary detect line. -/
  detLevel : Bool
  wire : Wire
  glyphBase : Nat
  glyphCount : Nat
  /-- GLYPH: the column bytes of each glyph, column 0 first. -/
  glyph : List (List Byte)
  charSpacing : Nat
  wrapMargin : WrapMargin
  deriving DecidableEq, Repr

namespace Config

/-- PANEL_W, fixed (R8). -/
abbrev panelW : Nat := 240

/-- PANEL_H, fixed (R8). -/
abbrev panelH : Nat := 240

/-! Free values.  None has a body, so nothing proved can rest on a value of one. -/

/-- Free: byte `i` of the OPEN parameter bytes of bring-up command `n`, where R69 fixes only the count (I7). -/
opaque freeInitByte : Nat → Nat → Byte

/-- Free: the parameter bytes of bring-up command `n`, where R69 leaves count and values OPEN (I7). -/
opaque freeInitBytes : Nat → List Byte

/-- Free: the WIRE parameters (I14). -/
opaque freeWireNat : Nat → Nat

/-- Free: the WIRE parameters (I14). -/
opaque freeWireBit : Nat → Bool

/-- Free: CHAR_SPACING (I13). -/
opaque freeCharSpacing : Nat

/-- Free: WRAP_MARGIN is CALL_X (I13). -/
opaque freeWrapAtCallX : Bool

/-- Free: the mode (output or not) of line `n` before INIT (I1). -/
opaque freeLineMode : Nat → Bool

/-- Free: the level of line `n` before INIT (I1). -/
opaque freeLineLevel : Nat → Bool

/-- Free: byte `i` of the staging buffer as long as nothing has written it (I2). -/
opaque freeBufByte : Nat → Byte

/-- Free: by how many milliseconds the `n`-th delay is longer than its bound (I8, R16). -/
opaque freeDelayExtra : Nat → Nat

/-- Free: panel frame memory at a column and row that nothing has written since epoch `e` (R56, I6). -/
opaque freeSample : Nat → Nat → Nat → Sample

/-- Free: window register `n` of the panel before it is programmed (R56). -/
opaque freePanelWord : Nat → BitVec 16

/-- Free: a panel status bit, before it is set and after a panel reset (R36). -/
opaque freePanelBit : Nat → Nat → Bool

end Config

end Sys2Proof
end

