-- ==== Sys2Proof/WellFormed.lean ====
section
/-! DEFINITION. Well-formedness: of a configuration (R9, with the byte counts of R69) and of the operands a programmer
writes (R67).  A term of `Instr` needs no check: each operand has its field's width (R61). -/

namespace Sys2Proof

namespace Config

/-- CAP fits CONFIG's 24-bit field (R9).  An odd CAP, or one below 2, is admitted (R9). -/
def capFits (c : Config) : Bool := decide (c.cap < 2 ^ 24)

/-- T_SLPOUT is at least 5 ms (R9). -/
def slpoutLongEnough (c : Config) : Bool := decide (5 ≤ c.tSlpout)

/-- Every INIT_PARAMS entry has the byte count that R69 fixes for its command; the other counts are OPEN. -/
def initCountsFit (c : Config) : Bool :=
  let p := c.initParams
  decide (p.madctl.length = 1) && decide (p.colmod.length = 1) && decide (p.pwctrl1.length = 2)
    && decide (p.pvgamctrl.length = 14) && decide (p.nvgamctrl.length = 14)
    && decide (p.invon.length = 0) && decide (p.slpout.length = 0) && decide (p.dispon.length = 0)

/-- GLYPH has GLYPH_COUNT entries (R9). -/
def glyphCountFits (c : Config) : Bool := decide (c.glyph.length = c.glyphCount)

/-- Every glyph has 5 column bytes (R9). -/
def glyphColumnsFit (c : Config) : Bool := c.glyph.all fun g => decide (g.length = 5)

/-- The configuration is well formed (R9). -/
def wf (c : Config) : Bool :=
  c.capFits && c.slpoutLongEnough && c.initCountsFit && c.glyphCountFits && c.glyphColumnsFit

end Config

/-- An operand x, y, w or h is in range for its 8-bit field (R67). -/
def byteOperandFits (n : Nat) : Bool := decide (n ≤ 255)

/-- A color operand is in range for its 16-bit field (R67). -/
def colorOperandFits (n : Nat) : Bool := decide (n ≤ 0xFFFF)

end Sys2Proof
end

