-- ==== Sys2Proof/Machine/Assembler.lean ====
section
/-! DEFINITION. The assembly language of R67: one operation per line, as a list of characters. -/

namespace Sys2Proof.Machine

/-- Why an assembler refuses a line (R67). -/
inductive AsmError where
  | unknownMnemonic
  | wrongOperandCount
  | notANumber
  | outOfRange
  deriving DecidableEq, Repr

/-- White space inside a line. -/
def isBlankChar (c : Char) : Bool := c == ' ' || c == '\t' || c == '\r'

/-- Without white space at either end. -/
def trimBlanks (cs : List Char) : List Char :=
  ((cs.dropWhile isBlankChar).reverse.dropWhile isBlankChar).reverse

/-- `;` begins a comment that runs to the end of the line (R67). -/
def dropComment (cs : List Char) : List Char := cs.takeWhile fun c => c != ';'

/-- The pieces of a list between separators. -/
def splitAtChar (sep : Char) : List Char → List (List Char)
  | [] => [[]]
  | c :: cs =>
    if c == sep then [] :: splitAtChar sep cs
    else match splitAtChar sep cs with
      | [] => [[c]]
      | p :: ps => (c :: p) :: ps

/-- The value of a digit character in a base, if it is one. -/
def digitValue (base : Nat) (c : Char) : Option Nat :=
  let n := c.toNat
  let v := if 48 ≤ n ∧ n ≤ 57 then n - 48
    else if 65 ≤ n ∧ n ≤ 70 then n - 55
    else if 97 ≤ n ∧ n ≤ 102 then n - 87
    else base
  if v < base then some v else none

/-- The value of a list of digits. -/
def digitsValue (base : Nat) : Nat → List Char → Option Nat
  | acc, [] => some acc
  | acc, c :: cs =>
    match digitValue base c with
    | some d => digitsValue base (acc * base + d) cs
    | none => none

/-- An unsigned decimal or 0x hexadecimal operand (R67). -/
def parseNumber (cs : List Char) : Option Nat :=
  match cs with
  | [] => none
  | '0' :: 'x' :: d :: ds => digitsValue 16 0 (d :: ds)
  | d :: ds => digitsValue 10 0 (d :: ds)

/-- All operands of a line. -/
def parseNumbers : List (List Char) → Except AsmError (List Nat)
  | [] => .ok []
  | p :: ps =>
    match parseNumber (trimBlanks p), parseNumbers ps with
    | some n, .ok ns => .ok (n :: ns)
    | none, _ => .error .notANumber
    | some _, .error e => .error e

/-- The operand list of a line: none, or numbers between commas. -/
def parseOperands (cs : List Char) : Except AsmError (List Nat) :=
  if (trimBlanks cs).isEmpty then .ok [] else parseNumbers (splitAtChar ',' cs)

/-- Four coordinate operands in range (R67). -/
def coordsFit (x y w h : Nat) : Bool :=
  byteOperandFits x && byteOperandFits y && byteOperandFits w && byteOperandFits h

/-- The operation of a mnemonic and its operands; a value out of range is refused and never wrapped (R67). -/
def buildInstr (mnemonic : List Char) (args : List Nat) : Except AsmError Instr :=
  if mnemonic = "NOP".toList then
    match args with
    | [] => .ok .nop
    | _ => .error .wrongOperandCount
  else if mnemonic = "INIT".toList then
    match args with
    | [] => .ok .init
    | _ => .error .wrongOperandCount
  else if mnemonic = "TXN_BEGIN".toList then
    match args with
    | [] => .ok .txnBegin
    | _ => .error .wrongOperandCount
  else if mnemonic = "TXN_END".toList then
    match args with
    | [] => .ok .txnEnd
    | _ => .error .wrongOperandCount
  else if mnemonic = "SET_WINDOW".toList then
    match args with
    | [x, y, w, h] =>
      if coordsFit x y w h then
        .ok (.setWindow (BitVec.ofNat 8 x) (BitVec.ofNat 8 y) (BitVec.ofNat 8 w) (BitVec.ofNat 8 h))
      else .error .outOfRange
    | _ => .error .wrongOperandCount
  else if mnemonic = "FILL".toList then
    match args with
    | [c] => if colorOperandFits c then .ok (.fill (BitVec.ofNat 16 c)) else .error .outOfRange
    | _ => .error .wrongOperandCount
  else if mnemonic = "DRAW_RECT".toList then
    match args with
    | [x, y, w, h, c] =>
      if coordsFit x y w h && colorOperandFits c then
        .ok (.drawRect (BitVec.ofNat 8 x) (BitVec.ofNat 8 y) (BitVec.ofNat 8 w) (BitVec.ofNat 8 h) (BitVec.ofNat 16 c))
      else .error .outOfRange
    | _ => .error .wrongOperandCount
  else .error .unknownMnemonic

/-- The operation of a line; none for a line with no operation on it (R67). -/
def assembleLine (line : List Char) : Except AsmError (Option Instr) :=
  let body := trimBlanks (dropComment line)
  if body.isEmpty then .ok none
  else
    match parseOperands (body.dropWhile fun c => !isBlankChar c) with
    | .error e => .error e
    | .ok args =>
      match buildInstr (body.takeWhile fun c => !isBlankChar c) args with
      | .error e => .error e
      | .ok i => .ok (some i)

/-- The words of a list of lines, in order (R67). -/
def assembleLines : List (List Char) → Except AsmError (List OpWord)
  | [] => .ok []
  | l :: ls =>
    match assembleLine l, assembleLines ls with
    | .error e, _ => .error e
    | .ok _, .error e => .error e
    | .ok none, .ok ws => .ok ws
    | .ok (some i), .ok ws => .ok (encode i :: ws)

/-- The words of a program text (R67). -/
def assemble (text : List Char) : Except AsmError (List OpWord) := assembleLines (splitAtChar '\n' text)

end Sys2Proof.Machine
end

