-- ==== Sys2Proof/Machine/Setup.lean ====
section
/-! DEFINITION. The configuration that `State.reset` carries: every parameter of R8 at the value or default the spec states,
every OPEN parameter a free value (log entries 2 and 3). -/

namespace Sys2Proof

/-- The code of a panel command in the table PANEL_CMD (R69). -/
def PanelCodes.code (t : PanelCodes) : PanelCmd → Byte
  | .madctl => t.madctl
  | .colmod => t.colmod
  | .porctrl => t.porctrl
  | .gctrl => t.gctrl
  | .vcoms => t.vcoms
  | .lcmctrl => t.lcmctrl
  | .vdvvrhen => t.vdvvrhen
  | .vrhs => t.vrhs
  | .vdvs => t.vdvs
  | .frctrl2 => t.frctrl2
  | .pwctrl1 => t.pwctrl1
  | .pvgamctrl => t.pvgamctrl
  | .nvgamctrl => t.nvgamctrl
  | .invon => t.invon
  | .slpout => t.slpout
  | .dispon => t.dispon
  | .caset => t.caset
  | .raset => t.raset
  | .ramwr => t.ramwr

/-- The INIT_PARAMS entry of a bring-up command (R69); the three window commands are no bring-up commands and have none. -/
def InitParams.bytes (t : InitParams) : PanelCmd → List Byte
  | .madctl => t.madctl
  | .colmod => t.colmod
  | .porctrl => t.porctrl
  | .gctrl => t.gctrl
  | .vcoms => t.vcoms
  | .lcmctrl => t.lcmctrl
  | .vdvvrhen => t.vdvvrhen
  | .vrhs => t.vrhs
  | .vdvs => t.vdvs
  | .frctrl2 => t.frctrl2
  | .pwctrl1 => t.pwctrl1
  | .pvgamctrl => t.pvgamctrl
  | .nvgamctrl => t.nvgamctrl
  | .invon => t.invon
  | .slpout => t.slpout
  | .dispon => t.dispon
  | .caset => []
  | .raset => []
  | .ramwr => []

/-- The default command codes of R69 (general knowledge in the spec, G1). -/
def PanelCodes.default : PanelCodes :=
  { madctl := 0x36#8, colmod := 0x3A#8, porctrl := 0xB2#8, gctrl := 0xB7#8, vcoms := 0xBB#8,
    lcmctrl := 0xC0#8, vdvvrhen := 0xC2#8, vrhs := 0xC3#8, vdvs := 0xC4#8, frctrl2 := 0xC6#8,
    pwctrl1 := 0xD0#8, pvgamctrl := 0xE0#8, nvgamctrl := 0xE1#8, invon := 0x21#8, slpout := 0x11#8,
    dispon := 0x29#8, caset := 0x2A#8, raset := 0x2B#8, ramwr := 0x2C#8 }

/-- `k` free parameter bytes for bring-up command `n`. -/
def InitParams.freeList (n k : Nat) : List Byte := (List.range k).map (Config.freeInitByte n)

/-- INIT_PARAMS with the counts R69 fixes and every OPEN count and value free. -/
def InitParams.free : InitParams :=
  { madctl := freeList 0 1, colmod := freeList 1 1,
    porctrl := Config.freeInitBytes 2, gctrl := Config.freeInitBytes 3, vcoms := Config.freeInitBytes 4,
    lcmctrl := Config.freeInitBytes 5, vdvvrhen := Config.freeInitBytes 6, vrhs := Config.freeInitBytes 7,
    vdvs := Config.freeInitBytes 8, frctrl2 := Config.freeInitBytes 9,
    pwctrl1 := freeList 10 2, pvgamctrl := freeList 11 14, nvgamctrl := freeList 12 14,
    invon := [], slpout := [], dispon := [] }

/-- The configuration at its defaults (R8).  The glyph table is empty here (log entry 3). -/
def Config.default : Config :=
  { cap := 15000, oob := .reject, panelCmd := PanelCodes.default, initParams := InitParams.free,
    tRstHigh := 20, tRstLow := 100, tRstRecover := 100, tSlpout := 30, tDispon := 30, detLevel := true,
    wire := { spiMode := Config.freeWireNat 0, lsbFirst := Config.freeWireBit 0,
              clockHz := Config.freeWireNat 1, dcCommand := Config.freeWireBit 1 },
    glyphBase := 0, glyphCount := 0, glyph := [], charSpacing := Config.freeCharSpacing,
    wrapMargin := if Config.freeWrapAtCallX then .callX else .zero }

end Sys2Proof
end

