-- ==== Sys2Proof/Machine/State.lean ====
section
/-! DEFINITION. What the machine holds: LCDSEQ's registers (R20), the trace it has emitted (R15), the lines and the delay
that its collaborators hold (R37, R16), the panel (R36, R56) and the host (R7, R89); and block reset (R39, R112). -/

namespace Sys2Proof.Machine

/-- The bring-up phase (R23).  The encodings 5 to 7 are never held, so they have no constructor. -/
inductive Phase where
  | unpowered
  | reset
  | configuring
  | sleeping
  | active
  deriving DecidableEq, Repr

/-- The result codes of R97.  The codes 0x0B to 0xFF are never returned, so they have no constructor. -/
inductive Result where
  | ok
  | eFatal
  | eIllegal
  | eReserved
  | eConfig
  | eNotActive
  | eNoTxn
  | eTxnOpen
  | eZeroExtent
  | eBounds
  | eNoWindow
  deriving DecidableEq, Repr

/-- The four GPIO lines of R15. -/
inductive Pin where
  | rst
  | cs
  | dc
  | det
  deriving DecidableEq, Repr

/-- The output events of R15: each is one completed call of a collaborator capability. -/
inductive Event where
  /-- PinMode(p, OUT). -/
  | pinMode (p : Pin)
  /-- Pin(p, v). -/
  | pin (p : Pin) (v : Bool)
  /-- Delay(t), a busy wait of at least t ms. -/
  | delay (t : Nat)
  /-- TxnBegin: chip-select asserted. -/
  | txnBegin
  /-- TxnEnd: chip-select deasserted. -/
  | txnEnd
  /-- Cmd(b). -/
  | cmd (b : Byte)
  /-- Data(bs). -/
  | data (bs : List Byte)
  deriving DecidableEq, Repr

/-- One GPIO line: whether it is an output, and its level (R37). -/
structure Line where
  output : Bool
  level : Bool
  deriving DecidableEq, Repr

/-- What LCDSEQ's collaborators hold: the four lines (R37) and the delay capability's time (R16, R107). -/
structure Devices where
  rst : Line
  cs : Line
  dc : Line
  det : Line
  /-- Milliseconds spent in delays so far. -/
  elapsed : Nat
  /-- How many delays have run; it picks the free excess of the next one. -/
  delays : Nat
  deriving DecidableEq, Repr

/-- The staging buffer: the bytes written so far, by index, strictly rising (R31).  An index not listed holds no written
byte; what reading one gives is free (log entry 5). -/
abbrev Mem := List Host.Cell

/-- A rectangle in panel pixels (R42); unbounded integers (R11). -/
structure Rect where
  x : Nat
  y : Nat
  w : Nat
  h : Nat
  deriving DecidableEq, Repr

/-- What `CheckRect` finds (R79). -/
inductive RectCheck where
  /-- The rectangle to program. -/
  | pass (r : Rect)
  /-- w = 0 or h = 0. -/
  | zeroExtent
  /-- It leaves the panel and is not clamped. -/
  | bounds
  deriving DecidableEq, Repr

/-- The reference panel observer (R56 to R58) with the other state R36 names.  LCDSEQ reads none of it. -/
structure Panel where
  /-- Window registers XS, XE, YS, YE. -/
  xs : BitVec 16
  xe : BitVec 16
  ys : BitVec 16
  ye : BitVec 16
  /-- Write pointer: column, then row. -/
  pc : Nat
  pr : Nat
  /-- Byte-pairing latch: the high byte waiting for its low byte. -/
  latch : Option Byte
  /-- The command in progress: the last command code received. -/
  current : Option Byte
  /-- The data bytes received for the command in progress, up to four, for CASET and RASET. -/
  args : List Byte
  /-- Frame memory: the samples written in this epoch, by row * 240 + column, strictly rising. -/
  fm : List (Nat × Sample)
  /-- How often frame memory has become unspecified (I6); it picks the free samples. -/
  epoch : Nat
  /-- Configuration registers: the parameter bytes received since the last command byte of each code but the three window
  commands', by code, strictly rising (log entry 12). -/
  config : List (Nat × List Byte)
  sleeping : Bool
  inverted : Bool
  displayOn : Bool
  /-- How many hardware resets the panel has seen; it picks the free status bits. -/
  resets : Nat
  /-- How many events of the trace the panel has consumed. -/
  seen : Nat
  deriving DecidableEq, Repr

/-- A DRAW_RECT a pseudo-operation asks for, with host integers as coordinates (R89). -/
structure DrawReq where
  x : Nat
  y : Nat
  w : Nat
  h : Nat
  color : Sample
  deriving DecidableEq, Repr

/-- The host pseudo-operations of R68. -/
inductive PseudoOp where
  | clear
  | drawChar (x y scale code : Nat) (fg bg : Sample) (skip : Bool)
  | drawString (x y scale : Nat) (text : List Nat) (fg bg : Sample) (skip : Bool)
  | stringWidth (text : List Nat) (scale : Nat)
  deriving DecidableEq, Repr

/-- What the host can do next (R18, R19, R89). -/
inductive HostAction where
  /-- Issue an operation word. -/
  | issue (op : OpWord)
  /-- Read a host register. -/
  | read (idx : BitVec 2)
  /-- Run a pseudo-operation. -/
  | pseudo (p : PseudoOp)
  deriving DecidableEq, Repr

/-- A pseudo-operation in progress: the constituents still to come and its result so far (R89). -/
structure PseudoRun where
  rest : List DrawReq
  acc : Result
  deriving DecidableEq, Repr

/-- The host (R7 (a)): what it will do, and what it has observed (R17). -/
structure HostAgent where
  /-- What the host will do, in order: the outside world's input. -/
  todo : List HostAction
  /-- The pseudo-operation in progress, if any. -/
  running : Option PseudoRun
  /-- The results `issue` has returned, oldest first. -/
  results : List Result
  /-- The register reads made, oldest first: index and value. -/
  reads : List (BitVec 2 × RegWord)
  /-- The results of finished pseudo-operations, oldest first. -/
  pseudoResults : List Result
  /-- The values of STRING_WIDTH, oldest first. -/
  widths : List Nat
  deriving DecidableEq, Repr

/-- Why the machine stops. -/
inductive Fault where
  /-- Raised by the fill engine when a chunk would read a staging-buffer index outside 0 .. CAP-1 (R13, I3).  Safe: no rule
  forms such an index, and no state raises it. -/
  | bufferIndexOutOfRange
  /-- Raised by the fill engine when the loop of R83 would never end, with CAP = 0 and a byte left to send.  Safe: INIT
  refuses such a CAP, so it arises only in states no run reaches. -/
  | fillNeverEnds
  deriving DecidableEq, Repr

/-- Why the model gives no meaning. -/
inductive Refusal where
  /-- The instruction of this mnemonic has no meaning yet.  Raised by `exec`'s arms only; safe. -/
  | notModelled (mnemonic : String)
  /-- The configuration is not well formed (R9, I17).  Raised by `step`; safe. -/
  | illFormedConfiguration
  deriving DecidableEq, Repr

/-- The whole machine. -/
structure State where
  /-- The configuration: fixed, written by nothing (R38). -/
  cfg : Config
  /-- LCDSEQ's registers (R20). -/
  phase : Phase
  fatal : Bool
  err : Bool
  lastResult : Result
  txnOpen : Bool
  winValid : Bool
  winX : Byte
  winY : Byte
  winW : Byte
  winH : Byte
  winCount : BitVec 16
  busy : Bool
  buf : Mem
  /-- The operation word the port took last; it is in progress while `busy` (R18, R30). -/
  portWord : OpWord
  /-- The output trace, oldest first (R15, R17). -/
  trace : List Event
  /-- The lines and the delay (R37, R16). -/
  devices : Devices
  /-- The panel (R36, R56). -/
  panel : Panel
  /-- The host (R7). -/
  host : HostAgent
  deriving DecidableEq, Repr

/-- The lines before INIT: unspecified (R37, I1).  No time has passed in delays. -/
def Devices.atReset : Devices :=
  { rst := ⟨Config.freeLineMode 0, Config.freeLineLevel 0⟩,
    cs := ⟨Config.freeLineMode 1, Config.freeLineLevel 1⟩,
    dc := ⟨Config.freeLineMode 2, Config.freeLineLevel 2⟩,
    det := ⟨Config.freeLineMode 3, Config.freeLineLevel 3⟩,
    elapsed := 0, delays := 0 }

/-- The panel at power-on: in whatever state it was in (R112), every visible part of it free. -/
def Panel.atReset : Panel :=
  { xs := Config.freePanelWord 0, xe := Config.freePanelWord 1,
    ys := Config.freePanelWord 2, ye := Config.freePanelWord 3,
    pc := 0, pr := 0, latch := none, current := none, args := [], fm := [], epoch := 0, config := [],
    sleeping := Config.freePanelBit 0 0, inverted := Config.freePanelBit 1 0,
    displayOn := Config.freePanelBit 2 0, resets := 0, seen := 0 }

/-- A host that has done nothing and will do nothing. -/
def HostAgent.atReset : HostAgent :=
  { todo := [], running := none, results := [], reads := [], pseudoResults := [], widths := [] }

/-- Block reset under a configuration (R39, R112, R113): every register at its reset value, no event emitted. -/
def State.resetWith (c : Config) : State :=
  { cfg := c, phase := .unpowered, fatal := false, err := false, lastResult := .ok, txnOpen := false,
    winValid := false, winX := 0#8, winY := 0#8, winW := 0#8, winH := 0#8, winCount := 0#16,
    busy := false, buf := [], portWord := 0#64, trace := [], devices := Devices.atReset,
    panel := Panel.atReset, host := HostAgent.atReset }

/-- The machine right after block reset, under the default configuration (R8, R39). -/
def State.reset : State := State.resetWith Config.default

end Sys2Proof.Machine
end

