-- ==== Sys2Proof/Machine/Devices.lean ====
section
/-! DEFINITION. What an event does to LCDSEQ's collaborators: the GPIO lines, the transport's chip-select and data-select,
and the delay (R15, R16, R37). -/

namespace Sys2Proof.Machine

/-- A line of the GPIO collaborator. -/
def Devices.line (d : Devices) : Pin → Line
  | .rst => d.rst
  | .cs => d.cs
  | .dc => d.dc
  | .det => d.det

/-- Change one line. -/
def Devices.setLine (d : Devices) (p : Pin) (l : Line) : Devices :=
  match p with
  | .rst => { d with rst := l }
  | .cs => { d with cs := l }
  | .dc => { d with dc := l }
  | .det => { d with det := l }

/-- Drive one line to a level. -/
def Devices.drive (d : Devices) (p : Pin) (v : Bool) : Devices := d.setLine p { d.line p with level := v }

/-- The effect of one event on the collaborators.  Chip-select is high when inactive (R75 step 1), so asserting it drives it
low (log entry 9); the transport leaves data-select in the mode of its last transfer (log entry 10). -/
def Devices.apply (dcCommand : Bool) (d : Devices) : Event → Devices
  | .pinMode p => d.setLine p { d.line p with output := true }
  | .pin p v => d.drive p v
  | .delay t => { d with elapsed := d.elapsed + (t + Config.freeDelayExtra d.delays), delays := d.delays + 1 }
  | .txnBegin => d.drive .cs false
  | .txnEnd => d.drive .cs true
  | .cmd _ => d.drive .dc dcCommand
  | .data _ => d.drive .dc (!dcCommand)

/-- The effect of a list of events, oldest first. -/
def Devices.applyAll (dcCommand : Bool) (d : Devices) (es : List Event) : Devices :=
  es.foldl (Devices.apply dcCommand) d

end Sys2Proof.Machine
end

