-- ==== Sys2Proof/Machine/Flags.lean ====
section
/-! DEFINITION. The encodings of PHASE, the result codes and OOB_POLICY (R23, R97, R35), the sticky ERR flag (R25) and the
four host registers (R32 to R35). -/

namespace Sys2Proof.Machine

/-- PHASE's 3-bit encoding (R23). -/
def Phase.code : Phase → BitVec 3
  | .unpowered => 0#3
  | .reset => 1#3
  | .configuring => 2#3
  | .sleeping => 3#3
  | .active => 4#3

/-- A result's 8-bit code (R97). -/
def Result.code : Result → Byte
  | .ok => 0x00#8
  | .eFatal => 0x01#8
  | .eIllegal => 0x02#8
  | .eReserved => 0x03#8
  | .eConfig => 0x04#8
  | .eNotActive => 0x05#8
  | .eNoTxn => 0x06#8
  | .eTxnOpen => 0x07#8
  | .eZeroExtent => 0x08#8
  | .eBounds => 0x09#8
  | .eNoWindow => 0x0A#8

/-- OOB_POLICY's 2-bit encoding in CONFIG (R35). -/
def oobCode : OobPolicy → BitVec 2
  | .reject => 0#2
  | .fatal => 1#2
  | .clamp => 2#2

/-- The result a decoding error is reported as (R64, R65, R97). -/
def decodeResult : DecodeError → Result
  | .illegal => .eIllegal
  | .reserved => .eReserved

/-- ERR after an operation that returns `r`: set by any result other than OK, cleared by none (R25). -/
def errAfter (err : Bool) (r : Result) : Bool := err || decide (r ≠ .ok)

/-- The result of a pseudo-operation once a constituent has returned `r`: the first that is not OK (R89). -/
def firstError (acc r : Result) : Result := if acc = .ok then r else acc

/-- STATUS (R32). -/
def statusReg (s : State) : RegWord :=
  0#16 ++ s.lastResult.code ++ 0#1 ++ BitVec.ofBool s.winValid ++ BitVec.ofBool s.txnOpen
    ++ BitVec.ofBool s.err ++ BitVec.ofBool s.fatal ++ s.phase.code

/-- WINDOW (R33). -/
def windowReg (s : State) : RegWord := s.winH ++ s.winW ++ s.winY ++ s.winX

/-- COUNT (R34). -/
def countReg (s : State) : RegWord := 0#16 ++ s.winCount

/-- CONFIG (R35). -/
def configReg (s : State) : RegWord := 0#6 ++ oobCode s.cfg.oob ++ BitVec.ofNat 24 s.cfg.cap

/-- The host register of an index (R19, R32 to R35). -/
def readReg (s : State) (idx : BitVec 2) : RegWord :=
  match idx.toNat with
  | 0 => statusReg s
  | 1 => windowReg s
  | 2 => countReg s
  | _ => configReg s

end Sys2Proof.Machine
end

