-- ==== Sys2Proof/Machine/Operands.lean ====
section
/-! DEFINITION. Operand forms: the rectangle check (R79), the address bytes of a window (R44, R70), the bytes of a color
sample (R43) and the chunk lengths of a fill (R83). -/

namespace Sys2Proof.Machine

/-- The rectangle lies on the 240 × 240 panel (R51). -/
def Rect.onPanel (r : Rect) : Prop :=
  1 ≤ r.w ∧ 1 ≤ r.h ∧ r.x + r.w ≤ Config.panelW ∧ r.y + r.h ≤ Config.panelH

/-- The rectangle of INIT's clear, the whole panel (R75). -/
def Rect.full : Rect := ⟨0, 0, Config.panelW, Config.panelH⟩

/-- `CheckRect(x, y, w, h)` under an OOB_POLICY, on unbounded integers (R11, R79).  That FATAL is set with `bounds` under
the policy FATAL is the caller's part (`raiseBounds`). -/
def checkRect (pol : OobPolicy) (x y w h : Nat) : RectCheck :=
  if w = 0 ∨ h = 0 then .zeroExtent
  else if x + w ≤ Config.panelW ∧ y + h ≤ Config.panelH then .pass ⟨x, y, w, h⟩
  else match pol with
    | .reject => .bounds
    | .fatal => .bounds
    | .clamp =>
      if 239 < x ∨ 239 < y then .bounds
      else .pass ⟨x, y, min w (Config.panelW - x), min h (Config.panelH - y)⟩

/-- An address placed in a byte: the slice [7:0] (R11, R80). -/
def addrByte (n : Nat) : Byte := BitVec.ofNat 8 n

/-- The four parameter bytes of CASET or RASET for inclusive addresses, start first (R44, R70, R80). -/
def windowParams (first last : Nat) : List Byte := [0x00#8, addrByte first, 0x00#8, addrByte last]

/-- c[15:8] (R43). -/
def sampleHigh (c : Sample) : Byte := c.extractLsb' 8 8

/-- c[7:0] (R43). -/
def sampleLow (c : Sample) : Byte := c.extractLsb' 0 8

/-- The byte of index `i` in a run of the sample `c`, high byte first (R43, R83). -/
def patternByte (c : Sample) (i : Nat) : Byte := if i % 2 = 0 then sampleHigh c else sampleLow c

/-- The first `n` bytes of a run of the sample `c`. -/
def patternBytes (c : Sample) (n : Nat) : List Byte := (List.range n).map (patternByte c)

/-- The chunk lengths of R83's loop: while `rem` bytes remain, send `min(rem, cap)` of them; at most `fuel` rounds. -/
def chunkLens (cap : Nat) : Nat → Nat → List Nat
  | 0, _ => []
  | fuel + 1, rem => if rem = 0 then [] else min rem cap :: chunkLens cap fuel (rem - min rem cap)

end Sys2Proof.Machine
end

