-- ==== Sys2Proof/Machine/Ops.lean ====
section
/-! DEFINITION. The shared operations: the staging buffer (R13, R31, R41), emitting events (R15), the bracket (R27), sending
a command (R73), WindowBody (R80), FillBody (R83), raising a result (R14, R99) and the issue cycle (R72). -/

namespace Sys2Proof.Machine

/-! Lists by key, strictly rising: the one canonical form of the staging buffer, of frame memory and of the panel's
configuration registers. -/

/-- The keys rise strictly. -/
def keysRise {α : Type} : List (Nat × α) → Bool
  | [] => true
  | [_] => true
  | a :: b :: t => decide (a.1 < b.1) && keysRise (b :: t)

/-- The value stored under a key. -/
def lookupKey {α : Type} (k : Nat) : List (Nat × α) → Option α
  | [] => none
  | (a, v) :: t => if a = k then some v else lookupKey k t

/-- Store a value under a key, in its place. -/
def storeKey {α : Type} (k : Nat) (v : α) : List (Nat × α) → List (Nat × α)
  | [] => [(k, v)]
  | (a, u) :: t =>
    if a < k then (a, u) :: storeKey k v t
    else if a = k then (k, v) :: t
    else (k, v) :: (a, u) :: t

/-! The staging buffer. -/

/-- The buffer's canonical form: indexes strictly rising, each below CAP (R31). -/
def Mem.wf (cap : Nat) (m : Mem) : Bool := keysRise m && m.all fun c => decide (c.1 < cap)

/-- `buf[i]`: the byte written there, else free (I2). -/
def Mem.readByte (m : Mem) (i : Nat) : Byte := (lookupKey i m).getD (Config.freeBufByte i)

/-- `MemWrite(i, 1, v)` inside the buffer (R13). -/
def Mem.writeByte (m : Mem) (i : Nat) (v : Byte) : Mem := storeKey i v m

/-- `buf[i]` where every index listed is at least `i`. -/
def Mem.headByte (m : Mem) (i : Nat) : Byte :=
  match m with
  | [] => Config.freeBufByte i
  | (a, b) :: _ => if a = i then b else Config.freeBufByte i

/-- `MemRead(i, n)`: the bytes `buf[i] .. buf[i+n-1]` in one pass (R13). -/
def Mem.readRange (m : Mem) (i : Nat) : Nat → List Byte
  | 0 => []
  | n + 1 =>
    Mem.headByte (m.dropWhile fun c => decide (c.1 < i)) i
      :: Mem.readRange (m.dropWhile fun c => decide (c.1 < i)) (i + 1) n

/-- The index range `i .. i+n-1` lies in the buffer (R13). -/
def inBuffer (cap i n : Nat) : Bool := decide (i + n ≤ cap)

/-- The buffer after R83's loop: bytes 0 .. n-1 hold the sample's bytes, the rest keep their values. -/
def Mem.fillPattern (m : Mem) (n : Nat) (c : Sample) : Mem :=
  (List.range n).map (fun i => (i, patternByte c i)) ++ m.filter fun cell => decide (n ≤ cell.1)

/-! Outcomes. -/

/-- The outcome of a part of an operation. -/
abbrev Res (α : Type) := Host.Outcome α Fault Refusal

/-- Go on with a next value; a stop stays a stop. -/
def andThen {α β : Type} (o : Res α) (k : α → Res β) : Res β :=
  match o with
  | .next a => k a
  | .fault f => .fault f
  | .refused r => .refused r

/-- `raise E_x`: the operation ends with this result (R14). -/
def raise (r : Result) (s : State) : Res (Result × State) := .next (r, s)

/-- `return OK` (R14). -/
def returnOk (s : State) : Res (Result × State) := .next (.ok, s)

/-! Events and the bracket. -/

/-- Emit events in order: each is appended to the trace and has acted on its collaborator before the next (R15, R52). -/
def emit (es : List Event) (s : State) : State :=
  { s with trace := s.trace ++ es, devices := s.devices.applyAll s.cfg.wire.dcCommand es }

/-- `emit TxnBegin; TXN_OPEN <- 1` (R75, R77, R85). -/
def openTxn (s : State) : State := { emit [.txnBegin] s with txnOpen := true }

/-- `emit TxnEnd; TXN_OPEN <- 0` (R75, R78, R85). -/
def closeTxn (s : State) : State := { emit [.txnEnd] s with txnOpen := false }

/-- The events of `SendCmd(n)`: the command byte, then its parameters if it has any (R73). -/
def sendCmdEvents (c : Config) (n : PanelCmd) : List Event :=
  .cmd (c.panelCmd.code n) ::
    (if (c.initParams.bytes n).length = 0 then [] else [.data (c.initParams.bytes n)])

/-- `SendCmd(n)` (R73). -/
def sendCmd (n : PanelCmd) (s : State) : State := emit (sendCmdEvents s.cfg n) s

/-- `SendCmd` for each command of a list, in order. -/
def sendCmds (ns : List PanelCmd) (s : State) : State := emit (ns.flatMap (sendCmdEvents s.cfg)) s

/-! Window and fill. -/

/-- The events of WindowBody: the column command before the row command (R70, R80). -/
def windowEvents (c : Config) (r : Rect) : List Event :=
  [.cmd (c.panelCmd.code .caset), .data (windowParams r.x (r.x + r.w - 1)),
   .cmd (c.panelCmd.code .raset), .data (windowParams r.y (r.y + r.h - 1))]

/-- Record the window (R29, R80). -/
def recordWindow (r : Rect) (s : State) : State :=
  { s with
    winX := BitVec.ofNat 8 r.x, winY := BitVec.ofNat 8 r.y, winW := BitVec.ofNat 8 r.w, winH := BitVec.ofNat 8 r.h,
    winCount := BitVec.ofNat 16 (r.w * r.h), winValid := true }

/-- `WindowBody(x, y, w, h)` (R80). -/
def windowBody (r : Rect) (s : State) : State := recordWindow r (emit (windowEvents s.cfg r) s)

/-- The bytes a fill sends: two for each pixel of the programmed window (R83). -/
def fillTotal (s : State) : Nat := 2 * s.winCount.toNat

/-- The chunk lengths of a fill (R83, R87). -/
def fillChunks (s : State) : List Nat := chunkLens s.cfg.cap (fillTotal s) (fillTotal s)

/-- The buffer once the fill engine has written it, before the first chunk (R83). -/
def filledBuf (c : Sample) (s : State) : Mem := s.buf.fillPattern (min s.cfg.cap (fillTotal s)) c

/-- The events of FillBody: RAMWR once, then each chunk, read from index 0 of the filled buffer (R71, R83). -/
def fillEvents (c : Sample) (s : State) : List Event :=
  .cmd (s.cfg.panelCmd.code .ramwr) ::
    (fillChunks s).map fun k => Event.data ((filledBuf c s).readRange 0 k)

/-- `FillBody(c)` (R83).  Where the loop would not end, or an index would leave the buffer, the model faults (R13). -/
def fillBody (c : Sample) (s : State) : Res State :=
  if s.cfg.cap = 0 ∧ fillTotal s ≠ 0 then .fault .fillNeverEnds
  else if (fillChunks s).all (inBuffer s.cfg.cap 0) then
    .next { emit (fillEvents c s) s with buf := filledBuf c s, winValid := false }
  else .fault .bufferIndexOutOfRange

/-! Rejections and the issue cycle. -/

/-- `raise E_BOUNDS`, with FATAL set under OOB_POLICY = FATAL (R79, R99). -/
def raiseBounds (s : State) : Res (Result × State) :=
  raise .eBounds { s with fatal := s.fatal || decide (s.cfg.oob = .fatal) }

/-- Run `CheckRect` on an operation's rectangle and go on with the rectangle to program, or raise (R79). -/
def withRect (x y w h : Byte) (s : State) (k : Rect → Res (Result × State)) : Res (Result × State) :=
  match checkRect s.cfg.oob x.toNat y.toNat w.toNat h.toNat with
  | .pass r => k r
  | .zeroExtent => raise .eZeroExtent s
  | .bounds => raiseBounds s

/-- A result reaches the host, and the pseudo-operation it runs, if any (R17, R89). -/
def HostAgent.returned (h : HostAgent) (r : Result) : HostAgent :=
  { h with results := h.results ++ [r], running := h.running.map fun p => { p with acc := firstError p.acc r } }

/-- The end of the issue cycle: LAST_RESULT, ERR, BUSY, and the result returned (R72, R25, R26, R30). -/
def finish (r : Result) (s : State) : State :=
  { s with lastResult := r, err := errAfter s.err r, busy := false, host := s.host.returned r }

/-- Report an error found before any operation runs; E_FATAL goes before it (R98, R99, R101). -/
def rejectOp (r : Result) (s : State) : State := finish (if s.fatal then .eFatal else r) s

/-- The issue cycle around an operation's own rule: the FATAL check, the rule, the status update (R72). -/
def issueCycle (rule : State → Res (Result × State)) (s : State) : Res State :=
  if s.fatal then .next (finish .eFatal s)
  else andThen (rule s) fun p => .next (finish p.1 p.2)

/-- The operation word the port holds. -/
def portFetch (s : State) : OpWord := s.portWord

/-- The port takes a word: BUSY is 1 from here until the result is returned (R18, R30, R72). -/
def portTake (op : OpWord) (s : State) : State := { s with portWord := op, busy := true }

end Sys2Proof.Machine
end

