-- ==== Sys2Proof/Machine/Sequencer.lean ====
section
/-! DEFINITION. Sequencer control: NOP, INIT, TXN_BEGIN, TXN_END (R74 to R78). -/

namespace Sys2Proof.Machine

/-- The rule of NOP (R74). -/
def nopRule (s : State) : Res (Result × State) := returnOk s

/-- NOP (R74). -/
def execNop (s : State) : Res State := issueCycle nopRule s

/-- CAP is a misconfiguration: odd, or below 2 (R75). -/
def capMisconfigured (cap : Nat) : Bool := decide (cap % 2 ≠ 0) || decide (cap < 2)

/-- Step 1 of the bring-up: the lines are configured, then driven (R75). -/
def lineSetupEvents (c : Config) : List Event :=
  [.pinMode .rst, .pinMode .cs, .pinMode .dc, .pinMode .det, .pin .cs true, .pin .dc true, .pin .det c.detLevel]

/-- Step 2 of the bring-up: the reset pulse and its delays (R75, R123). -/
def resetPulseEvents (c : Config) : List Event :=
  [.pin .rst true, .delay c.tRstHigh, .pin .rst false, .delay c.tRstLow, .pin .rst true, .delay c.tRstRecover]

/-- The 13 configuration commands of step 3, in order (R69, R75). -/
def configCommands : List PanelCmd :=
  [.madctl, .colmod, .porctrl, .gctrl, .vcoms, .lcmctrl, .vdvvrhen, .vrhs, .vdvs, .frctrl2, .pwctrl1, .pvgamctrl,
   .nvgamctrl]

/-- Steps 1 and 2, phase RESET (R75, R76). -/
def initReset (s : State) : State :=
  emit (resetPulseEvents s.cfg) (emit (lineSetupEvents s.cfg) { s with winValid := false, phase := .reset })

/-- Step 3 up to INVON, phase CONFIGURING (R75, R76). -/
def initConfigure (s : State) : State :=
  sendCmd .invon (sendCmds configCommands (openTxn { s with phase := .configuring }))

/-- SLPOUT, DISPON and their settle times, phase SLEEPING (R75, R76). -/
def initWake (s : State) : State :=
  emit [.delay s.cfg.tDispon] (sendCmd .dispon
    (emit [.delay s.cfg.tSlpout] (sendCmd .slpout { s with phase := .sleeping })))

/-- Steps 1 to 4: everything before the clear, ending in phase ACTIVE with the bracket open (R75). -/
def initBringUp (s : State) : State := { initWake (initConfigure (initReset s)) with phase := .active }

/-- The rule of INIT (R75): its two checks, the bring-up, the clear to black (G8) and the end of the bracket. -/
def initRule (s : State) : Res (Result × State) :=
  if capMisconfigured s.cfg.cap then raise .eConfig { s with fatal := true }
  else if s.txnOpen then raise .eTxnOpen s
  else andThen (fillBody 0x0000#16 (windowBody Rect.full (initBringUp s))) fun t => returnOk (closeTxn t)

/-- INIT (R75). -/
def execInit (s : State) : Res State := issueCycle initRule s

/-- The rule of TXN_BEGIN (R77). -/
def txnBeginRule (s : State) : Res (Result × State) :=
  if s.phase ≠ .active then raise .eNotActive s
  else if s.txnOpen then raise .eTxnOpen s
  else returnOk (openTxn s)

/-- TXN_BEGIN (R77). -/
def execTxnBegin (s : State) : Res State := issueCycle txnBeginRule s

/-- The rule of TXN_END (R78). -/
def txnEndRule (s : State) : Res (Result × State) :=
  if s.phase ≠ .active then raise .eNotActive s
  else if s.txnOpen = false then raise .eNoTxn s
  else returnOk { closeTxn s with winValid := false }

/-- TXN_END (R78). -/
def execTxnEnd (s : State) : Res State := issueCycle txnEndRule s

end Sys2Proof.Machine
end

