-- ==== Sys2Proof/Machine/Stream.lean ====
section
/-! DEFINITION. The color-burst streamer: FILL and DRAW_RECT (R83 to R88). -/

namespace Sys2Proof.Machine

/-- The rule of FILL (R84). -/
def fillRule (color : Sample) (s : State) : Res (Result × State) :=
  if s.phase ≠ .active then raise .eNotActive s
  else if s.txnOpen = false then raise .eNoTxn s
  else if s.winValid = false then raise .eNoWindow s
  else andThen (fillBody color s) returnOk

/-- FILL color (R84). -/
def execFill (color : Sample) (s : State) : Res State := issueCycle (fillRule color) s

/-- The rule of DRAW_RECT: a window and a fill in a bracket of its own (R85). -/
def drawRectRule (x y w h : Byte) (color : Sample) (s : State) : Res (Result × State) :=
  if s.phase ≠ .active then raise .eNotActive s
  else if s.txnOpen then raise .eTxnOpen s
  else withRect x y w h s fun r =>
    andThen (fillBody color (windowBody r (openTxn s))) fun t => returnOk (closeTxn t)

/-- DRAW_RECT x, y, w, h, color (R85). -/
def execDrawRect (x y w h : Byte) (color : Sample) (s : State) : Res State :=
  issueCycle (drawRectRule x y w h color) s

end Sys2Proof.Machine
end

