-- ==== Sys2Proof/Machine/Window.lean ====
section
/-! DEFINITION. Window addressing: SET_WINDOW (R79 to R82). -/

namespace Sys2Proof.Machine

/-- The rule of SET_WINDOW (R81). -/
def setWindowRule (x y w h : Byte) (s : State) : Res (Result × State) :=
  if s.phase ≠ .active then raise .eNotActive s
  else if s.txnOpen = false then raise .eNoTxn s
  else withRect x y w h s fun r => returnOk (windowBody r s)

/-- SET_WINDOW x, y, w, h (R81). -/
def execSetWindow (x y w h : Byte) (s : State) : Res State := issueCycle (setWindowRule x y w h) s

end Sys2Proof.Machine
end

