-- ==== Sys2Proof/Machine/Dispatch.lean ====
section
/-! DEFINITION. One arm per operation of the opcode map (R63). -/

namespace Sys2Proof.Machine

def exec (i : Instr) (s : State) : Host.Outcome State Fault Refusal :=
  match i with
  -- sequencer control (R74 to R78)
  | .nop => Sys2Proof.Machine.execNop s
  | .init => Sys2Proof.Machine.execInit s
  | .txnBegin => Sys2Proof.Machine.execTxnBegin s
  | .txnEnd => Sys2Proof.Machine.execTxnEnd s
  -- window addressing (R81)
  | .setWindow x y w h => Sys2Proof.Machine.execSetWindow x y w h s
  -- color-burst streamer (R84, R85)
  | .fill color => Sys2Proof.Machine.execFill color s
  | .drawRect x y w h color => Sys2Proof.Machine.execDrawRect x y w h color s

end Sys2Proof.Machine
end

