-- ==== Sys2Proof/Machine/HostAgent.lean ====
section
/-! DEFINITION. The host agent: the pseudo-operations (R89 to R96) and the host's move (R7, R18, R19). -/

namespace Sys2Proof.Machine

/-- The blank glyph: all-zero columns (R91). -/
def blankGlyph : List Byte := [0#8, 0#8, 0#8, 0#8, 0#8]

/-- `Glyph(code)`: the table's entry, or the blank glyph out of range (R91). -/
def glyphOf (c : Config) (code : Nat) : List Byte :=
  if c.glyphBase ≤ code ∧ code - c.glyphBase < c.glyphCount then c.glyph.getD (code - c.glyphBase) blankGlyph
  else blankGlyph

/-- Pixel (col, row) of a glyph: bit `row` of column byte `col`, row 0 at the top (R92). -/
def glyphBit (g : List Byte) (col row : Nat) : Bool := (g.getD col 0#8).getLsbD row

/-- CLEAR (R90); black is 0x0000 (G8). -/
def clearReqs : List DrawReq := [⟨0, 0, 240, 240, 0x0000#16⟩]

/-- The rectangle of one glyph pixel, none for an unset pixel that is skipped (R93). -/
def glyphPixelReq (g : List Byte) (x y s : Nat) (fg bg : Sample) (skip : Bool) (col row : Nat) : List DrawReq :=
  if glyphBit g col row = false ∧ skip = true then []
  else [⟨x + col * s, y + row * s, s, s, if glyphBit g col row then fg else bg⟩]

/-- DRAW_CHAR: columns left to right, in each the rows top to bottom (R93). -/
def drawCharReqs (c : Config) (x y s code : Nat) (fg bg : Sample) (skip : Bool) : List DrawReq :=
  (List.range 5).flatMap fun col =>
    (List.range 8).flatMap fun row => glyphPixelReq (glyphOf c code) x y s fg bg skip col row

/-- Where a wrapped line restarts (R94). -/
def wrapColumn (c : Config) (x : Nat) : Nat :=
  match c.wrapMargin with
  | .callX => x
  | .zero => 0

/-- The places of a string's characters: `first` holds for the first character, which never wraps (R94). -/
def stringPlaces (c : Config) (x s : Nat) (first : Bool) (cx cy : Nat) : List Nat → List (Nat × Nat × Nat)
  | [] => []
  | code :: rest =>
    if first = false ∧ 239 < cx + 5 * s - 1 then
      (wrapColumn c x, cy + 8 * s, code)
        :: stringPlaces c x s false (wrapColumn c x + (5 + c.charSpacing) * s) (cy + 8 * s) rest
    else (cx, cy, code) :: stringPlaces c x s false (cx + (5 + c.charSpacing) * s) cy rest

/-- DRAW_STRING: a DRAW_CHAR at each place (R94). -/
def drawStringReqs (c : Config) (x y s : Nat) (text : List Nat) (fg bg : Sample) (skip : Bool) : List DrawReq :=
  (stringPlaces c x s true x y text).flatMap fun p => drawCharReqs c p.1 p.2.1 s p.2.2 fg bg skip

/-- STRING_WIDTH (R95). -/
def stringWidth (c : Config) (text : List Nat) (s : Nat) : Nat :=
  if text.length = 0 then 0 else 5 * s * text.length + c.charSpacing * s * (text.length - 1)

/-- The DRAW_RECTs of a pseudo-operation, in order (R68); STRING_WIDTH issues none. -/
def pseudoReqs (c : Config) : PseudoOp → List DrawReq
  | .clear => clearReqs
  | .drawChar x y s code fg bg skip => drawCharReqs c x y s code fg bg skip
  | .drawString x y s text fg bg skip => drawStringReqs c x y s text fg bg skip
  | .stringWidth _ _ => []

/-- The word of a constituent; none where a coordinate or the scale does not fit its field (R89). -/
def DrawReq.word (q : DrawReq) : Option OpWord :=
  if byteOperandFits q.x && byteOperandFits q.y && byteOperandFits q.w && byteOperandFits q.h then
    some (encode (.drawRect (BitVec.ofNat 8 q.x) (BitVec.ofNat 8 q.y) (BitVec.ofNat 8 q.w) (BitVec.ofNat 8 q.h) q.color))
  else none

/-- The next constituent: issued if it fits, else not issued and counted as E_BOUNDS (R89). -/
def issueConstituent (p : PseudoRun) (q : DrawReq) (rest : List DrawReq) (s : State) : State :=
  match q.word with
  | some op => portTake op { s with host := { s.host with running := some { p with rest := rest } } }
  | none =>
    { s with host := { s.host with running := some { p with rest := rest, acc := firstError p.acc .eBounds } } }

/-- The pseudo-operation in progress goes on, or ends with its result (R89). -/
def pseudoMove (p : PseudoRun) (s : State) : State :=
  match p.rest with
  | [] => { s with host := { s.host with running := none, pseudoResults := s.host.pseudoResults ++ [p.acc] } }
  | q :: rest => issueConstituent p q rest s

/-- The host starts its next action. -/
def actionMove (a : HostAction) (rest : List HostAction) (s : State) : State :=
  match a with
  | .issue op => portTake op { s with host := { s.host with todo := rest } }
  | .read idx => { s with host := { s.host with todo := rest, reads := s.host.reads ++ [(idx, readReg s idx)] } }
  | .pseudo (.stringWidth text sc) =>
    { s with host := { s.host with todo := rest, widths := s.host.widths ++ [stringWidth s.cfg text sc] } }
  | .pseudo p =>
    { s with host := { s.host with todo := rest, running := some { rest := pseudoReqs s.cfg p, acc := .ok } } }

/-- The host's move, while no operation is in progress (R18, R19).  A host with nothing left to do leaves the machine as it
is. -/
def hostMove (s : State) : State :=
  match s.host.running with
  | some p => pseudoMove p s
  | none =>
    match s.host.todo with
    | [] => s
    | a :: rest => actionMove a rest s

end Sys2Proof.Machine
end

