-- ==== Sys2Proof/Machine/Panel.lean ====
section
/-! DEFINITION. The panel agent: the reference observer of the trace (R56 to R58), with the sleep, inversion, display-on and
configuration state that R36 names.  All of it rests on general knowledge in the spec (G4 to G7); LCDSEQ reads none of it. -/

namespace Sys2Proof.Machine

/-- Where a pixel of the 240 × 240 frame memory is kept. -/
def pixelKey (col row : Nat) : Nat := row * Config.panelW + col

/-- `FM[col][row]`: the sample written there, else free (R56). -/
def Panel.sample (p : Panel) (col row : Nat) : Sample :=
  (lookupKey (pixelKey col row) p.fm).getD (Config.freeSample p.epoch col row)

/-- The write pointer is inside the window and the frame memory; elsewhere no rule says what a sample does (I4, I6). -/
def Panel.pointerInside (p : Panel) : Bool :=
  decide (p.pc ≤ p.xe.toNat) && decide (p.pr ≤ p.ye.toNat) && decide (p.pc < Config.panelW)
    && decide (p.pr < Config.panelH)

/-- The pointer after a sample: the next column, then the next row (R58). -/
def Panel.advance (p : Panel) : Panel :=
  if p.xe.toNat < p.pc + 1 then { p with pc := p.xs.toNat, pr := p.pr + 1 } else { p with pc := p.pc + 1 }

/-- One sample arrives.  Past the window's end, or outside frame memory, what frame memory then holds is free (I6).  That the
write pointer then stays where it is, is a DESIGN CHOICE (log entry 27). -/
def Panel.writeSample (p : Panel) (c : Sample) : Panel :=
  if p.pointerInside then Panel.advance { p with fm := storeKey (pixelKey p.pc p.pr) c p.fm }
  else { p with fm := [], epoch := p.epoch + 1 }

/-- One data byte after RAMWR: bytes pair up, high byte first, across `Data` events (R58). -/
def Panel.pixelByte (p : Panel) (b : Byte) : Panel :=
  match p.latch with
  | none => { p with latch := some b }
  | some h => Panel.writeSample { p with latch := none } (h ++ b)

/-- The two window values of four parameter bytes: start, then end (R57). -/
def windowValues (args : List Byte) : Option (BitVec 16 × BitVec 16) :=
  match args with
  | [a, b, c, d] => some (a ++ b, c ++ d)
  | _ => none

/-- One data byte after CASET or RASET is kept until there are four.  That a fifth is ignored is a DESIGN CHOICE (log
entry 12). -/
def Panel.argByte (p : Panel) (b : Byte) : Panel :=
  if p.args.length < 4 then { p with args := p.args ++ [b] } else p

/-- After CASET, four bytes set XS and XE (R57). -/
def Panel.columnByte (p : Panel) (b : Byte) : Panel :=
  match windowValues (p.argByte b).args with
  | some v => { p.argByte b with xs := v.1, xe := v.2 }
  | none => p.argByte b

/-- After RASET, four bytes set YS and YE (R57). -/
def Panel.rowByte (p : Panel) (b : Byte) : Panel :=
  match windowValues (p.argByte b).args with
  | some v => { p.argByte b with ys := v.1, ye := v.2 }
  | none => p.argByte b

/-- One parameter byte of any other command goes to that command's configuration register (R36); which bytes those registers
hold, SLPOUT's, INVON's and DISPON's codes among them, is a DESIGN CHOICE (log entry 12). -/
def Panel.configByte (p : Panel) (k b : Byte) : Panel :=
  { p with config := storeKey k.toNat ((lookupKey k.toNat p.config).getD [] ++ [b]) p.config }

/-- One data byte, by the command in progress.  Where two of the codes coincide the order of the tests decides, RAMWR, CASET,
RASET, then the configuration registers: a DESIGN CHOICE (log entry 25).  So is that a byte before any command does nothing
(log entry 12). -/
def Panel.dataByte (t : PanelCodes) (p : Panel) (b : Byte) : Panel :=
  match p.current with
  | none => p
  | some k =>
    if k = t.ramwr then p.pixelByte b
    else if k = t.caset then p.columnByte b
    else if k = t.raset then p.rowByte b
    else p.configByte k b

/-- A command byte starts a command.  R58 has RAMWR clear the pairing latch and ends a pixel stream at the next `Cmd`.  That
every command clears the latch (log entry 12), and drops the bytes received for a CASET or RASET that has not had four (log
entry 26), are DESIGN CHOICES. -/
def Panel.startCommand (p : Panel) (b : Byte) : Panel := { p with current := some b, args := [], latch := none }

/-- A command byte that is no window command: its configuration register starts anew (log entry 12), and the status commands
of the bring-up set the panel's status (R36, R110, log entry 13). -/
def Panel.otherCommand (t : PanelCodes) (p : Panel) (b : Byte) : Panel :=
  let q := { p.startCommand b with config := storeKey b.toNat [] p.config }
  if b = t.slpout then { q with sleeping := false }
  else if b = t.invon then { q with inverted := true }
  else if b = t.dispon then { q with displayOn := true }
  else q

/-- A command byte.  RAMWR sets the write pointer to the window's start (R58).  R57 and R58 need the codes of CASET, RASET and
RAMWR distinct (R69); where codes of PANEL_CMD coincide the first match in the order RAMWR, CASET, RASET, SLPOUT, INVON,
DISPON is taken: a DESIGN CHOICE (log entry 25). -/
def Panel.command (t : PanelCodes) (p : Panel) (b : Byte) : Panel :=
  if b = t.ramwr then { p.startCommand b with pc := p.xs.toNat, pr := p.ys.toNat }
  else if b = t.caset then p.startCommand b
  else if b = t.raset then p.startCommand b
  else p.otherCommand t b

/-- The reset line goes low: the panel sleeps until SLPOUT (R76, G11); inversion and display-on are then free. -/
def Panel.hardwareReset (p : Panel) : Panel :=
  { p with
    sleeping := true, inverted := Config.freePanelBit 1 (p.resets + 1),
    displayOn := Config.freePanelBit 2 (p.resets + 1), resets := p.resets + 1 }

/-- One event of the trace (R56 to R58). -/
def Panel.observe (t : PanelCodes) (p : Panel) : Event → Panel
  | .cmd b => p.command t b
  | .data bs => bs.foldl (Panel.dataByte t) p
  | .pin .rst false => p.hardwareReset
  | .pin .rst true => p
  | .pin .cs _ => p
  | .pin .dc _ => p
  | .pin .det _ => p
  | .pinMode _ => p
  | .delay _ => p
  | .txnBegin => p
  | .txnEnd => p

/-- A list of events, oldest first. -/
def Panel.observeAll (t : PanelCodes) (p : Panel) (es : List Event) : Panel := es.foldl (Panel.observe t) p

/-- The panel has events of the trace still to consume. -/
def panelHasEvents (s : State) : Bool := decide (s.panel.seen < s.trace.length)

/-- The panel's move: it consumes the next event of the trace (R7 (c)). -/
def panelMove (s : State) : State :=
  match s.trace[s.panel.seen]? with
  | some e => { s with panel := { s.panel.observe s.cfg.panelCmd e with seen := s.panel.seen + 1 } }
  | none => s

end Sys2Proof.Machine
end

