-- ==== Sys2Proof/Machine/Step.lean ====
section
/-! DEFINITION. One step of the machine: the move of the one agent that moves next (R7). -/

namespace Sys2Proof.Machine

/-- LCDSEQ's move: it decodes the word its port holds and runs the operation to completion (R49, R66, R72).  A word that is
no operation is rejected by its decoding error, after the FATAL check (R98). -/
def lcdseqMove (s : State) : Host.Outcome State Fault Refusal :=
  match decode (portFetch s) with
  | .ok i => exec i s
  | .error e => .next (rejectOp (decodeResult e) s)

/-- One step.  An operation in progress goes first, since `issue` is synchronous (R18); then the panel catches up with the
trace (R52); then the host acts.  A configuration that is not well formed is refused (R9). -/
def step (s : State) : Host.Outcome State Fault Refusal :=
  if s.cfg.wf = false then .refused .illFormedConfiguration
  else if s.busy then lcdseqMove s
  else if panelHasEvents s then .next (panelMove s)
  else .next (hostMove s)

/-- The state in which the host has just issued the word `w` (its `nbits` low bits): the port holds it and LCDSEQ moves next
(R18, log entry 6). -/
def State.withFetchWord (s : State) (nbits w : Nat) : State :=
  { s with portWord := BitVec.ofNat 64 (w % 2 ^ nbits), busy := true }

end Sys2Proof.Machine
end

