-- ==== Sys2Proof/Safety.lean ====
section
/-! DEFINITION. The terms claims use: what a trace says, which result the spec's priority list reports, and the invariant that
every step keeps. -/

namespace Sys2Proof.Machine

/-! What a trace says. -/

/-- A bracket is open after these events: a TxnBegin has no TxnEnd after it (R27). -/
def bracketOpen (es : List Event) : Bool :=
  es.foldl (fun b e =>
    match e with
    | .txnBegin => true
    | .txnEnd => false
    | .pinMode _ => b
    | .pin _ _ => b
    | .delay _ => b
    | .cmd _ => b
    | .data _ => b) false

/-- The data bytes of an event. -/
def Event.bytes : Event → List Byte
  | .data bs => bs
  | .pinMode _ => []
  | .pin _ _ => []
  | .delay _ => []
  | .txnBegin => []
  | .txnEnd => []
  | .cmd _ => []

/-- An event that is not a `Data` event of no bytes (R15, R48). -/
def Event.nonEmpty (e : Event) : Bool := decide (e ≠ .data [])

/-- The delay an event stands for, if it is one. -/
def Event.delayOf : Event → List Nat
  | .delay t => [t]
  | .pinMode _ => []
  | .pin _ _ => []
  | .txnBegin => []
  | .txnEnd => []
  | .cmd _ => []
  | .data _ => []

/-- The delays of a trace, in order (R123). -/
def traceDelays (es : List Event) : List Nat := es.flatMap Event.delayOf

/-! Written assembly (R67). -/

/-- `c` is the digit `d` of a base; a hexadecimal digit may be of either case (log entry 17). -/
def IsDigit (base d : Nat) (c : Char) : Prop :=
  d < base ∧ ("0123456789abcdef".toList[d]? = some c ∨ "0123456789ABCDEF".toList[d]? = some c)

/-- `cs` writes the number `n`, in decimal or in `0x` hexadecimal: the value of its digits, unwrapped (R67). -/
def Numeral (cs : List Char) (n : Nat) : Prop :=
  ∃ ds : List Nat, ds ≠ [] ∧
    ((List.Forall₂ (IsDigit 10) ds cs ∧ n = Nat.ofDigits 10 ds.reverse) ∨
     (∃ hs, cs = '0' :: 'x' :: hs ∧ List.Forall₂ (IsDigit 16) ds hs ∧ n = Nat.ofDigits 16 ds.reverse))

/-- What ends a line: nothing, or a comment (R67). -/
def LineEnd (cs : List Char) : Prop := cs = [] ∨ ∃ comment, '\n' ∉ comment ∧ cs = ';' :: comment

/-- `text` is the line of a mnemonic and its operands, laid out as R67 lays them out. -/
def Written (mnemonic : List Char) (operands : List Nat) (text : List Char) : Prop :=
  ∃ (ns : List (List Char)) (ending : List Char), List.Forall₂ Numeral ns operands ∧ LineEnd ending ∧
    text = mnemonic ++ (if ns = [] then [] else ' ' :: [',', ' '].intercalate ns) ++ ending

/-- The mnemonic of an operation (R63, R67). -/
def mnemonicOf : Instr → List Char
  | .nop => "NOP".toList
  | .init => "INIT".toList
  | .txnBegin => "TXN_BEGIN".toList
  | .txnEnd => "TXN_END".toList
  | .setWindow _ _ _ _ => "SET_WINDOW".toList
  | .fill _ => "FILL".toList
  | .drawRect _ _ _ _ _ => "DRAW_RECT".toList

/-- The operands of an operation, in the order R67 writes them. -/
def operandsOf : Instr → List Nat
  | .nop => []
  | .init => []
  | .txnBegin => []
  | .txnEnd => []
  | .setWindow x y w h => [x.toNat, y.toNat, w.toNat, h.toNat]
  | .fill c => [c.toNat]
  | .drawRect x y w h c => [x.toNat, y.toNat, w.toNat, h.toNat, c.toNat]

/-! The result the priority list reports. -/

/-- What `CheckRect` raises for a rectangle, OK if it passes (R79, R98). -/
def rectResult (pol : OobPolicy) (x y w h : Byte) : Result :=
  if w = 0#8 ∨ h = 0#8 then .eZeroExtent
  else if x.toNat + w.toNat ≤ 240 ∧ y.toNat + h.toNat ≤ 240 then .ok
  else if pol = .clamp ∧ x.toNat ≤ 239 ∧ y.toNat ≤ 239 then .ok
  else .eBounds

/-- The first error of an operation's own checks, in the order its rule lists them (R98, 4). -/
def ownResult (i : Instr) (s : State) : Result :=
  match i with
  | .nop => .ok
  | .init =>
    if s.cfg.cap % 2 = 1 ∨ s.cfg.cap < 2 then .eConfig else if s.txnOpen = true then .eTxnOpen else .ok
  | .txnBegin => if s.phase ≠ .active then .eNotActive else if s.txnOpen = true then .eTxnOpen else .ok
  | .txnEnd => if s.phase ≠ .active then .eNotActive else if s.txnOpen = false then .eNoTxn else .ok
  | .setWindow x y w h =>
    if s.phase ≠ .active then .eNotActive else if s.txnOpen = false then .eNoTxn else rectResult s.cfg.oob x y w h
  | .fill _ =>
    if s.phase ≠ .active then .eNotActive
    else if s.txnOpen = false then .eNoTxn else if s.winValid = false then .eNoWindow else .ok
  | .drawRect x y w h _ =>
    if s.phase ≠ .active then .eNotActive else if s.txnOpen = true then .eTxnOpen else rectResult s.cfg.oob x y w h

/-- The result reported for a word: E_FATAL, then E_ILLEGAL, then E_RESERVED, then the operation's own checks (R98). -/
def reportedResult (op : OpWord) (s : State) : Result :=
  if s.fatal = true then .eFatal
  else match decode op with
    | .error .illegal => .eIllegal
    | .error .reserved => .eReserved
    | .ok i => ownResult i s

/-! Rectangles. -/

/-- `r` is the rectangle that the operands (x, y, w, h) program: themselves if they lie on the panel, else, under CLAMP and
with the origin on the panel, cut to the panel's edge (R79). -/
def Programs (pol : OobPolicy) (x y w h : Byte) (r : Rect) : Prop :=
  1 ≤ w.toNat ∧ 1 ≤ h.toNat ∧
    ((x.toNat + w.toNat ≤ 240 ∧ y.toNat + h.toNat ≤ 240 ∧ r = ⟨x.toNat, y.toNat, w.toNat, h.toNat⟩) ∨
     (¬(x.toNat + w.toNat ≤ 240 ∧ y.toNat + h.toNat ≤ 240) ∧ pol = .clamp ∧ x.toNat ≤ 239 ∧ y.toNat ≤ 239 ∧
       r = ⟨x.toNat, y.toNat, min w.toNat (240 - x.toNat), min h.toNat (240 - y.toNat)⟩))

/-- CAP is a capacity that INIT accepts: even and at least 2 (R47, R75). -/
def capSound (cap : Nat) : Prop := cap % 2 = 0 ∧ 2 ≤ cap

/-- The number of chunks of a fill of `total` bytes: ceil(total / cap) (R87). -/
def chunkCount (cap total : Nat) : Nat := (total + cap - 1) / cap

/-- A sample's two bytes, `n` times (R86). -/
def samplePairs (c : Sample) (n : Nat) : List Byte := (List.replicate n [sampleHigh c, sampleLow c]).flatten

/-- LCDSEQ is about to run the word `op`: the port holds it, under a well-formed configuration (R9, R18). -/
def State.Holds (s : State) (op : OpWord) : Prop := s.cfg.wf = true ∧ s.busy = true ∧ s.portWord = op

/-! The invariant. -/

/-- What holds between operations. -/
structure State.Inv (s : State) : Prop where
  /-- The configuration is well formed (R9). -/
  config : s.cfg.wf = true
  /-- The host only ever sees UNPOWERED or ACTIVE (R23). -/
  phase : s.phase = .unpowered ∨ s.phase = .active
  /-- No fill can run under a misconfigured CAP (R47). -/
  activeCap : s.phase = .active → capSound s.cfg.cap
  /-- A bracket is open only after bring-up (R114). -/
  txnActive : s.txnOpen = true → s.phase = .active
  /-- TXN_OPEN mirrors the trace (R27). -/
  txnTrace : s.txnOpen = bracketOpen s.trace
  /-- A window is valid only inside a bracket (R77, R78). -/
  winTxn : s.winValid = true → s.txnOpen = true
  /-- A valid window has at least one pixel (R79). -/
  winExtent : s.winValid = true → 1 ≤ s.winCount.toNat
  /-- The window registers hold a rectangle on the panel (R29, R79). -/
  winOnPanel : s.winX.toNat + s.winW.toNat ≤ 240 ∧ s.winY.toNat + s.winH.toNat ≤ 240
  /-- WIN_COUNT is WIN_W * WIN_H (R29). -/
  winCount : s.winCount.toNat = s.winW.toNat * s.winH.toNat
  /-- The staging buffer keeps its canonical form (R31). -/
  buffer : s.buf.wf s.cfg.cap = true
  /-- ERR is set once a result was not OK (R25). -/
  errSet : s.lastResult ≠ .ok → s.err = true
  /-- A fatal block has reported an error (R24, R25). -/
  fatalErr : s.fatal = true → s.err = true
  /-- Nothing is emitted before the first INIT (R113). -/
  quiet : s.phase = .unpowered → s.trace = []
  /-- No event moves zero bytes (R48). -/
  dataBytes : s.trace.all Event.nonEmpty = true
  /-- After INIT all four lines are outputs (R37). -/
  linesOut : s.phase = .active →
    s.devices.rst.output = true ∧ s.devices.cs.output = true ∧ s.devices.dc.output = true ∧ s.devices.det.output = true
  /-- After INIT RST is high and DET is at DET_LEVEL (R37). -/
  lineLevels : s.phase = .active → s.devices.rst.level = true ∧ s.devices.det.level = s.cfg.detLevel
  /-- After INIT chip-select is low exactly while a bracket is open (R27, R75 step 1). -/
  chipSelect : s.phase = .active → s.devices.cs.level = !s.txnOpen
  /-- The panel has consumed no more than was emitted. -/
  panelSeen : s.panel.seen ≤ s.trace.length
  /-- The panel's lists keep their canonical form. -/
  panelKeys : keysRise s.panel.fm = true ∧ keysRise s.panel.config = true
  /-- LAST_RESULT is the last result returned, OK before any (R26, R39). -/
  lastReturned : s.lastResult = s.host.results.getLast?.getD .ok

end Sys2Proof.Machine
end

