-- ==== Sys2Proof/Certificates/Slice0/Obligations.lean ====
section
/-! DEFINITION. The statements for the provers, in the order of the spec's files. -/

open Sys2Proof Sys2Proof.Machine

/-! Configuration, reset and registers. -/

/-- R9's well-formedness conditions, and what is refused.  CAP odd or below 2 is not refused by them.  That it is every step
that refuses is the model's choice: R9 does not say when (log entry 23). -/
def Obligations.IllFormedConfigurationRefused : Prop :=
  (∀ c : Config, c.wf = true ↔
    (c.cap < 2 ^ 24 ∧ 5 ≤ c.tSlpout ∧
      (c.initParams.madctl.length = 1 ∧ c.initParams.colmod.length = 1 ∧ c.initParams.pwctrl1.length = 2 ∧
        c.initParams.pvgamctrl.length = 14 ∧ c.initParams.nvgamctrl.length = 14 ∧
        c.initParams.invon = [] ∧ c.initParams.slpout = [] ∧ c.initParams.dispon = []) ∧
      c.glyph.length = c.glyphCount ∧ ∀ g ∈ c.glyph, g.length = 5)) ∧
  ∀ s : State, step s = .refused .illFormedConfiguration ↔ s.cfg.wf = false

/-- R39, R112, R113: block reset, under every configuration, and what the four host registers then read (R32 to R35).  (What an unwritten buffer byte reads as, and the lines, are
free values: log entries 4 and 5.) -/
def Obligations.ResetLeavesEveryRegisterAtItsValue : Prop :=
  ∀ c : Config, ∃ s : State, s = State.resetWith c ∧
    s.phase = .unpowered ∧ s.fatal = false ∧ s.err = false ∧ s.lastResult = .ok ∧ s.lastResult.code = 0x00#8 ∧
    s.txnOpen = false ∧ s.winValid = false ∧ s.winX = 0#8 ∧ s.winY = 0#8 ∧ s.winW = 0#8 ∧ s.winH = 0#8 ∧
    s.winCount = 0#16 ∧ s.busy = false ∧ (∀ i, s.buf.readByte i = Config.freeBufByte i) ∧ s.trace = [] ∧
    readReg s 0#2 = 0x00000000#32 ∧ readReg s 1#2 = 0x00000000#32 ∧ readReg s 2#2 = 0x00000000#32 ∧
    (c.wf = true → ((readReg s 3#2).extractLsb' 0 24).toNat = c.cap) ∧
    (readReg s 3#2).extractLsb' 24 2 = (match c.oob with
      | .reject => 0#2
      | .fatal => 1#2
      | .clamp => 2#2) ∧
    (readReg s 3#2).extractLsb' 26 6 = 0#6

/-- R32: each field of STATUS at its bits, every other bit 0, and the reset value; and the code of each result that
LAST_RESULT shows (R97). -/
def Obligations.StatusFieldsAtTheirBits : Prop :=
  (∀ s : State,
    (readReg s 0#2).extractLsb' 0 3 = s.phase.code ∧
    (readReg s 0#2).getLsbD 3 = s.fatal ∧
    (readReg s 0#2).getLsbD 4 = s.err ∧
    (readReg s 0#2).getLsbD 5 = s.txnOpen ∧
    (readReg s 0#2).getLsbD 6 = s.winValid ∧
    (readReg s 0#2).getLsbD 7 = false ∧
    (readReg s 0#2).extractLsb' 8 8 = s.lastResult.code ∧
    (readReg s 0#2).extractLsb' 16 16 = 0#16) ∧
  (∀ c : Config, readReg (State.resetWith c) 0#2 = 0x00000000#32) ∧
  Result.ok.code = 0x00#8 ∧ Result.eFatal.code = 0x01#8 ∧ Result.eIllegal.code = 0x02#8 ∧
  Result.eReserved.code = 0x03#8 ∧ Result.eConfig.code = 0x04#8 ∧ Result.eNotActive.code = 0x05#8 ∧
  Result.eNoTxn.code = 0x06#8 ∧ Result.eTxnOpen.code = 0x07#8 ∧ Result.eZeroExtent.code = 0x08#8 ∧
  Result.eBounds.code = 0x09#8 ∧ Result.eNoWindow.code = 0x0A#8

/-- R33, R34, R35: the fields of WINDOW, COUNT and CONFIG, their zero bits and reset values, and that nothing a step does
changes CONFIG. -/
def Obligations.WindowCountConfigFieldsAtTheirBits : Prop :=
  (∀ s : State,
    (readReg s 1#2).extractLsb' 0 8 = s.winX ∧ (readReg s 1#2).extractLsb' 8 8 = s.winY ∧
    (readReg s 1#2).extractLsb' 16 8 = s.winW ∧ (readReg s 1#2).extractLsb' 24 8 = s.winH ∧
    (readReg s 2#2).extractLsb' 0 16 = s.winCount ∧ (readReg s 2#2).extractLsb' 16 16 = 0#16 ∧
    (s.cfg.wf = true → ((readReg s 3#2).extractLsb' 0 24).toNat = s.cfg.cap) ∧
    ((readReg s 3#2).extractLsb' 24 2 = 0#2 ↔ s.cfg.oob = .reject) ∧
    ((readReg s 3#2).extractLsb' 24 2 = 1#2 ↔ s.cfg.oob = .fatal) ∧
    ((readReg s 3#2).extractLsb' 24 2 = 2#2 ↔ s.cfg.oob = .clamp) ∧
    (readReg s 3#2).extractLsb' 26 6 = 0#6) ∧
  (∀ c : Config, readReg (State.resetWith c) 1#2 = 0#32 ∧ readReg (State.resetWith c) 2#2 = 0#32) ∧
  ∀ s t : State, step s = .next t → readReg t 3#2 = readReg s 3#2

/-- R38: the configuration is never changed. -/
def Obligations.ConfigurationNeverChanges : Prop :=
  ∀ s t : State, step s = .next t → t.cfg = s.cfg

/-- R19: a register read, the host's move, changes nothing but what the host has seen and has still to do, and a second read
of the same register gives the same value.  A read waits while an operation is in progress: the step is LCDSEQ's.  Between
operations no register of LCDSEQ changes, but for BUSY and the port's word when the host issues. -/
def Obligations.RegisterReadHasNoSideEffect : Prop :=
  (∀ (s : State) (idx : BitVec 2) (rest : List HostAction),
    s.cfg.wf = true → s.busy = false → s.trace.length ≤ s.panel.seen → s.host.running = none →
    s.host.todo = .read idx :: .read idx :: rest →
    step s = .next { s with host := { s.host with
        todo := .read idx :: rest, reads := s.host.reads ++ [(idx, readReg s idx)] } } ∧
    ∀ t, step s = .next t → step t = .next { s with host := { s.host with
        todo := rest, reads := s.host.reads ++ [(idx, readReg s idx), (idx, readReg s idx)] } }) ∧
  (∀ s t : State, s.busy = true → step s = .next t → t.host.reads = s.host.reads ∧ t.host.todo = s.host.todo) ∧
  ∀ s t : State, s.busy = false → step s = .next t →
    t = { s with host := t.host, panel := t.panel, busy := t.busy, portWord := t.portWord } ∧
    (t.busy = false → t.portWord = s.portWord)

/-! Encoding. -/

/-- Decoding is right on words written out from R61 and R63, and from the vectors of file 95. -/
def Obligations.WordsDecodeAsTheSpecWritesThem : Prop :=
  decode 0x0000000000000000#64 = .ok .nop ∧
  decode 0x0100000000000000#64 = .ok .init ∧
  decode 0x0200000000000000#64 = .ok .txnBegin ∧
  decode 0x0300000000000000#64 = .ok .txnEnd ∧
  decode 0x0432320B0B000000#64 = .ok (.setWindow 50#8 50#8 11#8 11#8) ∧
  decode 0x050000000000F800#64 = .ok (.fill 0xF800#16) ∧
  decode 0x060A1402020007E0#64 = .ok (.drawRect 10#8 20#8 2#8 2#8 0x07E0#16) ∧
  decode 0x0580000000000000#64 = .error .reserved ∧
  decode 0xFFFFFFFFFFFFFFFF#64 = .error .illegal

/-- Every operation, with every operand at every value, decodes from its own word. -/
def Obligations.DecodeOfEncodeIsTheOperation : Prop :=
  ∀ i : Instr, decode (encode i) = .ok i

/-- Each word that decodes is the word of what it decodes to: no bit of a valid word is dropped. -/
def Obligations.EncodeOfDecodeIsTheWord : Prop :=
  ∀ (op : OpWord) (i : Instr), decode op = .ok i → encode i = op

/-- R66: the decoder is total, and its three ways are told apart by OPC and the must-be-zero bits alone. -/
def Obligations.DecodeFollowsTheOpcodeMap : Prop :=
  ∀ op : OpWord,
    (6 < (op.extractLsb' 56 8).toNat → decode op = .error .illegal) ∧
    ((op.extractLsb' 56 8).toNat ≤ 6 → op &&& resv (op.extractLsb' 56 8) ≠ 0#64 → decode op = .error .reserved) ∧
    (op &&& resv (op.extractLsb' 56 8) = 0#64 →
      (op.extractLsb' 56 8 = 0#8 → decode op = .ok .nop) ∧
      (op.extractLsb' 56 8 = 1#8 → decode op = .ok .init) ∧
      (op.extractLsb' 56 8 = 2#8 → decode op = .ok .txnBegin) ∧
      (op.extractLsb' 56 8 = 3#8 → decode op = .ok .txnEnd) ∧
      (op.extractLsb' 56 8 = 4#8 → decode op = .ok (.setWindow (op.extractLsb' 48 8) (op.extractLsb' 40 8)
        (op.extractLsb' 32 8) (op.extractLsb' 24 8))) ∧
      (op.extractLsb' 56 8 = 5#8 → decode op = .ok (.fill (op.extractLsb' 0 16))) ∧
      (op.extractLsb' 56 8 = 6#8 → decode op = .ok (.drawRect (op.extractLsb' 48 8) (op.extractLsb' 40 8)
        (op.extractLsb' 32 8) (op.extractLsb' 24 8) (op.extractLsb' 0 16))))

/-- R63's table: no word matches two of its rows, and a word decodes to an operation exactly when it matches a row, that
operation's own. -/
def Obligations.OpcodeTableIsUnambiguous : Prop :=
  (∀ (op : OpWord) (r r' : OpcodeRow), r ∈ opcodeTable → r' ∈ opcodeTable →
    r.matches op = true → r'.matches op = true → r = r') ∧
  (∀ op : OpWord, (∃ i, decode op = .ok i) ↔ ∃ r ∈ opcodeTable, r.matches op = true) ∧
  ∀ (op : OpWord) (i : Instr), decode op = .ok i → op &&& i.tableMask = i.tableMatch ∧
    (⟨i.tableMatch, i.tableMask⟩ : OpcodeRow) ∈ opcodeTable

/-- R64, R65: a word with OPC from 0x07 on is E_ILLEGAL, and a word of a defined OPC with a must-be-zero bit set is
E_RESERVED; either way nothing changes but the status update and the result returned. -/
def Obligations.IllegalAndReservedWordsChangeOnlyStatus : Prop :=
  ∀ (s : State) (op : OpWord), s.Holds op → s.fatal = false →
    (0x07 ≤ (op.extractLsb' 56 8).toNat →
      step s = .next { s with lastResult := .eIllegal, err := true, busy := false, host := s.host.returned .eIllegal }) ∧
    ((op.extractLsb' 56 8).toNat ≤ 0x03 ∧ op &&& 0x00FFFFFFFFFFFFFF#64 ≠ 0#64 ∨
      (op.extractLsb' 56 8).toNat = 0x04 ∧ op &&& 0x0000000000FFFFFF#64 ≠ 0#64 ∨
      (op.extractLsb' 56 8).toNat = 0x05 ∧ op &&& 0x00FFFFFFFFFF0000#64 ≠ 0#64 ∨
      (op.extractLsb' 56 8).toNat = 0x06 ∧ op &&& 0x0000000000FF0000#64 ≠ 0#64 →
      step s = .next { s with lastResult := .eReserved, err := true, busy := false, host := s.host.returned .eReserved })

/-- R67: a line that writes an operation, in decimal or hexadecimal, with or without a comment, assembles to that operation's
word, alone and before further lines; a line with an operand out of range is refused, and no value is wrapped.  (What R67
leaves open of white space and letter case is log entry 17.) -/
def Obligations.AssemblerRefusesOutOfRange : Prop :=
  (∀ x y w h : Nat,
    ((x ≤ 255 ∧ y ≤ 255 ∧ w ≤ 255 ∧ h ≤ 255) →
      ∃ a b c d : Byte, buildInstr "SET_WINDOW".toList [x, y, w, h] = .ok (.setWindow a b c d) ∧
        a.toNat = x ∧ b.toNat = y ∧ c.toNat = w ∧ d.toNat = h) ∧
    (¬(x ≤ 255 ∧ y ≤ 255 ∧ w ≤ 255 ∧ h ≤ 255) →
      buildInstr "SET_WINDOW".toList [x, y, w, h] = .error .outOfRange)) ∧
  (∀ c : Nat,
    (c ≤ 0xFFFF → ∃ v : Sample, buildInstr "FILL".toList [c] = .ok (.fill v) ∧ v.toNat = c) ∧
    (0xFFFF < c → buildInstr "FILL".toList [c] = .error .outOfRange)) ∧
  (∀ x y w h c : Nat,
    ((x ≤ 255 ∧ y ≤ 255 ∧ w ≤ 255 ∧ h ≤ 255 ∧ c ≤ 0xFFFF) →
      ∃ (a b d e : Byte) (v : Sample), buildInstr "DRAW_RECT".toList [x, y, w, h, c] = .ok (.drawRect a b d e v) ∧
        a.toNat = x ∧ b.toNat = y ∧ d.toNat = w ∧ e.toNat = h ∧ v.toNat = c) ∧
    (¬(x ≤ 255 ∧ y ≤ 255 ∧ w ≤ 255 ∧ h ≤ 255 ∧ c ≤ 0xFFFF) →
      buildInstr "DRAW_RECT".toList [x, y, w, h, c] = .error .outOfRange)) ∧
  (∀ (i : Instr) (text : List Char), Written (mnemonicOf i) (operandsOf i) text →
    assemble text = .ok [encode i] ∧
    ∀ rest words, assemble rest = .ok words → assemble (text ++ '\n' :: rest) = .ok (encode i :: words)) ∧
  ∀ (x y w h c : Nat) (text : List Char),
    (Written "SET_WINDOW".toList [x, y, w, h] text → ¬(x ≤ 255 ∧ y ≤ 255 ∧ w ≤ 255 ∧ h ≤ 255) →
      assemble text = .error .outOfRange) ∧
    (Written "FILL".toList [c] text → 0xFFFF < c → assemble text = .error .outOfRange) ∧
    (Written "DRAW_RECT".toList [x, y, w, h, c] text → ¬(x ≤ 255 ∧ y ≤ 255 ∧ w ≤ 255 ∧ h ≤ 255 ∧ c ≤ 0xFFFF) →
      assemble text = .error .outOfRange)

/-! The step and the issue cycle. -/

/-- A step runs the decoded operation: with an operation in progress, the step is exec of what the held word decodes to; and
the state `withFetchWord` gives runs the operation of that word next. -/
def Obligations.StepRunsTheDecodedOperation : Prop :=
  (∀ (s : State) (op : OpWord) (i : Instr), s.Holds op → decode op = .ok i → step s = exec i s) ∧
  ∀ (s : State) (w : Nat) (i : Instr), s.cfg.wf = true → decodeTableWord 64 w = some i →
    step (s.withFetchWord 64 w) = exec i (s.withFetchWord 64 w)

/-- R26, R72: at the end of every operation, rejected or not, LAST_RESULT holds the result that was returned, and BUSY is 0. -/
def Obligations.LastResultIsTheResultReturned : Prop :=
  (∀ s t : State, s.busy = true → step s = .next t →
    t.host.results = s.host.results ++ [t.lastResult] ∧ t.busy = false) ∧
  ∀ s t : State, s.busy = false → step s = .next t →
    t.lastResult = s.lastResult ∧ t.host.results = s.host.results

/-- R25: ERR is set by every result other than OK, and nothing but block reset clears it. -/
def Obligations.ErrIsStickyAndSetByEveryRejection : Prop :=
  (∀ s t : State, s.busy = true → step s = .next t → t.err = (s.err || decide (t.lastResult ≠ .ok))) ∧
  (∀ s t : State, s.busy = false → step s = .next t → t.err = s.err) ∧
  ∀ c : Config, (State.resetWith c).err = false

/-- R24: FATAL is set by exactly two events, is cleared by nothing but block reset, and while it is 1 every operation returns
E_FATAL with no other effect. -/
def Obligations.FatalHasExactlyTwoCauses : Prop :=
  (∀ (s t : State) (op : OpWord), s.Holds op → step s = .next t →
    (t.fatal = true ↔ s.fatal = true ∨ (decode op = .ok .init ∧ t.lastResult = .eConfig) ∨
      (s.cfg.oob = .fatal ∧ t.lastResult = .eBounds))) ∧
  (∀ s t : State, s.busy = false → step s = .next t → t.fatal = s.fatal) ∧
  (∀ (s : State) (op : OpWord), s.Holds op → s.fatal = true →
    step s = .next { s with lastResult := .eFatal, err := true, busy := false, host := s.host.returned .eFatal }) ∧
  ∀ c : Config, (State.resetWith c).fatal = false

/-- R23: the encodings of PHASE; only INIT changes it, to ACTIVE; so it is 0 or 4 between operations. -/
def Obligations.OnlyInitChangesThePhase : Prop :=
  (Phase.unpowered.code = 0#3 ∧ Phase.reset.code = 1#3 ∧ Phase.configuring.code = 2#3 ∧ Phase.sleeping.code = 3#3 ∧
    Phase.active.code = 4#3) ∧
  (∀ (s t : State), step s = .next t →
    t.phase = s.phase ∨ (s.busy = true ∧ decode s.portWord = .ok .init ∧ t.lastResult = .ok ∧ t.phase = .active)) ∧
  ∀ (s t : State), (s.phase = .unpowered ∨ s.phase = .active) → step s = .next t →
    t.phase.code = 0#3 ∨ t.phase.code = 4#3

/-- R98: which result is reported when several errors apply. -/
def Obligations.FirstErrorInPriorityIsReported : Prop :=
  ∀ (s t : State) (op : OpWord), s.Holds op → step s = .next t → t.lastResult = reportedResult op s

/-- R99: a rejected operation emits no event and changes nothing but LAST_RESULT, ERR and, for E_CONFIG and for E_BOUNDS
under OOB_POLICY = FATAL, FATAL (with BUSY back at 0 and the result returned to the host, R72). -/
def Obligations.RejectionIsPrecise : Prop :=
  ∀ (s t : State) (op : OpWord), s.Holds op → step s = .next t → t.lastResult ≠ .ok →
    t = { s with
      lastResult := t.lastResult, err := true, busy := false, host := s.host.returned t.lastResult,
      fatal := s.fatal || decide (t.lastResult = .eConfig) ||
        (decide (t.lastResult = .eBounds) && decide (s.cfg.oob = .fatal)) }

/-- R101: while FATAL is 1 every word, of NOP and INIT too, returns E_FATAL and changes only the status; register reads
still work; no step leaves the fatal state; and the operation that enters it leaves E_CONFIG or E_BOUNDS in LAST_RESULT. -/
def Obligations.FatalStateAnswersEveryOperation : Prop :=
  (∀ (s : State) (op : OpWord), s.Holds op → s.fatal = true →
    step s = .next { s with lastResult := .eFatal, err := true, busy := false, host := s.host.returned .eFatal }) ∧
  (∀ (s : State) (idx : BitVec 2) (rest : List HostAction), s.cfg.wf = true → s.fatal = true → s.busy = false →
    s.trace.length ≤ s.panel.seen → s.host.running = none → s.host.todo = .read idx :: rest →
    ∃ t, step s = .next t ∧ t.host.reads = s.host.reads ++ [(idx, readReg s idx)]) ∧
  (∀ s t : State, s.fatal = true → step s = .next t → t.fatal = true) ∧
  ∀ s t : State, s.fatal = false → step s = .next t → t.fatal = true → t.lastResult = .eConfig ∨ t.lastResult = .eBounds

/-- R18, R30: while BUSY is 1 the step is LCDSEQ's, which returns one result and takes no second word; the host's issue sets
BUSY and gives the port the word.  That the issue is a step of its own, and that the port holds the word in `portWord`, is the
model's choice (log entry 8). -/
def Obligations.OneOperationOutstanding : Prop :=
  (∀ s t : State, s.busy = true → step s = .next t →
    t.busy = false ∧ t.portWord = s.portWord ∧ t.host.todo = s.host.todo ∧
    t.host.results.length = s.host.results.length + 1) ∧
  ∀ (s : State) (op : OpWord) (rest : List HostAction), s.cfg.wf = true → s.busy = false →
    s.trace.length ≤ s.panel.seen → s.host.running = none → s.host.todo = .issue op :: rest →
    step s = .next { s with busy := true, portWord := op, host := { s.host with todo := rest } }

/-- R49, R52: an operation's events are one contiguous segment at the end of the trace; no other move emits, and nothing
emitted is taken back.  The panel consumes the trace one event a move, in order, and changes nothing of LCDSEQ and the host
(R7 (c)); that it catches up between the operations, before the host acts, is the model's choice (log entry 7). -/
def Obligations.EventsAreOneSegmentPerOperation : Prop :=
  (∀ s t : State, step s = .next t → s.trace <+: t.trace) ∧
  (∀ s t : State, s.busy = false → step s = .next t → t.trace = s.trace) ∧
  ∀ (s : State) (e : Event), s.cfg.wf = true → s.busy = false → s.trace[s.panel.seen]? = some e →
    step s = .next { s with panel := { s.panel.observe s.cfg.panelCmd e with seen := s.panel.seen + 1 } }

/-! Sequencer control. -/

/-- R74: NOP completes in every phase, with or without a bracket, and changes nothing but LAST_RESULT (BUSY and the result
returned, R72). -/
def Obligations.NopSucceedsAndChangesNothing : Prop :=
  ∀ s : State, s.fatal = false →
    exec .nop s = .next { s with lastResult := .ok, busy := false, host := s.host.returned .ok }

/-- R73: the command byte, then all its parameters in one event; no `Data` event for a command without parameters.  Each row of
R69 has its own code in PANEL_CMD, and each bring-up command its own entry in INIT_PARAMS. -/
def Obligations.SendCmdSendsCodeThenParameters : Prop :=
  (∀ (n : PanelCmd) (s : State),
    (s.cfg.initParams.bytes n = [] → (sendCmd n s).trace = s.trace ++ [.cmd (s.cfg.panelCmd.code n)]) ∧
    (s.cfg.initParams.bytes n ≠ [] →
      (sendCmd n s).trace = s.trace ++ [.cmd (s.cfg.panelCmd.code n), .data (s.cfg.initParams.bytes n)])) ∧
  (∀ c : PanelCodes,
    c.code .madctl = c.madctl ∧ c.code .colmod = c.colmod ∧ c.code .porctrl = c.porctrl ∧ c.code .gctrl = c.gctrl ∧
    c.code .vcoms = c.vcoms ∧ c.code .lcmctrl = c.lcmctrl ∧ c.code .vdvvrhen = c.vdvvrhen ∧ c.code .vrhs = c.vrhs ∧
    c.code .vdvs = c.vdvs ∧ c.code .frctrl2 = c.frctrl2 ∧ c.code .pwctrl1 = c.pwctrl1 ∧
    c.code .pvgamctrl = c.pvgamctrl ∧ c.code .nvgamctrl = c.nvgamctrl ∧ c.code .invon = c.invon ∧
    c.code .slpout = c.slpout ∧ c.code .dispon = c.dispon ∧ c.code .caset = c.caset ∧ c.code .raset = c.raset ∧
    c.code .ramwr = c.ramwr) ∧
  ∀ q : InitParams,
    q.bytes .madctl = q.madctl ∧ q.bytes .colmod = q.colmod ∧ q.bytes .porctrl = q.porctrl ∧ q.bytes .gctrl = q.gctrl ∧
    q.bytes .vcoms = q.vcoms ∧ q.bytes .lcmctrl = q.lcmctrl ∧ q.bytes .vdvvrhen = q.vdvvrhen ∧ q.bytes .vrhs = q.vrhs ∧
    q.bytes .vdvs = q.vdvs ∧ q.bytes .frctrl2 = q.frctrl2 ∧ q.bytes .pwctrl1 = q.pwctrl1 ∧
    q.bytes .pvgamctrl = q.pvgamctrl ∧ q.bytes .nvgamctrl = q.nvgamctrl ∧ q.bytes .invon = q.invon ∧
    q.bytes .slpout = q.slpout ∧ q.bytes .dispon = q.dispon ∧ q.bytes .caset = [] ∧ q.bytes .raset = [] ∧
    q.bytes .ramwr = []

/-- R75: INIT completes from every phase with no bracket open, under every CAP that is even and at least 2: the registers it
ends with, its whole trace, and what it leaves unchanged.  (That black is 0x0000 is general knowledge in the spec, G8; the
devices' field is the subject of `InitLeavesTheLinesSet`.) -/
def Obligations.InitRunsTheBringUpSequence : Prop :=
  ∀ s : State, s.fatal = false → s.txnOpen = false → capSound s.cfg.cap →
    ∃ t, exec .init s = .next t ∧
      t = { s with
        phase := .active, lastResult := .ok, txnOpen := false, winValid := false, winX := 0#8, winY := 0#8,
        winW := 240#8, winH := 240#8, winCount := 57600#16, busy := false,
        buf := s.buf.fillPattern (min s.cfg.cap 115200) 0#16, host := s.host.returned .ok,
        devices := t.devices, trace := t.trace } ∧
      t.trace = s.trace ++
        ([.pinMode .rst, .pinMode .cs, .pinMode .dc, .pinMode .det, .pin .cs true, .pin .dc true,
          .pin .det s.cfg.detLevel,
          .pin .rst true, .delay s.cfg.tRstHigh, .pin .rst false, .delay s.cfg.tRstLow, .pin .rst true,
          .delay s.cfg.tRstRecover, .txnBegin] ++
        [PanelCmd.madctl, .colmod, .porctrl, .gctrl, .vcoms, .lcmctrl, .vdvvrhen, .vrhs, .vdvs, .frctrl2, .pwctrl1,
          .pvgamctrl, .nvgamctrl, .invon].flatMap (sendCmdEvents s.cfg) ++
        sendCmdEvents s.cfg .slpout ++ [.delay s.cfg.tSlpout] ++
        sendCmdEvents s.cfg .dispon ++ [.delay s.cfg.tDispon] ++
        [.cmd s.cfg.panelCmd.caset, .data [0x00#8, 0x00#8, 0x00#8, 0xEF#8],
          .cmd s.cfg.panelCmd.raset, .data [0x00#8, 0x00#8, 0x00#8, 0xEF#8], .cmd s.cfg.panelCmd.ramwr] ++
        List.replicate (115200 / s.cfg.cap) (.data (List.replicate s.cfg.cap 0x00#8)) ++
        (if 115200 % s.cfg.cap = 0 then [] else [.data (List.replicate (115200 % s.cfg.cap) 0x00#8)]) ++ [.txnEnd])

/-- R37: after INIT all four lines are outputs, RST is high and DET is at DET_LEVEL, and chip-select and data-select are as
the transport last left them.  (The two levels the transport leaves are log entries 9 and 10, DEDUCED.) -/
def Obligations.InitLeavesTheLinesSet : Prop :=
  ∀ s t : State, exec .init s = .next t → t.lastResult = .ok →
    t.devices.rst = ⟨true, true⟩ ∧ t.devices.det = ⟨true, s.cfg.detLevel⟩ ∧ t.devices.cs = ⟨true, true⟩ ∧
    t.devices.dc = ⟨true, !s.cfg.wire.dcCommand⟩

/-- R123, R116: INIT's delays, in order, each at its parameter; the time they take is at least their sum, and every other
operation spends no time in delays.  That delays are the only time counted is the model's choice (log entry 11). -/
def Obligations.InitDelaysInOrder : Prop :=
  (∀ s t : State, s.cfg.wf = true → exec .init s = .next t → t.lastResult = .ok →
    traceDelays (t.trace.drop s.trace.length) =
      [s.cfg.tRstHigh, s.cfg.tRstLow, s.cfg.tRstRecover, s.cfg.tSlpout, s.cfg.tDispon] ∧
    s.devices.elapsed + (s.cfg.tRstHigh + s.cfg.tRstLow + s.cfg.tRstRecover + s.cfg.tSlpout + s.cfg.tDispon)
      ≤ t.devices.elapsed) ∧
  ∀ (s t : State) (i : Instr), i ≠ .init → exec i s = .next t →
    t.devices.elapsed = s.devices.elapsed ∧ traceDelays (t.trace.drop s.trace.length) = []

/-- R115: after an INIT that returned OK, an INIT with no bracket open emits the same events and ends in the same registers;
the buffer's bytes that a full-screen fill writes are 0x00. -/
def Obligations.ReinitRepeatsTheFirstInit : Prop :=
  ∀ s t u : State, exec .init s = .next t → t.lastResult = .ok → exec .init t = .next u →
    u.lastResult = .ok ∧ u.err = t.err ∧
    u.trace.drop t.trace.length = t.trace.drop s.trace.length ∧
    u.phase = .active ∧ u.txnOpen = false ∧ u.winValid = false ∧
    readReg u 1#2 = 0xF0F00000#32 ∧ readReg u 2#2 = 57600#32 ∧
    (∀ i, i < min s.cfg.cap 115200 → u.buf.readByte i = 0x00#8) ∧
    u = { t with devices := u.devices, trace := u.trace, host := u.host }

/-- R77: TXN_BEGIN completes once ACTIVE with no bracket open: it emits TxnBegin, and changes nothing else but TXN_OPEN and
LAST_RESULT.  (That chip-select goes low is log entry 9, DEDUCED.) -/
def Obligations.TxnBeginOpensTheBracket : Prop :=
  ∀ s : State, s.fatal = false → s.phase = .active → s.txnOpen = false →
    exec .txnBegin s = .next { s with
      trace := s.trace ++ [.txnBegin], txnOpen := true, lastResult := .ok, busy := false,
      devices := { s.devices with cs := { s.devices.cs with level := false } }, host := s.host.returned .ok }

/-- R78: TXN_END completes inside a bracket: it emits TxnEnd, clears TXN_OPEN and WIN_VALID, and keeps everything else; the
window registers keep their values.  (That chip-select goes high is log entry 9, DEDUCED.) -/
def Obligations.TxnEndClosesTheBracket : Prop :=
  ∀ s : State, s.fatal = false → s.phase = .active → s.txnOpen = true →
    exec .txnEnd s = .next { s with
      trace := s.trace ++ [.txnEnd], txnOpen := false, winValid := false, lastResult := .ok, busy := false,
      devices := { s.devices with cs := { s.devices.cs with level := true } }, host := s.host.returned .ok }

/-- R114: before a successful INIT every bracket and drawing operation returns E_NOT_ACTIVE, and emits nothing. -/
def Obligations.NothingDrawsBeforeInit : Prop :=
  ∀ (s : State) (i : Instr), s.fatal = false → s.phase ≠ .active → i ≠ .nop → i ≠ .init →
    exec i s = .next { s with
      lastResult := .eNotActive, err := true, busy := false, host := s.host.returned .eNotActive }

/-- R98, R99 for INIT: what a rejected INIT does, under E_CONFIG and E_TXN_OPEN. -/
def Obligations.InitFailsFastOnBadCapacity : Prop :=
  (∀ s : State, s.fatal = false → ¬capSound s.cfg.cap →
    exec .init s = .next { s with
      fatal := true, lastResult := .eConfig, err := true, busy := false, host := s.host.returned .eConfig }) ∧
  ∀ s : State, s.fatal = false → capSound s.cfg.cap → s.txnOpen = true →
    exec .init s = .next { s with
      lastResult := .eTxnOpen, err := true, busy := false, host := s.host.returned .eTxnOpen }

/-! Window addressing. -/

/-- R79: `CheckRect` passes exactly the rectangles the spec passes, with the rectangle it returns, raises E_ZERO_EXTENT
before E_BOUNDS, sets FATAL with E_BOUNDS under that policy alone, and whatever it passes lies on the panel; the default
policy is REJECT. -/
def Obligations.CheckRectFollowsThePolicy : Prop :=
  Config.default.oob = .reject ∧
  (∀ (pol : OobPolicy) (x y w h : Nat),
    ((w = 0 ∨ h = 0) → checkRect pol x y w h = .zeroExtent) ∧
    (1 ≤ w → 1 ≤ h → x + w ≤ 240 → y + h ≤ 240 → checkRect pol x y w h = .pass ⟨x, y, w, h⟩) ∧
    (1 ≤ w → 1 ≤ h → (240 < x + w ∨ 240 < y + h) →
      (pol = .clamp → x ≤ 239 → y ≤ 239 →
        checkRect pol x y w h = .pass ⟨x, y, min w (240 - x), min h (240 - y)⟩) ∧
      (pol ≠ .clamp ∨ 239 < x ∨ 239 < y → checkRect pol x y w h = .bounds)) ∧
    ∀ r, checkRect pol x y w h = .pass r →
      r.x + r.w - 1 ≤ 239 ∧ r.y + r.h - 1 ≤ 239 ∧ 1 ≤ r.w ∧ 1 ≤ r.h) ∧
  ∀ (x y w h : Byte) (s : State) (k : Rect → Res (Result × State)),
    (checkRect s.cfg.oob x.toNat y.toNat w.toNat h.toNat = .bounds →
      withRect x y w h s k = .next (.eBounds, { s with fatal := s.fatal || decide (s.cfg.oob = .fatal) })) ∧
    (checkRect s.cfg.oob x.toNat y.toNat w.toNat h.toNat = .zeroExtent →
      withRect x y w h s k = .next (.eZeroExtent, s))

/-- R44, R70, R80: WindowBody on a rectangle of the panel: the column command and its four bytes, then the row command and
its four bytes; each pair of bytes is the big-endian address, inclusive; and the registers it records. -/
def Obligations.WindowBodySendsAndRecords : Prop :=
  ∀ (r : Rect) (s : State), r.onPanel →
    ∃ x xe y ye : Byte, x.toNat = r.x ∧ xe.toNat = r.x + r.w - 1 ∧ y.toNat = r.y ∧ ye.toNat = r.y + r.h - 1 ∧
      (windowBody r s).trace = s.trace ++
        [.cmd s.cfg.panelCmd.caset, .data [0x00#8, x, 0x00#8, xe],
         .cmd s.cfg.panelCmd.raset, .data [0x00#8, y, 0x00#8, ye]] ∧
      (0x00#8 ++ xe : BitVec 16).toNat = r.x + r.w - 1 ∧ (0x00#8 ++ ye : BitVec 16).toNat = r.y + r.h - 1 ∧
      (windowBody r s).winX.toNat = r.x ∧ (windowBody r s).winY.toNat = r.y ∧
      (windowBody r s).winW.toNat = r.w ∧ (windowBody r s).winH.toNat = r.h ∧
      (windowBody r s).winCount.toNat = r.w * r.h ∧ (windowBody r s).winValid = true ∧
      (windowBody r s).buf = s.buf

/-- R81: SET_WINDOW completes inside a bracket for every rectangle the policy lets through: its events, the registers it
writes, and nothing else changed.  (The level data-select is left at is log entry 10, DEDUCED.) -/
def Obligations.SetWindowProgramsTheWindow : Prop :=
  ∀ (s : State) (x y w h : Byte) (r : Rect), s.fatal = false → s.phase = .active → s.txnOpen = true →
    Programs s.cfg.oob x y w h r →
    exec (.setWindow x y w h) s = .next { s with
      trace := s.trace ++
        [.cmd s.cfg.panelCmd.caset, .data [0x00#8, BitVec.ofNat 8 r.x, 0x00#8, BitVec.ofNat 8 (r.x + r.w - 1)],
         .cmd s.cfg.panelCmd.raset, .data [0x00#8, BitVec.ofNat 8 r.y, 0x00#8, BitVec.ofNat 8 (r.y + r.h - 1)]],
      winX := BitVec.ofNat 8 r.x, winY := BitVec.ofNat 8 r.y, winW := BitVec.ofNat 8 r.w,
      winH := BitVec.ofNat 8 r.h, winCount := BitVec.ofNat 16 (r.w * r.h), winValid := true,
      lastResult := .ok, busy := false,
      devices := { s.devices with dc := { s.devices.dc with level := !s.cfg.wire.dcCommand } },
      host := s.host.returned .ok }

/-- R82: no address byte LCDSEQ sends can wrap: the window registers stay on the panel whatever operation runs. -/
def Obligations.NoWindowEverLeavesThePanel : Prop :=
  ∀ s t : State,
    (s.winX.toNat + s.winW.toNat ≤ 240 ∧ s.winY.toNat + s.winH.toNat ≤ 240 ∧
      s.winCount.toNat = s.winW.toNat * s.winH.toNat) →
    step s = .next t →
    t.winX.toNat + t.winW.toNat ≤ 240 ∧ t.winY.toNat + t.winH.toNat ≤ 240 ∧
      t.winCount.toNat = t.winW.toNat * t.winH.toNat

/-! Streaming. -/

/-- R43, R83: the fill engine's writes are the loop of R83, byte by byte with the single-byte write. -/
def Obligations.FillPatternIsTheByteLoop : Prop :=
  ∀ (m : Mem) (n : Nat) (c : Sample), keysRise m = true →
    m.fillPattern n c =
      (List.range n).foldl (fun b i =>
        b.writeByte i (if i % 2 = 0 then c.extractLsb' 8 8 else c.extractLsb' 0 8)) m

/-- The staging buffer is a memory: a byte written is read back, every other byte is kept, and both the single write and the
fill keep the canonical form (R31, R41).  The range read is the byte reads in order (R13). -/
def Obligations.BufferReadsWhatWasWritten : Prop :=
  (∀ (cap : Nat) (m : Mem) (i j : Nat) (v : Byte), m.wf cap = true → i < cap →
    (m.writeByte i v).wf cap = true ∧
    (m.writeByte i v).readByte j = if j = i then v else m.readByte j) ∧
  (∀ (cap : Nat) (m : Mem) (n : Nat) (c : Sample), m.wf cap = true → n ≤ cap → (m.fillPattern n c).wf cap = true) ∧
  ∀ (cap : Nat) (m : Mem) (i n : Nat), m.wf cap = true → m.readRange i n = (List.range' i n).map m.readByte

/-- R87: the chunks of a FillBody of T bytes: how many, how long each is, that each is even, at least 2 and at most CAP, and
that each is the start of the run of the color, so that no byte sent is older than the call. -/
def Obligations.FillChunksAreEvenPrefixes : Prop :=
  ∀ (c : Sample) (s t : State), capSound s.cfg.cap → fillBody c s = .next t →
    ∃ lens : List Nat,
      t.trace = s.trace ++ .cmd s.cfg.panelCmd.ramwr :: lens.map (fun k => .data (patternBytes c k)) ∧
      lens.length = (2 * s.winCount.toNat + s.cfg.cap - 1) / s.cfg.cap ∧
      lens.sum = 2 * s.winCount.toNat ∧
      (∀ k ∈ lens, k % 2 = 0 ∧ 2 ≤ k ∧ k ≤ s.cfg.cap ∧ k ≤ min s.cfg.cap (2 * s.winCount.toNat)) ∧
      (∀ j, j + 1 < lens.length → lens[j]? = some s.cfg.cap) ∧
      (0 < lens.length → lens.getLast? = some (2 * s.winCount.toNat - (lens.length - 1) * s.cfg.cap))

/-- R86: after a window of w × h pixels, the bytes sent after RAMWR are the color's two bytes, w * h times. -/
def Obligations.FillSendsTheColorForEveryPixel : Prop :=
  ∀ (c : Sample) (r : Rect) (s t : State), r.onPanel → capSound s.cfg.cap → fillBody c (windowBody r s) = .next t →
    ∃ events, t.trace = (windowBody r s).trace ++ .cmd s.cfg.panelCmd.ramwr :: events ∧
      events.flatMap Event.bytes = samplePairs c (r.w * r.h) ∧
      (events.flatMap Event.bytes).length = 2 * r.w * r.h

/-- R84: FILL completes inside a bracket with a window programmed: its events, the buffer, WIN_VALID, and nothing else
changed, the geometry registers among them.  CAP even and at least 2, and a window of at least one pixel, are what the
invariant `InvariantIsKept` gives.  (The level data-select is left at is log entry 10, DEDUCED.) -/
def Obligations.FillStreamsTheWindow : Prop :=
  ∀ (s : State) (c : Sample), s.fatal = false → s.phase = .active → s.txnOpen = true → s.winValid = true →
    capSound s.cfg.cap → 1 ≤ s.winCount.toNat →
    exec (.fill c) s = .next { s with
      trace := s.trace ++ .cmd s.cfg.panelCmd.ramwr ::
        (List.replicate ((2 * s.winCount.toNat - 1) / s.cfg.cap) (.data (patternBytes c s.cfg.cap)) ++
          [.data (patternBytes c
            (2 * s.winCount.toNat - (2 * s.winCount.toNat - 1) / s.cfg.cap * s.cfg.cap))]),
      buf := s.buf.fillPattern (min s.cfg.cap (2 * s.winCount.toNat)) c, winValid := false,
      lastResult := .ok, busy := false,
      devices := { s.devices with dc := { s.devices.dc with level := !s.cfg.wire.dcCommand } },
      host := s.host.returned .ok }

/-- R85: DRAW_RECT completes once ACTIVE with no bracket open, for every rectangle the policy lets through: its bracket, its
window and its fill, the registers it ends with, and nothing else changed.  (The levels the transport leaves are log entries
9 and 10, DEDUCED.) -/
def Obligations.DrawRectDrawsInItsOwnBracket : Prop :=
  ∀ (s : State) (x y w h : Byte) (c : Sample) (r : Rect), s.fatal = false → s.phase = .active → s.txnOpen = false →
    capSound s.cfg.cap → Programs s.cfg.oob x y w h r →
    exec (.drawRect x y w h c) s = .next { s with
      trace := s.trace ++
        (.txnBegin ::
          [.cmd s.cfg.panelCmd.caset, .data [0x00#8, BitVec.ofNat 8 r.x, 0x00#8, BitVec.ofNat 8 (r.x + r.w - 1)],
           .cmd s.cfg.panelCmd.raset, .data [0x00#8, BitVec.ofNat 8 r.y, 0x00#8, BitVec.ofNat 8 (r.y + r.h - 1)],
           .cmd s.cfg.panelCmd.ramwr] ++
          List.replicate ((2 * (r.w * r.h) - 1) / s.cfg.cap) (.data (patternBytes c s.cfg.cap)) ++
          [.data (patternBytes c (2 * (r.w * r.h) - (2 * (r.w * r.h) - 1) / s.cfg.cap * s.cfg.cap)), .txnEnd]),
      buf := s.buf.fillPattern (min s.cfg.cap (2 * (r.w * r.h))) c,
      winX := BitVec.ofNat 8 r.x, winY := BitVec.ofNat 8 r.y, winW := BitVec.ofNat 8 r.w,
      winH := BitVec.ofNat 8 r.h, winCount := BitVec.ofNat 16 (r.w * r.h), winValid := false, txnOpen := false,
      lastResult := .ok, busy := false,
      devices := { s.devices with
        cs := { s.devices.cs with level := true },
        dc := { s.devices.dc with level := !s.cfg.wire.dcCommand } },
      host := s.host.returned .ok }

/-- R117, R118: a window is consumed by its fill and does not survive TXN_END: the FILL that follows is refused, with
E_NO_WINDOW inside the bracket and E_NO_TXN outside. -/
def Obligations.WindowIsConsumedByItsFill : Prop :=
  (∀ (s t u : State) (c c' : Sample), exec (.fill c) s = .next t → t.lastResult = .ok →
    exec (.fill c') t = .next u → u.lastResult = .eNoWindow ∧ u.trace = t.trace) ∧
  ∀ (s t u : State) (c : Sample), exec .txnEnd s = .next t → t.lastResult = .ok →
    exec (.fill c) t = .next u → u.lastResult = .eNoTxn ∧ u.trace = t.trace ∧ t.winValid = false

/-- R124: how many events each operation emits when it returns OK, INIT for non-empty parameters of its 13 configuration
commands. -/
def Obligations.TraceLengthOfEachOperation : Prop :=
  ∀ (s t : State) (i : Instr), s.cfg.wf = true → capSound s.cfg.cap → exec i s = .next t → t.lastResult = .ok →
    match i with
    | .nop => t.trace.length = s.trace.length
    | .init => (∀ n ∈ configCommands, s.cfg.initParams.bytes n ≠ []) →
        t.trace.length = s.trace.length + (51 + chunkCount s.cfg.cap 115200)
    | .txnBegin => t.trace.length = s.trace.length + 1
    | .txnEnd => t.trace.length = s.trace.length + 1
    | .setWindow _ _ _ _ => t.trace.length = s.trace.length + 4
    | .fill _ => t.trace.length = s.trace.length + (1 + chunkCount s.cfg.cap (2 * s.winCount.toNat))
    | .drawRect _ _ _ _ _ => ∃ w h : Nat, w = t.winW.toNat ∧ h = t.winH.toNat ∧
        t.trace.length = s.trace.length + (7 + chunkCount s.cfg.cap (2 * w * h))

/-! Frames. -/

/-- Frame of the operations that store nothing (NOP, TXN_BEGIN, TXN_END, SET_WINDOW): every byte of the buffer, the
configuration, the phase, the port's word and the panel are unchanged; the geometry registers are unchanged but by
SET_WINDOW, and FATAL but by SET_WINDOW; RST and DET keep mode and level, and no time passes in delays. -/
def Obligations.FrameOfOperationsThatStoreNothing : Prop :=
  ∀ (s t : State) (i : Instr), exec i s = .next t →
    (i = .nop ∨ i = .txnBegin ∨ i = .txnEnd ∨ ∃ x y w h, i = .setWindow x y w h) →
    (∀ k, t.buf.readByte k = s.buf.readByte k) ∧ t.cfg = s.cfg ∧ t.phase = s.phase ∧ t.portWord = s.portWord ∧
    t.panel = s.panel ∧ t.devices.rst = s.devices.rst ∧ t.devices.det = s.devices.det ∧
    t.devices.elapsed = s.devices.elapsed ∧ t.devices.delays = s.devices.delays ∧
    (i = .nop ∨ i = .txnBegin ∨ i = .txnEnd →
      t.winX = s.winX ∧ t.winY = s.winY ∧ t.winW = s.winW ∧ t.winH = s.winH ∧ t.winCount = s.winCount ∧
      t.fatal = s.fatal ∧ t.devices.dc = s.devices.dc) ∧
    (i = .nop → t.txnOpen = s.txnOpen ∧ t.winValid = s.winValid ∧ t.trace = s.trace ∧ t.devices = s.devices) ∧
    (i = .txnBegin → t.winValid = s.winValid) ∧
    ((∃ x y w h, i = .setWindow x y w h) → t.txnOpen = s.txnOpen ∧ t.devices.cs = s.devices.cs)

/-- Frame of the operations that fill (INIT, FILL, DRAW_RECT): the only bytes of the buffer that change are those of index
below min(CAP, the bytes the fill sends), which after success hold the color's bytes, INIT's color being black, 0x0000
(general knowledge in the spec, G8, log entry 15); FILL keeps the geometry registers,
TXN_OPEN, FATAL and the lines but data-select; DRAW_RECT keeps the phase, RST and DET. -/
def Obligations.FrameOfOperationsThatFill : Prop :=
  ∀ (s t : State) (i : Instr), exec i s = .next t → (i = .init ∨ (∃ c, i = .fill c) ∨ ∃ x y w h c, i = .drawRect x y w h c) →
    t.cfg = s.cfg ∧ t.portWord = s.portWord ∧ t.panel = s.panel ∧
    (t.lastResult ≠ .ok → ∀ k, t.buf.readByte k = s.buf.readByte k) ∧
    (t.lastResult = .ok → ∀ k, t.buf.readByte k =
      if k < min s.cfg.cap (2 * t.winCount.toNat) then
        (match i with
          | .fill c => patternByte c k
          | .drawRect _ _ _ _ c => patternByte c k
          | _ => 0x00#8)
      else s.buf.readByte k) ∧
    ((∃ c, i = .fill c) →
      t.winX = s.winX ∧ t.winY = s.winY ∧ t.winW = s.winW ∧ t.winH = s.winH ∧ t.winCount = s.winCount ∧
      t.txnOpen = s.txnOpen ∧ t.fatal = s.fatal ∧ t.phase = s.phase ∧ t.devices.cs = s.devices.cs) ∧
    ((∃ c, i = .fill c) ∨ (∃ x y w h c, i = .drawRect x y w h c) →
      t.phase = s.phase ∧ t.devices.rst = s.devices.rst ∧ t.devices.det = s.devices.det ∧
      t.devices.elapsed = s.devices.elapsed)

/-! Whole-machine rules. -/

/-- R31, R87: the buffer's old contents are never observable: two states that differ only in the buffer give outcomes that
differ only in the buffer. -/
def Obligations.OldBufferIsNeverObservable : Prop :=
  ∀ (i : Instr) (s t : State) (b : Mem), exec i s = .next t →
    ∃ b', exec i { s with buf := b } = .next { t with buf := b' }

/-- R36, R103, R37: no operation depends on the panel's state or on the lines: a different panel gives the same outcome, and
different lines give the same outcome but for the devices. -/
def Obligations.PanelAndLinesAreNeverRead : Prop :=
  ∀ (i : Instr) (s t : State) (p : Panel) (d : Devices), exec i s = .next t →
    exec i { s with panel := p } = .next { t with panel := p } ∧
    ∃ d', exec i { s with devices := d } = .next { t with devices := d' }

/-- The invariant is kept by every step, of every agent, from every state that meets it. -/
def Obligations.InvariantIsKept : Prop :=
  ∀ s t : State, s.Inv → step s = .next t → t.Inv

/-- The invariant holds after block reset, under every well-formed configuration, the default one among them. -/
def Obligations.InvariantHoldsAtReset : Prop :=
  (∀ c : Config, c.wf = true → (State.resetWith c).Inv) ∧ State.reset.Inv

/-- R100: no operation stops part-way, and none faults or is refused: every step from a state that meets the invariant goes
on, and an operation that returns OK leaves ERR as it was. -/
def Obligations.EveryStepGoesOn : Prop :=
  (∀ s : State, s.Inv → ∃ t, step s = .next t) ∧
  ∀ s t : State, s.busy = true → step s = .next t → t.lastResult = .ok → t.err = s.err

/-! The panel observer (general knowledge in the spec, G4 to G7). -/

/-- R57: after CASET, four data bytes, split over `Data` events in any way, set XS and XE; after RASET, YS and YE. -/
def Obligations.ObserverTakesWindowBytes : Prop :=
  ∀ (t : PanelCodes) (p : Panel) (a b c d : Byte) (parts : List (List Byte)), parts.flatten = [a, b, c, d] →
    t.caset ≠ t.ramwr → t.raset ≠ t.ramwr → t.raset ≠ t.caset →
    (p.observeAll t (.cmd t.caset :: parts.map .data)).xs = a ++ b ∧
    (p.observeAll t (.cmd t.caset :: parts.map .data)).xe = c ++ d ∧
    (p.observeAll t (.cmd t.raset :: parts.map .data)).ys = a ++ b ∧
    (p.observeAll t (.cmd t.raset :: parts.map .data)).ye = c ++ d

/-- R59: under the observer, with CASET, RASET and RAMWR distinct, a window and a fill set exactly the samples of the
rectangle to the color and change no other sample, whatever the panel held before. -/
def Obligations.WindowAndFillColorExactlyTheRectangle : Prop :=
  ∀ (r : Rect) (c : Sample) (s t : State) (p : Panel), r.onPanel → capSound s.cfg.cap → keysRise p.fm = true →
    s.cfg.panelCmd.caset ≠ s.cfg.panelCmd.ramwr → s.cfg.panelCmd.raset ≠ s.cfg.panelCmd.ramwr →
    s.cfg.panelCmd.raset ≠ s.cfg.panelCmd.caset →
    fillBody c (windowBody r s) = .next t →
    ∃ events, t.trace = s.trace ++ events ∧
      ∀ col row, col < 240 → row < 240 →
        (p.observeAll s.cfg.panelCmd events).sample col row =
          if r.x ≤ col ∧ col ≤ r.x + r.w - 1 ∧ r.y ≤ row ∧ row ≤ r.y + r.h - 1 then c else p.sample col row

/-! Host pseudo-operations. -/

/-- R90: CLEAR is exactly the one word DRAW_RECT 0, 0, 240, 240, 0x0000. -/
def Obligations.ClearIsOneFullScreenRect : Prop :=
  ∀ c : Config, (pseudoReqs c .clear).map DrawReq.word =
      [some (encode (.drawRect 0#8 0#8 240#8 240#8 0x0000#16))] ∧
    (pseudoReqs c .clear).map DrawReq.word = [some 0x060000F0F0000000#64]

/-- R91, R92: a glyph in the table is its entry, one out of range is blank, and a pixel is bit `row` of column byte `col`. -/
def Obligations.GlyphLookupIsBoundsChecked : Prop :=
  (∀ (c : Config) (code : Nat), c.wf = true →
    (∀ g, c.glyphBase ≤ code → c.glyph[code - c.glyphBase]? = some g → glyphOf c code = g) ∧
    ((code < c.glyphBase ∨ c.glyphBase + c.glyphCount ≤ code) → glyphOf c code = [0#8, 0#8, 0#8, 0#8, 0#8]) ∧
    (glyphOf c code).length = 5) ∧
  ∀ (a b c d e : Byte) (row : Nat), row < 8 →
    glyphBit [a, b, c, d, e] 0 row = a.getLsbD row ∧ glyphBit [a, b, c, d, e] 1 row = b.getLsbD row ∧
    glyphBit [a, b, c, d, e] 2 row = c.getLsbD row ∧ glyphBit [a, b, c, d, e] 3 row = d.getLsbD row ∧
    glyphBit [a, b, c, d, e] 4 row = e.getLsbD row

/-- R93: DRAW_CHAR asks for 40 rectangles without skip, and for one per set bit with it; each is the block of a glyph pixel,
in the foreground where its bit is set and else in the background. -/
def Obligations.DrawCharAsksForOneRectPerPixel : Prop :=
  ∀ (c : Config) (x y s code : Nat) (fg bg : Sample),
    (pseudoReqs c (.drawChar x y s code fg bg false)).length = 40 ∧
    (pseudoReqs c (.drawChar x y s code fg bg true)).length =
      (((List.range 5).flatMap fun col => (List.range 8).filter fun row => glyphBit (glyphOf c code) col row)).length ∧
    (∀ col row, col < 5 → row < 8 →
      (pseudoReqs c (.drawChar x y s code fg bg false))[col * 8 + row]? =
        some ⟨x + col * s, y + row * s, s, s, if glyphBit (glyphOf c code) col row then fg else bg⟩) ∧
    pseudoReqs c (.drawChar x y s code fg bg true) =
      ((List.range 5).flatMap fun col => ((List.range 8).filter fun row => glyphBit (glyphOf c code) col row).map
        fun row => ⟨x + col * s, y + row * s, s, s, fg⟩)

/-- R94: where the characters of a string go: the first at (x, y); each next one after the one before it, or, where its box
would pass column 239, at the margin one line down. -/
def Obligations.StringCharactersFollowOrWrap : Prop :=
  ∀ (c : Config) (x y s : Nat) (text : List Nat) (fg bg : Sample) (skip : Bool),
    ∃ places : List (Nat × Nat),
      places.length = text.length ∧
      pseudoReqs c (.drawString x y s text fg bg skip) =
        ((places.zip text).flatMap fun p => pseudoReqs c (.drawChar p.1.1 p.1.2 s p.2 fg bg skip)) ∧
      (0 < text.length → places[0]? = some (x, y)) ∧
      ∀ (k px py : Nat), k + 1 < text.length → places[k]? = some (px, py) →
        places[k + 1]? =
          if 240 < px + (5 + c.charSpacing) * s + 5 * s then
            some (if c.wrapMargin = .zero then 0 else x, py + 8 * s)
          else some (px + (5 + c.charSpacing) * s, py)

/-- R89: a pseudo-operation starts with its constituents and result OK; a constituent that fits is issued as its DRAW_RECT
word; one that does not is not issued and counts as E_BOUNDS; and the run's result is the first that is not OK.  That a run
starts and ends with a move of its own, and that the test is on x, y, w and h, is the model's choice (log entry 19). -/
def Obligations.PseudoOperationKeepsTheFirstError : Prop :=
  (∀ (s : State) (p : PseudoOp) (rest : List HostAction), s.cfg.wf = true → s.busy = false →
    s.trace.length ≤ s.panel.seen → s.host.running = none → s.host.todo = .pseudo p :: rest →
    (∀ text sc, p ≠ .stringWidth text sc) →
    step s = .next { s with host := { s.host with todo := rest, running := some ⟨pseudoReqs s.cfg p, .ok⟩ } }) ∧
  (∀ (s : State) (q : DrawReq) (rest : List DrawReq) (acc : Result), s.cfg.wf = true → s.busy = false →
    s.trace.length ≤ s.panel.seen → s.host.running = some ⟨q :: rest, acc⟩ →
    ∃ t, step s = .next t ∧ t.host.results = s.host.results ∧ t.host.todo = s.host.todo ∧
      ((q.x ≤ 255 ∧ q.y ≤ 255 ∧ q.w ≤ 255 ∧ q.h ≤ 255) →
        t.busy = true ∧ t.host.running = some ⟨rest, acc⟩ ∧
        ∃ x y w h : Byte, x.toNat = q.x ∧ y.toNat = q.y ∧ w.toNat = q.w ∧ h.toNat = q.h ∧
          t.portWord = encode (.drawRect x y w h q.color)) ∧
      (¬(q.x ≤ 255 ∧ q.y ≤ 255 ∧ q.w ≤ 255 ∧ q.h ≤ 255) →
        t.busy = false ∧ t.portWord = s.portWord ∧
        t.host.running = some ⟨rest, if acc = .ok then .eBounds else acc⟩)) ∧
  (∀ (s t : State) (rest : List DrawReq) (acc : Result), s.busy = true → s.host.running = some ⟨rest, acc⟩ →
    step s = .next t → t.host.running = some ⟨rest, if acc = .ok then t.lastResult else acc⟩) ∧
  ∀ (s : State) (acc : Result), s.cfg.wf = true → s.busy = false → s.trace.length ≤ s.panel.seen →
    s.host.running = some ⟨[], acc⟩ →
    step s = .next { s with host := { s.host with running := none, pseudoResults := s.host.pseudoResults ++ [acc] } }

/-- R95: the width of a string, and that asking for it issues nothing. -/
def Obligations.StringWidthIssuesNothing : Prop :=
  ∀ (s : State) (text : List Nat) (sc : Nat) (rest : List HostAction), s.cfg.wf = true → s.busy = false →
    s.trace.length ≤ s.panel.seen → s.host.running = none →
    s.host.todo = .pseudo (.stringWidth text sc) :: rest →
    step s = .next { s with host := { s.host with
      todo := rest,
      widths := s.host.widths ++
        [if text = [] then 0 else 5 * sc * text.length + s.cfg.charSpacing * sc * (text.length - 1)] } }
end

