-- ==== Sys2Proof/Laws/Assembler.lean ====
section
/-! SUPPORT. The assembler on a written line: the value of a numeral, the operands of a line, and the line as a whole (R67). -/

namespace Sys2Proof.Machine

/-- A character of a mnemonic or a numeral: it ends no operand, no operation and no line. -/
def PlainChar (c : Char) : Prop := isBlankChar c = false ∧ c ≠ ';' ∧ c ≠ ',' ∧ c ≠ '\n'

/-! Numerals. -/

theorem digitValue_isDigit {base d : Nat} {c : Char} (hb : base ≤ 16) (h : IsDigit base d c) : digitValue base c = some d := by
  obtain ⟨hd, h⟩ := h
  have hd16 : d < 16 := by omega
  interval_cases d <;> simp at h <;> rcases h with rfl | rfl <;> simp [digitValue, hd]

theorem IsDigit.plain {base d : Nat} {c : Char} (hb : base ≤ 16) (h : IsDigit base d c) : PlainChar c ∧ c ≠ 'x' := by
  obtain ⟨hd, h⟩ := h
  have hd16 : d < 16 := by omega
  clear hd
  interval_cases d <;> simp at h <;> rcases h with rfl | rfl <;> (unfold PlainChar; decide)

theorem digits_plain {base : Nat} (hb : base ≤ 16) : ∀ {ds : List Nat} {cs : List Char},
    List.Forall₂ (IsDigit base) ds cs → ∀ c ∈ cs, PlainChar c ∧ c ≠ 'x'
  | _, _, .nil, _, h => by cases h
  | _, _, .cons h t, c, hc => by
    rcases List.mem_cons.mp hc with rfl | hc
    · exact h.plain hb
    · exact digits_plain hb t c hc

/-- The digits of a numeral are read as their value, whatever its size. -/
theorem digitsValue_eq {base : Nat} (hb : base ≤ 16) : ∀ {ds : List Nat} {cs : List Char} (acc : Nat),
    List.Forall₂ (IsDigit base) ds cs →
      digitsValue base acc cs = some (acc * base ^ ds.length + Nat.ofDigits base ds.reverse)
  | _, _, acc, .nil => by simp [digitsValue]
  | d :: ds, c :: cs, acc, .cons h t => by
    unfold digitsValue
    rw [digitValue_isDigit hb h]
    simp only
    rw [digitsValue_eq hb _ t, List.reverse_cons, Nat.ofDigits_append, Nat.ofDigits_singleton, List.length_reverse,
      List.length_cons, Nat.pow_succ]
    congr 1
    ring

theorem Numeral.plain {cs : List Char} {n : Nat} (h : Numeral cs n) : cs ≠ [] ∧ ∀ c ∈ cs, PlainChar c := by
  obtain ⟨ds, hne, ⟨hf, _⟩ | ⟨hs, rfl, hf, _⟩⟩ := h
  · exact ⟨fun h0 => by subst h0; cases hf; exact hne rfl, fun c hc => (digits_plain (by decide) hf c hc).1⟩
  · refine ⟨by simp, fun c hc => ?_⟩
    simp only [List.mem_cons] at hc
    rcases hc with rfl | rfl | hc
    · unfold PlainChar; decide
    · unfold PlainChar; decide
    · exact (digits_plain (by decide) hf c hc).1

/-- A numeral is read as the number it writes. -/
theorem parseNumber_numeral {cs : List Char} {n : Nat} (h : Numeral cs n) : parseNumber cs = some n := by
  obtain ⟨ds, hne, ⟨hf, rfl⟩ | ⟨hs, rfl, hf, rfl⟩⟩ := h
  · have hx := digits_plain (by decide) hf
    have hv := digitsValue_eq (by decide) 0 hf
    unfold parseNumber
    split
    · cases hf; exact absurd rfl hne
    · exact absurd rfl (hx 'x' (by simp)).2
    · simpa using hv
  · have hv := digitsValue_eq (by decide) 0 hf
    cases hf with
    | nil => exact absurd rfl hne
    | cons h t => simpa [parseNumber] using hv

/-! Separators. -/

theorem splitAtChar_none (sep : Char) : ∀ {cs : List Char}, sep ∉ cs → splitAtChar sep cs = [cs]
  | [], _ => rfl
  | c :: cs, h => by
    simp only [List.mem_cons, not_or] at h
    unfold splitAtChar
    rw [if_neg (by simpa using Ne.symm h.1), splitAtChar_none sep h.2]

theorem splitAtChar_cons (sep : Char) (rest : List Char) : ∀ {cs : List Char}, sep ∉ cs →
    splitAtChar sep (cs ++ sep :: rest) = cs :: splitAtChar sep rest
  | [], _ => by simp [splitAtChar]
  | c :: cs, h => by
    simp only [List.mem_cons, not_or] at h
    rw [List.cons_append]
    conv_lhs => unfold splitAtChar
    rw [if_neg (by simpa using Ne.symm h.1), splitAtChar_cons sep rest h.2]

/-- A list whose ends are not white space is its own trimming. -/
theorem trimBlanks_eq {cs : List Char} (h : ∀ c, cs.head? = some c ∨ cs.getLast? = some c → isBlankChar c = false) :
    trimBlanks cs = cs := by
  have e : ∀ l : List Char, (∀ c, l.head? = some c → isBlankChar c = false) → l.dropWhile isBlankChar = l := by
    intro l hl
    cases l with
    | nil => rfl
    | cons a t => rw [List.dropWhile_cons, if_neg (by simp [hl a rfl])]
  unfold trimBlanks
  rw [e cs fun c hc => h c (.inl hc), e _ fun c hc => h c (.inr (by simpa using hc)), List.reverse_reverse]

theorem plain_notBlank {cs : List Char} (h : ∀ c ∈ cs, PlainChar c) (c : Char)
    (hc : cs.head? = some c ∨ cs.getLast? = some c) : isBlankChar c = false :=
  (h c (hc.elim List.mem_of_head? List.mem_of_getLast?)).1

/-- A blank before a numeral is trimmed away. -/
theorem trimBlanks_blank {cs : List Char} (h : ∀ c ∈ cs, PlainChar c) : trimBlanks (' ' :: cs) = cs := by
  have := trimBlanks_eq (plain_notBlank h)
  unfold trimBlanks at this ⊢
  rw [List.dropWhile_cons, if_pos (by decide)]
  exact this

/-! Operands. -/

/-- Operands written with ", " between them are the numerals, each after a blank, between commas. -/
theorem splitAtChar_operands : ∀ {ns : List (List Char)}, ns ≠ [] → (∀ n ∈ ns, ∀ c ∈ n, PlainChar c) →
    splitAtChar ',' (' ' :: [',', ' '].intercalate ns) = ns.map (' ' :: ·)
  | [n], _, h => by
    have hn : ',' ∉ ' ' :: n := by
      simp only [List.mem_cons, not_or]
      exact ⟨by decide, fun hc => (h n (by simp) _ hc).2.2.1 rfl⟩
    simpa [List.intercalate] using splitAtChar_none ',' hn
  | n :: m :: ns, _, h => by
    have hn : ',' ∉ ' ' :: n := by
      simp only [List.mem_cons, not_or]
      exact ⟨by decide, fun hc => (h n (by simp) _ hc).2.2.1 rfl⟩
    have e : (' ' :: [',', ' '].intercalate (n :: m :: ns)) =
        (' ' :: n) ++ ',' :: (' ' :: [',', ' '].intercalate (m :: ns)) := by
      simp [List.intercalate, List.intersperse]
    rw [e, splitAtChar_cons ',' _ hn, splitAtChar_operands (by simp) fun k hk => h k (by simp [hk])]
    rfl

theorem parseNumbers_numerals : ∀ {ns : List (List Char)} {ops : List Nat}, List.Forall₂ Numeral ns ops →
    parseNumbers (ns.map (' ' :: ·)) = .ok ops
  | _, _, .nil => rfl
  | _, _, .cons h t => by
    simp only [List.map_cons, parseNumbers, trimBlanks_blank h.plain.2, parseNumber_numeral h, parseNumbers_numerals t]

theorem numerals_plain : ∀ {ns : List (List Char)} {ops : List Nat}, List.Forall₂ Numeral ns ops →
    ∀ n ∈ ns, n ≠ [] ∧ ∀ c ∈ n, PlainChar c
  | _, _, .nil, _, h => by cases h
  | _, _, .cons h t, n, hn => by
    rcases List.mem_cons.mp hn with rfl | hn
    · exact h.plain
    · exact numerals_plain t n hn

/-- Every character of written operands is plain, a blank or a comma. -/
theorem operands_chars : ∀ {ns : List (List Char)}, (∀ n ∈ ns, ∀ c ∈ n, PlainChar c) →
    ∀ c ∈ [',', ' '].intercalate ns, PlainChar c ∨ c = ' ' ∨ c = ','
  | [], _, c, hc => by simp [List.intercalate] at hc
  | [n], h, c, hc => .inl (h n (by simp) c (by simpa [List.intercalate] using hc))
  | n :: m :: ns, h, c, hc => by
    have e : [',', ' '].intercalate (n :: m :: ns) = n ++ ',' :: ' ' :: [',', ' '].intercalate (m :: ns) := by
      simp [List.intercalate, List.intersperse]
    rw [e] at hc
    simp only [List.mem_append, List.mem_cons] at hc
    rcases hc with hc | rfl | rfl | hc
    · exact .inl (h n (by simp) c hc)
    · simp
    · simp
    · exact operands_chars (fun k hk => h k (by simp [hk])) c hc

/-- A list with a character that is not white space does not trim to nothing. -/
theorem trimBlanks_ne_nil {cs : List Char} {k : Char} (hk : k ∈ cs) (hb : isBlankChar k = false) : trimBlanks cs ≠ [] := by
  have mem_drop : ∀ l : List Char, k ∈ l → k ∈ l.dropWhile isBlankChar := by
    intro l hl
    rw [← List.takeWhile_append_dropWhile (p := isBlankChar) (l := l), List.mem_append] at hl
    refine hl.elim (fun h => ?_) id
    rw [List.mem_takeWhile_imp h] at hb
    cases hb
  unfold trimBlanks
  intro h
  have := mem_drop _ (List.mem_reverse.mpr (mem_drop cs hk))
  rw [List.reverse_eq_nil_iff.mp h] at this
  cases this

/-- Written operands end in a plain character. -/
theorem operands_last : ∀ {ns : List (List Char)}, ns ≠ [] → (∀ n ∈ ns, n ≠ [] ∧ ∀ c ∈ n, PlainChar c) →
    ∃ l c, [',', ' '].intercalate ns = l ++ [c] ∧ PlainChar c
  | [n], _, h => by
    obtain ⟨hne, hp⟩ := h n (by simp)
    refine ⟨n.dropLast, n.getLast hne, ?_, hp _ (List.getLast_mem hne)⟩
    simp [List.intercalate, List.dropLast_append_getLast hne]
  | n :: m :: ns, _, h => by
    obtain ⟨l, c, e, hc⟩ := operands_last (ns := m :: ns) (by simp) fun k hk => h k (by simp [hk])
    refine ⟨n ++ ',' :: ' ' :: l, c, ?_, hc⟩
    have e' : [',', ' '].intercalate (n :: m :: ns) = n ++ ',' :: ' ' :: [',', ' '].intercalate (m :: ns) := by
      simp [List.intercalate, List.intersperse]
    rw [e', e]; simp

/-- The part of a line after its mnemonic. -/
def operandText (ns : List (List Char)) : List Char := if ns = [] then [] else ' ' :: [',', ' '].intercalate ns

theorem operandText_chars {ns : List (List Char)} (h : ∀ n ∈ ns, ∀ c ∈ n, PlainChar c) :
    ∀ c ∈ operandText ns, PlainChar c ∨ c = ' ' ∨ c = ',' := by
  intro c hc
  unfold operandText at hc
  split at hc
  · cases hc
  · rcases List.mem_cons.mp hc with rfl | hc
    · simp
    · exact operands_chars h c hc

theorem operandText_head {ns : List (List Char)} {c : Char} (h : (operandText ns).head? = some c) : c = ' ' := by
  unfold operandText at h
  split at h
  · cases h
  · exact (Option.some.inj h).symm

/-- Written operands are read as the numbers they write. -/
theorem parseOperands_written {ns : List (List Char)} {ops : List Nat} (h : List.Forall₂ Numeral ns ops) :
    parseOperands (operandText ns) = .ok ops := by
  have hp := numerals_plain h
  unfold operandText
  split
  · next h0 => subst h0; cases h; rfl
  · next h0 =>
    obtain ⟨l, k, e, hk⟩ := operands_last h0 hp
    have hne := trimBlanks_ne_nil (cs := ' ' :: [',', ' '].intercalate ns) (k := k) (by simp [e]) hk.1
    unfold parseOperands
    rw [if_neg (by simpa using hne), splitAtChar_operands h0 fun n hn => (hp n hn).2, parseNumbers_numerals h]

/-! Operations. -/

theorem mnemonicOf_plain (i : Instr) : mnemonicOf i ≠ [] ∧ ∀ c ∈ mnemonicOf i, PlainChar c := by
  have h : (mnemonicOf i).all (fun c => !isBlankChar c && c != ';' && c != ',' && c != '\n') = true := by cases i <;> rfl
  refine ⟨by cases i <;> exact List.cons_ne_nil _ _, fun c hc => ?_⟩
  have := List.all_eq_true.mp h c hc
  simp only [Bool.and_eq_true, Bool.not_eq_true', bne_iff_ne, ne_eq] at this
  exact ⟨this.1.1.1, this.1.1.2, this.1.2, this.2⟩

theorem buildInstr_setWindow (x y w h : Nat) : buildInstr "SET_WINDOW".toList [x, y, w, h] =
    if coordsFit x y w h then
      .ok (.setWindow (BitVec.ofNat 8 x) (BitVec.ofNat 8 y) (BitVec.ofNat 8 w) (BitVec.ofNat 8 h))
    else .error .outOfRange := rfl

theorem buildInstr_fill (c : Nat) : buildInstr "FILL".toList [c] =
    if colorOperandFits c then .ok (.fill (BitVec.ofNat 16 c)) else .error .outOfRange := rfl

theorem buildInstr_drawRect (x y w h c : Nat) : buildInstr "DRAW_RECT".toList [x, y, w, h, c] =
    if coordsFit x y w h && colorOperandFits c then
      .ok (.drawRect (BitVec.ofNat 8 x) (BitVec.ofNat 8 y) (BitVec.ofNat 8 w) (BitVec.ofNat 8 h) (BitVec.ofNat 16 c))
    else .error .outOfRange := rfl

theorem coordsFit_iff (x y w h : Nat) : coordsFit x y w h = true ↔ x ≤ 255 ∧ y ≤ 255 ∧ w ≤ 255 ∧ h ≤ 255 := by
  simp [coordsFit, byteOperandFits, and_assoc]

theorem byteFits (b : Byte) : b.toNat ≤ 255 := by omega

/-- The operands of an operation build it. -/
theorem buildInstr_operandsOf (i : Instr) : buildInstr (mnemonicOf i) (operandsOf i) = .ok i := by
  cases i with
  | nop => rfl
  | init => rfl
  | txnBegin => rfl
  | txnEnd => rfl
  | setWindow x y w h =>
    show buildInstr "SET_WINDOW".toList _ = _
    rw [operandsOf, buildInstr_setWindow, if_pos ((coordsFit_iff ..).mpr ⟨byteFits x, byteFits y, byteFits w, byteFits h⟩)]
    simp
  | fill c =>
    show buildInstr "FILL".toList _ = _
    rw [operandsOf, buildInstr_fill, if_pos (by simp only [colorOperandFits, decide_eq_true_eq]; omega)]
    simp
  | drawRect x y w h c =>
    show buildInstr "DRAW_RECT".toList _ = _
    rw [operandsOf, buildInstr_drawRect, if_pos]
    · simp
    · rw [Bool.and_eq_true, coordsFit_iff]
      exact ⟨⟨byteFits x, byteFits y, byteFits w, byteFits h⟩, by simp only [colorOperandFits, decide_eq_true_eq]; omega⟩

/-! Lines. -/

/-- What a line assembles to, once its mnemonic and operands are read. -/
def built (mnemonic : List Char) (operands : List Nat) : Except AsmError (Option Instr) :=
  match buildInstr mnemonic operands with
  | .error e => .error e
  | .ok i => .ok (some i)

theorem takeWhile_all_append {p : Char → Bool} {l r : List Char} (hl : ∀ c ∈ l, p c = true)
    (hr : ∀ c, r.head? = some c → p c = false) : (l ++ r).takeWhile p = l ∧ (l ++ r).dropWhile p = r := by
  induction l with
  | nil =>
    cases r with
    | nil => exact ⟨rfl, rfl⟩
    | cons a t => simp [hr a rfl]
  | cons a t ih =>
    have := ih fun c hc => hl c (by simp [hc])
    simp [hl a (by simp), this]

/-- A mnemonic with its operands has no white space at either end. -/
theorem trimBlanks_line {mn : List Char} {ns : List (List Char)} (hmn : mn ≠ []) (hp : ∀ c ∈ mn, PlainChar c)
    (hns : ∀ n ∈ ns, n ≠ [] ∧ ∀ c ∈ n, PlainChar c) : trimBlanks (mn ++ operandText ns) = mn ++ operandText ns := by
  refine trimBlanks_eq fun c hc => ?_
  rcases hc with hc | hc
  · obtain ⟨a, t, rfl⟩ := List.exists_cons_of_ne_nil hmn
    exact Option.some.inj hc ▸ (hp a (by simp)).1
  · unfold operandText at hc
    split at hc
    · rw [List.append_nil] at hc
      exact (hp c (List.mem_of_getLast? hc)).1
    · next h =>
      obtain ⟨l, k, e, hk⟩ := operands_last h hns
      rw [e, show mn ++ ' ' :: (l ++ [k]) = (mn ++ ' ' :: l) ++ [k] by simp, List.getLast?_concat] at hc
      exact Option.some.inj hc ▸ hk.1

/-- The assembler reads from a written line its mnemonic and its operands. -/
theorem assembleLine_written {mn text : List Char} {ops : List Nat} (hmn : mn ≠ []) (hp : ∀ c ∈ mn, PlainChar c)
    (hw : Written mn ops text) : assembleLine text = built mn ops := by
  obtain ⟨ns, ending, hns, hend, rfl⟩ := hw
  have hnp := numerals_plain hns
  rw [show (if ns = [] then [] else ' ' :: [',', ' '].intercalate ns) = operandText ns from rfl]
  have hdrop : dropComment (mn ++ operandText ns ++ ending) = mn ++ operandText ns := by
    refine (takeWhile_all_append (fun c hc => ?_) fun c hc => ?_).1
    · rcases List.mem_append.mp hc with hc | hc
      · simp [(hp c hc).2.1]
      · rcases operandText_chars (fun n hn => (hnp n hn).2) c hc with h | rfl | rfl
        · simp [h.2.1]
        · decide
        · decide
    · rcases hend with rfl | ⟨k, _, rfl⟩
      · cases hc
      · rw [← Option.some.inj hc]; decide
  have hsplit := takeWhile_all_append (p := fun c => !isBlankChar c) (l := mn) (r := operandText ns)
    (fun c hc => by simp [(hp c hc).1]) fun c hc => by rw [operandText_head hc]; decide
  unfold assembleLine
  simp only [hdrop, trimBlanks_line hmn hp hnp, hsplit.1, hsplit.2, parseOperands_written hns]
  rw [if_neg (by simp [hmn])]
  rfl

/-- A written line holds no line break. -/
theorem written_one_line {mn text : List Char} {ops : List Nat} (hp : ∀ c ∈ mn, PlainChar c) (hw : Written mn ops text) :
    '\n' ∉ text := by
  obtain ⟨ns, ending, hns, hend, rfl⟩ := hw
  rw [show (if ns = [] then [] else ' ' :: [',', ' '].intercalate ns) = operandText ns from rfl]
  intro h
  simp only [List.mem_append] at h
  rcases h with (h | h) | h
  · exact (hp _ h).2.2.2 rfl
  · rcases operandText_chars (fun n hn => (numerals_plain hns n hn).2) _ h with h | h | h
    · exact h.2.2.2 rfl
    · exact absurd h (by decide)
    · exact absurd h (by decide)
  · rcases hend with rfl | ⟨k, hk, rfl⟩
    · cases h
    · rcases List.mem_cons.mp h with h | h
      · exact absurd h (by decide)
      · exact hk h

/-- A text of one line. -/
theorem assemble_line {text : List Char} (h : '\n' ∉ text) : assemble text = assembleLines [text] := by
  unfold assemble
  rw [splitAtChar_none _ h]

/-- A text is its first line and the rest. -/
theorem assemble_cons {text : List Char} (h : '\n' ∉ text) (rest : List Char) :
    assemble (text ++ '\n' :: rest) = assembleLines (text :: splitAtChar '\n' rest) := by
  unfold assemble
  rw [splitAtChar_cons _ _ h]

end Sys2Proof.Machine
end

