-- ==== Sys2Proof/Laws/Decode.lean ====
section
/-! SUPPORT. The fields of a laid-out word, the word of its fields, and the decoder by operation code. -/

namespace Sys2Proof

section Layout
variable (o x y w h : Byte) (c : Sample)

@[simp] theorem opcOf_layout : opcOf (layout o x y w h c) = o := by
  unfold opcOf layout; ext i hi; simp; grind

@[simp] theorem xOf_layout : xOf (layout o x y w h c) = x := by
  unfold xOf layout; ext i hi; simp; grind

@[simp] theorem yOf_layout : yOf (layout o x y w h c) = y := by
  unfold yOf layout; ext i hi; simp; grind

@[simp] theorem wOf_layout : wOf (layout o x y w h c) = w := by
  unfold wOf layout; ext i hi; simp; grind

@[simp] theorem hOf_layout : hOf (layout o x y w h c) = h := by
  unfold hOf layout; ext i hi; simp; grind

@[simp] theorem colorOf_layout : colorOf (layout o x y w h c) = c := by
  unfold colorOf layout; ext i hi; simp; grind

end Layout

/-- The bits of a laid-out word, field by field (R61). -/
theorem layout_getLsbD (o x y w h : Byte) (c : Sample) (n : Nat) :
    (layout o x y w h c).getLsbD n =
      if n < 16 then c.getLsbD n else if n < 24 then false else if n < 32 then h.getLsbD (n - 24)
      else if n < 40 then w.getLsbD (n - 32) else if n < 48 then y.getLsbD (n - 40)
      else if n < 56 then x.getLsbD (n - 48) else o.getLsbD (n - 56) := by
  have e : layout o x y w h c = (o ++ x ++ y ++ w ++ h ++ 0#8 ++ c : BitVec (8+8+8+8+8+8+16)) := rfl
  rw [e]
  simp only [BitVec.getLsbD_append, Nat.sub_sub, BitVec.getLsbD_zero]
  split
  · simp [*]
  split
  · rw [if_pos (by omega)]
  split
  · rw [if_neg (by omega), if_pos (by omega)]
  split
  · rw [if_neg (by omega), if_neg (by omega), if_pos (by omega)]
  split
  · rw [if_neg (by omega), if_neg (by omega), if_neg (by omega), if_pos (by omega)]
  split
  · rw [if_neg (by omega), if_neg (by omega), if_neg (by omega), if_neg (by omega), if_pos (by omega)]
  · rw [if_neg (by omega), if_neg (by omega), if_neg (by omega), if_neg (by omega), if_neg (by omega)]

/-- A word with RSV = 0 is the word laid out from its fields. -/
theorem layout_fields (op : OpWord) (h0 : rsvOf op = 0#8) :
    layout (opcOf op) (xOf op) (yOf op) (wOf op) (hOf op) (colorOf op) = op := by
  apply BitVec.eq_of_getLsbD_eq
  intro n hn
  have hr : ∀ k, (op.extractLsb' 16 8).getLsbD k = false := fun k => by
    have : op.extractLsb' 16 8 = 0#8 := h0
    rw [this]; simp
  rw [layout_getLsbD]
  simp only [opcOf, xOf, yOf, wOf, hOf, colorOf, BitVec.getLsbD_extractLsb']
  simp only [BitVec.getLsbD_extractLsb'] at hr
  split
  · simp [*]
  split
  · have := hr (n - 16)
    simp only [show n - 16 < 8 by omega, decide_true, Bool.true_and, show 16 + (n-16) = n by omega] at this
    exact this.symm
  all_goals (repeat' split) <;>
    first
    | (simp only [show n - 24 < 8 by omega, decide_true, Bool.true_and, show 24 + (n-24) = n by omega])
    | (simp only [show n - 32 < 8 by omega, decide_true, Bool.true_and, show 32 + (n-32) = n by omega])
    | (simp only [show n - 40 < 8 by omega, decide_true, Bool.true_and, show 40 + (n-40) = n by omega])
    | (simp only [show n - 48 < 8 by omega, decide_true, Bool.true_and, show 48 + (n-48) = n by omega])
    | (simp only [show n - 56 < 8 by omega, decide_true, Bool.true_and, show 56 + (n-56) = n by omega])

/-- A word has no bit of a mask: what the reserved-bit check asks (R64). -/
theorem and_eq_zero_iff (op m : OpWord) : op &&& m = 0#64 ↔ ∀ n, n < 64 → m.getLsbD n = true → op.getLsbD n = false := by
  constructor
  · intro h n _ hm
    have := congrArg (fun v => v.getLsbD n) h
    simpa [hm] using this
  · intro h
    apply BitVec.eq_of_getLsbD_eq
    intro n hn
    cases hm : m.getLsbD n
    · simp [hm]
    · simp [h n hn hm]

theorem byte_eq_zero {b : Byte} (h : ∀ n, n < 8 → b.getLsbD n = false) : b = 0#8 := by
  apply BitVec.eq_of_getLsbD_eq; intro n hn; simp [h n hn]
theorem sample_eq_zero {b : Sample} (h : ∀ n, n < 16 → b.getLsbD n = false) : b = 0#16 := by
  apply BitVec.eq_of_getLsbD_eq; intro n hn; simp [h n hn]


/-! The bits of RESV (R64). -/

theorem resvAll_bits : ∀ n, n < 64 → (0x00FFFFFFFFFFFFFF#64).getLsbD n = decide (n < 56) := by decide
theorem resvSet_bits : ∀ n, n < 64 → (0x0000000000FFFFFF#64).getLsbD n = decide (n < 24) := by decide
theorem resvFill_bits : ∀ n, n < 64 → (0x00FFFFFFFFFF0000#64).getLsbD n = (decide (16 ≤ n) && decide (n < 56)) := by decide
theorem resvRect_bits : ∀ n, n < 64 → (0x0000000000FF0000#64).getLsbD n = (decide (16 ≤ n) && decide (n < 24)) := by decide

/-- A field whose bits are all 0 is 0. -/
theorem field_zero {op : OpWord} {lo : Nat} (h : ∀ n, lo ≤ n → n < lo + 8 → op.getLsbD n = false) : op.extractLsb' lo 8 = 0#8 := by
  apply byte_eq_zero; intro n hn; simp [hn]; exact h _ (by omega) (by omega)
theorem color_zero {op : OpWord} (h : ∀ n, n < 16 → op.getLsbD n = false) : colorOf op = 0#16 := by
  apply sample_eq_zero; intro n hn; simp [colorOf, hn]; exact h _ hn

end Sys2Proof
end

