-- ==== Sys2Proof/Laws/State.lean ====
section
/-! SUPPORT. One lemma per field per shared update: what it writes and what it leaves, so that no proof unfolds an update. -/

namespace Sys2Proof.Machine

@[simp] theorem emit_cfg (es : List Event) (s : State) : (emit es s).cfg = s.cfg := rfl
@[simp] theorem emit_phase (es : List Event) (s : State) : (emit es s).phase = s.phase := rfl
@[simp] theorem emit_fatal (es : List Event) (s : State) : (emit es s).fatal = s.fatal := rfl
@[simp] theorem emit_err (es : List Event) (s : State) : (emit es s).err = s.err := rfl
@[simp] theorem emit_lastResult (es : List Event) (s : State) : (emit es s).lastResult = s.lastResult := rfl
@[simp] theorem emit_txnOpen (es : List Event) (s : State) : (emit es s).txnOpen = s.txnOpen := rfl
@[simp] theorem emit_winValid (es : List Event) (s : State) : (emit es s).winValid = s.winValid := rfl
@[simp] theorem emit_winX (es : List Event) (s : State) : (emit es s).winX = s.winX := rfl
@[simp] theorem emit_winY (es : List Event) (s : State) : (emit es s).winY = s.winY := rfl
@[simp] theorem emit_winW (es : List Event) (s : State) : (emit es s).winW = s.winW := rfl
@[simp] theorem emit_winH (es : List Event) (s : State) : (emit es s).winH = s.winH := rfl
@[simp] theorem emit_winCount (es : List Event) (s : State) : (emit es s).winCount = s.winCount := rfl
@[simp] theorem emit_busy (es : List Event) (s : State) : (emit es s).busy = s.busy := rfl
@[simp] theorem emit_buf (es : List Event) (s : State) : (emit es s).buf = s.buf := rfl
@[simp] theorem emit_portWord (es : List Event) (s : State) : (emit es s).portWord = s.portWord := rfl
@[simp] theorem emit_trace (es : List Event) (s : State) : (emit es s).trace = s.trace ++ es := rfl
@[simp] theorem emit_devices (es : List Event) (s : State) : (emit es s).devices = s.devices.applyAll s.cfg.wire.dcCommand es := rfl
@[simp] theorem emit_panel (es : List Event) (s : State) : (emit es s).panel = s.panel := rfl
@[simp] theorem emit_host (es : List Event) (s : State) : (emit es s).host = s.host := rfl

@[simp] theorem openTxn_cfg (s : State) : (openTxn s).cfg = s.cfg := rfl
@[simp] theorem openTxn_phase (s : State) : (openTxn s).phase = s.phase := rfl
@[simp] theorem openTxn_fatal (s : State) : (openTxn s).fatal = s.fatal := rfl
@[simp] theorem openTxn_err (s : State) : (openTxn s).err = s.err := rfl
@[simp] theorem openTxn_lastResult (s : State) : (openTxn s).lastResult = s.lastResult := rfl
@[simp] theorem openTxn_txnOpen (s : State) : (openTxn s).txnOpen = true := rfl
@[simp] theorem openTxn_winValid (s : State) : (openTxn s).winValid = s.winValid := rfl
@[simp] theorem openTxn_winX (s : State) : (openTxn s).winX = s.winX := rfl
@[simp] theorem openTxn_winY (s : State) : (openTxn s).winY = s.winY := rfl
@[simp] theorem openTxn_winW (s : State) : (openTxn s).winW = s.winW := rfl
@[simp] theorem openTxn_winH (s : State) : (openTxn s).winH = s.winH := rfl
@[simp] theorem openTxn_winCount (s : State) : (openTxn s).winCount = s.winCount := rfl
@[simp] theorem openTxn_busy (s : State) : (openTxn s).busy = s.busy := rfl
@[simp] theorem openTxn_buf (s : State) : (openTxn s).buf = s.buf := rfl
@[simp] theorem openTxn_portWord (s : State) : (openTxn s).portWord = s.portWord := rfl
@[simp] theorem openTxn_trace (s : State) : (openTxn s).trace = s.trace ++ [.txnBegin] := rfl
@[simp] theorem openTxn_devices (s : State) : (openTxn s).devices = s.devices.drive .cs false := rfl
@[simp] theorem openTxn_panel (s : State) : (openTxn s).panel = s.panel := rfl
@[simp] theorem openTxn_host (s : State) : (openTxn s).host = s.host := rfl

@[simp] theorem closeTxn_cfg (s : State) : (closeTxn s).cfg = s.cfg := rfl
@[simp] theorem closeTxn_phase (s : State) : (closeTxn s).phase = s.phase := rfl
@[simp] theorem closeTxn_fatal (s : State) : (closeTxn s).fatal = s.fatal := rfl
@[simp] theorem closeTxn_err (s : State) : (closeTxn s).err = s.err := rfl
@[simp] theorem closeTxn_lastResult (s : State) : (closeTxn s).lastResult = s.lastResult := rfl
@[simp] theorem closeTxn_txnOpen (s : State) : (closeTxn s).txnOpen = false := rfl
@[simp] theorem closeTxn_winValid (s : State) : (closeTxn s).winValid = s.winValid := rfl
@[simp] theorem closeTxn_winX (s : State) : (closeTxn s).winX = s.winX := rfl
@[simp] theorem closeTxn_winY (s : State) : (closeTxn s).winY = s.winY := rfl
@[simp] theorem closeTxn_winW (s : State) : (closeTxn s).winW = s.winW := rfl
@[simp] theorem closeTxn_winH (s : State) : (closeTxn s).winH = s.winH := rfl
@[simp] theorem closeTxn_winCount (s : State) : (closeTxn s).winCount = s.winCount := rfl
@[simp] theorem closeTxn_busy (s : State) : (closeTxn s).busy = s.busy := rfl
@[simp] theorem closeTxn_buf (s : State) : (closeTxn s).buf = s.buf := rfl
@[simp] theorem closeTxn_portWord (s : State) : (closeTxn s).portWord = s.portWord := rfl
@[simp] theorem closeTxn_trace (s : State) : (closeTxn s).trace = s.trace ++ [.txnEnd] := rfl
@[simp] theorem closeTxn_devices (s : State) : (closeTxn s).devices = s.devices.drive .cs true := rfl
@[simp] theorem closeTxn_panel (s : State) : (closeTxn s).panel = s.panel := rfl
@[simp] theorem closeTxn_host (s : State) : (closeTxn s).host = s.host := rfl

@[simp] theorem sendCmd_cfg (n : PanelCmd) (s : State) : (sendCmd n s).cfg = s.cfg := rfl
@[simp] theorem sendCmd_phase (n : PanelCmd) (s : State) : (sendCmd n s).phase = s.phase := rfl
@[simp] theorem sendCmd_fatal (n : PanelCmd) (s : State) : (sendCmd n s).fatal = s.fatal := rfl
@[simp] theorem sendCmd_err (n : PanelCmd) (s : State) : (sendCmd n s).err = s.err := rfl
@[simp] theorem sendCmd_lastResult (n : PanelCmd) (s : State) : (sendCmd n s).lastResult = s.lastResult := rfl
@[simp] theorem sendCmd_txnOpen (n : PanelCmd) (s : State) : (sendCmd n s).txnOpen = s.txnOpen := rfl
@[simp] theorem sendCmd_winValid (n : PanelCmd) (s : State) : (sendCmd n s).winValid = s.winValid := rfl
@[simp] theorem sendCmd_winX (n : PanelCmd) (s : State) : (sendCmd n s).winX = s.winX := rfl
@[simp] theorem sendCmd_winY (n : PanelCmd) (s : State) : (sendCmd n s).winY = s.winY := rfl
@[simp] theorem sendCmd_winW (n : PanelCmd) (s : State) : (sendCmd n s).winW = s.winW := rfl
@[simp] theorem sendCmd_winH (n : PanelCmd) (s : State) : (sendCmd n s).winH = s.winH := rfl
@[simp] theorem sendCmd_winCount (n : PanelCmd) (s : State) : (sendCmd n s).winCount = s.winCount := rfl
@[simp] theorem sendCmd_busy (n : PanelCmd) (s : State) : (sendCmd n s).busy = s.busy := rfl
@[simp] theorem sendCmd_buf (n : PanelCmd) (s : State) : (sendCmd n s).buf = s.buf := rfl
@[simp] theorem sendCmd_portWord (n : PanelCmd) (s : State) : (sendCmd n s).portWord = s.portWord := rfl
@[simp] theorem sendCmd_trace (n : PanelCmd) (s : State) : (sendCmd n s).trace = s.trace ++ sendCmdEvents s.cfg n := rfl
@[simp] theorem sendCmd_devices (n : PanelCmd) (s : State) : (sendCmd n s).devices = s.devices.applyAll s.cfg.wire.dcCommand (sendCmdEvents s.cfg n) := rfl
@[simp] theorem sendCmd_panel (n : PanelCmd) (s : State) : (sendCmd n s).panel = s.panel := rfl
@[simp] theorem sendCmd_host (n : PanelCmd) (s : State) : (sendCmd n s).host = s.host := rfl

@[simp] theorem sendCmds_cfg (ns : List PanelCmd) (s : State) : (sendCmds ns s).cfg = s.cfg := rfl
@[simp] theorem sendCmds_phase (ns : List PanelCmd) (s : State) : (sendCmds ns s).phase = s.phase := rfl
@[simp] theorem sendCmds_fatal (ns : List PanelCmd) (s : State) : (sendCmds ns s).fatal = s.fatal := rfl
@[simp] theorem sendCmds_err (ns : List PanelCmd) (s : State) : (sendCmds ns s).err = s.err := rfl
@[simp] theorem sendCmds_lastResult (ns : List PanelCmd) (s : State) : (sendCmds ns s).lastResult = s.lastResult := rfl
@[simp] theorem sendCmds_txnOpen (ns : List PanelCmd) (s : State) : (sendCmds ns s).txnOpen = s.txnOpen := rfl
@[simp] theorem sendCmds_winValid (ns : List PanelCmd) (s : State) : (sendCmds ns s).winValid = s.winValid := rfl
@[simp] theorem sendCmds_winX (ns : List PanelCmd) (s : State) : (sendCmds ns s).winX = s.winX := rfl
@[simp] theorem sendCmds_winY (ns : List PanelCmd) (s : State) : (sendCmds ns s).winY = s.winY := rfl
@[simp] theorem sendCmds_winW (ns : List PanelCmd) (s : State) : (sendCmds ns s).winW = s.winW := rfl
@[simp] theorem sendCmds_winH (ns : List PanelCmd) (s : State) : (sendCmds ns s).winH = s.winH := rfl
@[simp] theorem sendCmds_winCount (ns : List PanelCmd) (s : State) : (sendCmds ns s).winCount = s.winCount := rfl
@[simp] theorem sendCmds_busy (ns : List PanelCmd) (s : State) : (sendCmds ns s).busy = s.busy := rfl
@[simp] theorem sendCmds_buf (ns : List PanelCmd) (s : State) : (sendCmds ns s).buf = s.buf := rfl
@[simp] theorem sendCmds_portWord (ns : List PanelCmd) (s : State) : (sendCmds ns s).portWord = s.portWord := rfl
@[simp] theorem sendCmds_trace (ns : List PanelCmd) (s : State) : (sendCmds ns s).trace = s.trace ++ ns.flatMap (sendCmdEvents s.cfg) := rfl
@[simp] theorem sendCmds_devices (ns : List PanelCmd) (s : State) : (sendCmds ns s).devices = s.devices.applyAll s.cfg.wire.dcCommand (ns.flatMap (sendCmdEvents s.cfg)) := rfl
@[simp] theorem sendCmds_panel (ns : List PanelCmd) (s : State) : (sendCmds ns s).panel = s.panel := rfl
@[simp] theorem sendCmds_host (ns : List PanelCmd) (s : State) : (sendCmds ns s).host = s.host := rfl

@[simp] theorem recordWindow_cfg (r : Rect) (s : State) : (recordWindow r s).cfg = s.cfg := rfl
@[simp] theorem recordWindow_phase (r : Rect) (s : State) : (recordWindow r s).phase = s.phase := rfl
@[simp] theorem recordWindow_fatal (r : Rect) (s : State) : (recordWindow r s).fatal = s.fatal := rfl
@[simp] theorem recordWindow_err (r : Rect) (s : State) : (recordWindow r s).err = s.err := rfl
@[simp] theorem recordWindow_lastResult (r : Rect) (s : State) : (recordWindow r s).lastResult = s.lastResult := rfl
@[simp] theorem recordWindow_txnOpen (r : Rect) (s : State) : (recordWindow r s).txnOpen = s.txnOpen := rfl
@[simp] theorem recordWindow_winValid (r : Rect) (s : State) : (recordWindow r s).winValid = true := rfl
@[simp] theorem recordWindow_winX (r : Rect) (s : State) : (recordWindow r s).winX = BitVec.ofNat 8 r.x := rfl
@[simp] theorem recordWindow_winY (r : Rect) (s : State) : (recordWindow r s).winY = BitVec.ofNat 8 r.y := rfl
@[simp] theorem recordWindow_winW (r : Rect) (s : State) : (recordWindow r s).winW = BitVec.ofNat 8 r.w := rfl
@[simp] theorem recordWindow_winH (r : Rect) (s : State) : (recordWindow r s).winH = BitVec.ofNat 8 r.h := rfl
@[simp] theorem recordWindow_winCount (r : Rect) (s : State) : (recordWindow r s).winCount = BitVec.ofNat 16 (r.w * r.h) := rfl
@[simp] theorem recordWindow_busy (r : Rect) (s : State) : (recordWindow r s).busy = s.busy := rfl
@[simp] theorem recordWindow_buf (r : Rect) (s : State) : (recordWindow r s).buf = s.buf := rfl
@[simp] theorem recordWindow_portWord (r : Rect) (s : State) : (recordWindow r s).portWord = s.portWord := rfl
@[simp] theorem recordWindow_trace (r : Rect) (s : State) : (recordWindow r s).trace = s.trace := rfl
@[simp] theorem recordWindow_devices (r : Rect) (s : State) : (recordWindow r s).devices = s.devices := rfl
@[simp] theorem recordWindow_panel (r : Rect) (s : State) : (recordWindow r s).panel = s.panel := rfl
@[simp] theorem recordWindow_host (r : Rect) (s : State) : (recordWindow r s).host = s.host := rfl

@[simp] theorem windowBody_cfg (r : Rect) (s : State) : (windowBody r s).cfg = s.cfg := rfl
@[simp] theorem windowBody_phase (r : Rect) (s : State) : (windowBody r s).phase = s.phase := rfl
@[simp] theorem windowBody_fatal (r : Rect) (s : State) : (windowBody r s).fatal = s.fatal := rfl
@[simp] theorem windowBody_err (r : Rect) (s : State) : (windowBody r s).err = s.err := rfl
@[simp] theorem windowBody_lastResult (r : Rect) (s : State) : (windowBody r s).lastResult = s.lastResult := rfl
@[simp] theorem windowBody_txnOpen (r : Rect) (s : State) : (windowBody r s).txnOpen = s.txnOpen := rfl
@[simp] theorem windowBody_winValid (r : Rect) (s : State) : (windowBody r s).winValid = true := rfl
@[simp] theorem windowBody_winX (r : Rect) (s : State) : (windowBody r s).winX = BitVec.ofNat 8 r.x := rfl
@[simp] theorem windowBody_winY (r : Rect) (s : State) : (windowBody r s).winY = BitVec.ofNat 8 r.y := rfl
@[simp] theorem windowBody_winW (r : Rect) (s : State) : (windowBody r s).winW = BitVec.ofNat 8 r.w := rfl
@[simp] theorem windowBody_winH (r : Rect) (s : State) : (windowBody r s).winH = BitVec.ofNat 8 r.h := rfl
@[simp] theorem windowBody_winCount (r : Rect) (s : State) : (windowBody r s).winCount = BitVec.ofNat 16 (r.w * r.h) := rfl
@[simp] theorem windowBody_busy (r : Rect) (s : State) : (windowBody r s).busy = s.busy := rfl
@[simp] theorem windowBody_buf (r : Rect) (s : State) : (windowBody r s).buf = s.buf := rfl
@[simp] theorem windowBody_portWord (r : Rect) (s : State) : (windowBody r s).portWord = s.portWord := rfl
@[simp] theorem windowBody_trace (r : Rect) (s : State) : (windowBody r s).trace = s.trace ++ windowEvents s.cfg r := rfl
@[simp] theorem windowBody_devices (r : Rect) (s : State) : (windowBody r s).devices = s.devices.applyAll s.cfg.wire.dcCommand (windowEvents s.cfg r) := rfl
@[simp] theorem windowBody_panel (r : Rect) (s : State) : (windowBody r s).panel = s.panel := rfl
@[simp] theorem windowBody_host (r : Rect) (s : State) : (windowBody r s).host = s.host := rfl

@[simp] theorem finish_cfg (r : Result) (s : State) : (finish r s).cfg = s.cfg := rfl
@[simp] theorem finish_phase (r : Result) (s : State) : (finish r s).phase = s.phase := rfl
@[simp] theorem finish_fatal (r : Result) (s : State) : (finish r s).fatal = s.fatal := rfl
@[simp] theorem finish_err (r : Result) (s : State) : (finish r s).err = errAfter s.err r := rfl
@[simp] theorem finish_lastResult (r : Result) (s : State) : (finish r s).lastResult = r := rfl
@[simp] theorem finish_txnOpen (r : Result) (s : State) : (finish r s).txnOpen = s.txnOpen := rfl
@[simp] theorem finish_winValid (r : Result) (s : State) : (finish r s).winValid = s.winValid := rfl
@[simp] theorem finish_winX (r : Result) (s : State) : (finish r s).winX = s.winX := rfl
@[simp] theorem finish_winY (r : Result) (s : State) : (finish r s).winY = s.winY := rfl
@[simp] theorem finish_winW (r : Result) (s : State) : (finish r s).winW = s.winW := rfl
@[simp] theorem finish_winH (r : Result) (s : State) : (finish r s).winH = s.winH := rfl
@[simp] theorem finish_winCount (r : Result) (s : State) : (finish r s).winCount = s.winCount := rfl
@[simp] theorem finish_busy (r : Result) (s : State) : (finish r s).busy = false := rfl
@[simp] theorem finish_buf (r : Result) (s : State) : (finish r s).buf = s.buf := rfl
@[simp] theorem finish_portWord (r : Result) (s : State) : (finish r s).portWord = s.portWord := rfl
@[simp] theorem finish_trace (r : Result) (s : State) : (finish r s).trace = s.trace := rfl
@[simp] theorem finish_devices (r : Result) (s : State) : (finish r s).devices = s.devices := rfl
@[simp] theorem finish_panel (r : Result) (s : State) : (finish r s).panel = s.panel := rfl
@[simp] theorem finish_host (r : Result) (s : State) : (finish r s).host = s.host.returned r := rfl

@[simp] theorem portTake_cfg (op : OpWord) (s : State) : (portTake op s).cfg = s.cfg := rfl
@[simp] theorem portTake_phase (op : OpWord) (s : State) : (portTake op s).phase = s.phase := rfl
@[simp] theorem portTake_fatal (op : OpWord) (s : State) : (portTake op s).fatal = s.fatal := rfl
@[simp] theorem portTake_err (op : OpWord) (s : State) : (portTake op s).err = s.err := rfl
@[simp] theorem portTake_lastResult (op : OpWord) (s : State) : (portTake op s).lastResult = s.lastResult := rfl
@[simp] theorem portTake_txnOpen (op : OpWord) (s : State) : (portTake op s).txnOpen = s.txnOpen := rfl
@[simp] theorem portTake_winValid (op : OpWord) (s : State) : (portTake op s).winValid = s.winValid := rfl
@[simp] theorem portTake_winX (op : OpWord) (s : State) : (portTake op s).winX = s.winX := rfl
@[simp] theorem portTake_winY (op : OpWord) (s : State) : (portTake op s).winY = s.winY := rfl
@[simp] theorem portTake_winW (op : OpWord) (s : State) : (portTake op s).winW = s.winW := rfl
@[simp] theorem portTake_winH (op : OpWord) (s : State) : (portTake op s).winH = s.winH := rfl
@[simp] theorem portTake_winCount (op : OpWord) (s : State) : (portTake op s).winCount = s.winCount := rfl
@[simp] theorem portTake_busy (op : OpWord) (s : State) : (portTake op s).busy = true := rfl
@[simp] theorem portTake_buf (op : OpWord) (s : State) : (portTake op s).buf = s.buf := rfl
@[simp] theorem portTake_portWord (op : OpWord) (s : State) : (portTake op s).portWord = op := rfl
@[simp] theorem portTake_trace (op : OpWord) (s : State) : (portTake op s).trace = s.trace := rfl
@[simp] theorem portTake_devices (op : OpWord) (s : State) : (portTake op s).devices = s.devices := rfl
@[simp] theorem portTake_panel (op : OpWord) (s : State) : (portTake op s).panel = s.panel := rfl
@[simp] theorem portTake_host (op : OpWord) (s : State) : (portTake op s).host = s.host := rfl

/-! The phases of the bring-up: what survives them (R75). -/

@[simp] theorem initBringUp_cfg (s : State) : (initBringUp s).cfg = s.cfg := rfl
@[simp] theorem initBringUp_phase (s : State) : (initBringUp s).phase = .active := rfl
@[simp] theorem initBringUp_fatal (s : State) : (initBringUp s).fatal = s.fatal := rfl
@[simp] theorem initBringUp_err (s : State) : (initBringUp s).err = s.err := rfl
@[simp] theorem initBringUp_lastResult (s : State) : (initBringUp s).lastResult = s.lastResult := rfl
@[simp] theorem initBringUp_txnOpen (s : State) : (initBringUp s).txnOpen = true := rfl
@[simp] theorem initBringUp_winValid (s : State) : (initBringUp s).winValid = false := rfl
@[simp] theorem initBringUp_winX (s : State) : (initBringUp s).winX = s.winX := rfl
@[simp] theorem initBringUp_winY (s : State) : (initBringUp s).winY = s.winY := rfl
@[simp] theorem initBringUp_winW (s : State) : (initBringUp s).winW = s.winW := rfl
@[simp] theorem initBringUp_winH (s : State) : (initBringUp s).winH = s.winH := rfl
@[simp] theorem initBringUp_winCount (s : State) : (initBringUp s).winCount = s.winCount := rfl
@[simp] theorem initBringUp_busy (s : State) : (initBringUp s).busy = s.busy := rfl
@[simp] theorem initBringUp_buf (s : State) : (initBringUp s).buf = s.buf := rfl
@[simp] theorem initBringUp_portWord (s : State) : (initBringUp s).portWord = s.portWord := rfl
@[simp] theorem initBringUp_panel (s : State) : (initBringUp s).panel = s.panel := rfl
@[simp] theorem initBringUp_host (s : State) : (initBringUp s).host = s.host := rfl

/-! The host's record of a result. -/

@[simp] theorem returned_results (h : HostAgent) (r : Result) : (h.returned r).results = h.results ++ [r] := rfl
@[simp] theorem returned_todo (h : HostAgent) (r : Result) : (h.returned r).todo = h.todo := rfl
@[simp] theorem returned_reads (h : HostAgent) (r : Result) : (h.returned r).reads = h.reads := rfl
@[simp] theorem returned_pseudoResults (h : HostAgent) (r : Result) :
    (h.returned r).pseudoResults = h.pseudoResults := rfl
@[simp] theorem returned_widths (h : HostAgent) (r : Result) : (h.returned r).widths = h.widths := rfl

@[simp] theorem errAfter_ok (b : Bool) : errAfter b .ok = b := by cases b <;> rfl
theorem errAfter_error (b : Bool) {r : Result} (h : r ≠ .ok) : errAfter b r = true := by simp [errAfter, h]

end Sys2Proof.Machine
end

