-- ==== Sys2Proof/Laws/Ops.lean ====
section
/-! SUPPORT. One spec lemma per shared operation: everything it can do when it answers a next state. -/

namespace Sys2Proof.Machine

/-! Outcomes and the issue cycle. -/

@[simp] theorem andThen_next {α β : Type} (a : α) (k : α → Res β) : andThen (.next a) k = k a := rfl

theorem andThen_eq_next {α β : Type} {o : Res α} {k : α → Res β} {b : β} :
    andThen o k = .next b ↔ ∃ a, o = .next a ∧ k a = .next b := by
  cases o <;> simp [andThen]

/-- Everything the issue cycle can do. -/
theorem issueCycle_eq_next {rule : State → Res (Result × State)} {s t : State} :
    issueCycle rule s = .next t ↔
      (s.fatal = true ∧ t = finish .eFatal s) ∨
      (s.fatal = false ∧ ∃ r u, rule s = .next (r, u) ∧ t = finish r u) := by
  unfold issueCycle
  cases hf : s.fatal
  · simp only [Bool.false_eq_true, if_false, andThen_eq_next, Prod.exists, Host.Outcome.next.injEq, false_and, true_and,
      false_or]
    constructor
    · rintro ⟨r, u, h, rfl⟩; exact ⟨r, u, h, rfl⟩
    · rintro ⟨r, u, h, rfl⟩; exact ⟨r, u, h, rfl⟩
  · simp [eq_comm]

/-- A rule that answers gives the issue cycle its result. -/
theorem issueCycle_next {rule : State → Res (Result × State)} {s u : State} {r : Result} (hf : s.fatal = false)
    (h : rule s = .next (r, u)) : issueCycle rule s = .next (finish r u) :=
  issueCycle_eq_next.mpr (.inr ⟨hf, r, u, h, rfl⟩)

/-! The fill engine. -/

theorem chunkLens_le (cap : Nat) : ∀ (fuel rem k : Nat), k ∈ chunkLens cap fuel rem → k ≤ rem ∧ k ≤ cap
  | 0, _, k, h => by simp [chunkLens] at h
  | fuel + 1, rem, k, h => by
    unfold chunkLens at h
    split at h
    · simp at h
    · rcases List.mem_cons.mp h with rfl | h
      · omega
      · have := chunkLens_le cap fuel _ k h; omega

/-- The state a fill leaves (R83). -/
def filled (c : Sample) (s : State) : State := { emit (fillEvents c s) s with buf := filledBuf c s, winValid := false }

@[simp] theorem filled_cfg (c : Sample) (s : State) : (filled c s).cfg = s.cfg := rfl
@[simp] theorem filled_phase (c : Sample) (s : State) : (filled c s).phase = s.phase := rfl
@[simp] theorem filled_fatal (c : Sample) (s : State) : (filled c s).fatal = s.fatal := rfl
@[simp] theorem filled_err (c : Sample) (s : State) : (filled c s).err = s.err := rfl
@[simp] theorem filled_lastResult (c : Sample) (s : State) : (filled c s).lastResult = s.lastResult := rfl
@[simp] theorem filled_txnOpen (c : Sample) (s : State) : (filled c s).txnOpen = s.txnOpen := rfl
@[simp] theorem filled_winX (c : Sample) (s : State) : (filled c s).winX = s.winX := rfl
@[simp] theorem filled_winY (c : Sample) (s : State) : (filled c s).winY = s.winY := rfl
@[simp] theorem filled_winW (c : Sample) (s : State) : (filled c s).winW = s.winW := rfl
@[simp] theorem filled_winH (c : Sample) (s : State) : (filled c s).winH = s.winH := rfl
@[simp] theorem filled_winCount (c : Sample) (s : State) : (filled c s).winCount = s.winCount := rfl
@[simp] theorem filled_busy (c : Sample) (s : State) : (filled c s).busy = s.busy := rfl
@[simp] theorem filled_portWord (c : Sample) (s : State) : (filled c s).portWord = s.portWord := rfl
@[simp] theorem filled_panel (c : Sample) (s : State) : (filled c s).panel = s.panel := rfl
@[simp] theorem filled_host (c : Sample) (s : State) : (filled c s).host = s.host := rfl
@[simp] theorem filled_winValid (c : Sample) (s : State) : (filled c s).winValid = false := rfl
@[simp] theorem filled_buf (c : Sample) (s : State) : (filled c s).buf = filledBuf c s := rfl
@[simp] theorem filled_trace (c : Sample) (s : State) : (filled c s).trace = s.trace ++ fillEvents c s := rfl
@[simp] theorem filled_devices (c : Sample) (s : State) :
    (filled c s).devices = s.devices.applyAll s.cfg.wire.dcCommand (fillEvents c s) := rfl

/-- FillBody answers exactly when its loop ends, and then does all of R83. -/
theorem fillBody_eq_next {c : Sample} {s t : State} :
    fillBody c s = .next t ↔ ¬(s.cfg.cap = 0 ∧ fillTotal s ≠ 0) ∧
      t = filled c s := by
  have hall : (fillChunks s).all (inBuffer s.cfg.cap 0) = true := by
    refine List.all_eq_true.mpr fun k hk => ?_
    have := chunkLens_le _ _ _ _ hk
    simp [inBuffer, this.2]
  unfold fillBody
  rw [if_pos hall]
  split
  · next h => exact Iff.intro (fun e => nomatch e) (fun e => absurd h e.1)
  · next h => exact Iff.intro (fun e => ⟨h, (Host.Outcome.next.inj e).symm⟩) (fun e => by rw [e.2]; rfl)

/-- FillBody never stops under a capacity that INIT accepts. -/
theorem fillBody_next (c : Sample) {s : State} (h : capSound s.cfg.cap) :
    fillBody c s = .next (filled c s) :=
  fillBody_eq_next.mpr ⟨fun h' => by have := h.2; omega, rfl⟩

/-! The rectangle check. -/

/-- What an operation programs is what `CheckRect` passes. -/
theorem checkRect_eq_pass {pol : OobPolicy} {x y w h : Byte} {r : Rect} :
    checkRect pol x.toNat y.toNat w.toNat h.toNat = .pass r ↔ Programs pol x y w h r := by
  unfold checkRect Programs
  simp only [Config.panelW, Config.panelH]
  split
  · simp; omega
  · split
    · next h0 h1 =>
      simp only [RectCheck.pass.injEq]
      constructor
      · rintro rfl; exact ⟨by omega, by omega, .inl ⟨h1.1, h1.2, rfl⟩⟩
      · rintro ⟨_, _, ⟨_, _, h⟩ | ⟨h, _⟩⟩
        · exact h.symm
        · exact absurd h1 h
    · next h0 h1 =>
      cases pol
      · simp; omega
      · simp; omega
      · simp only
        split
        · simp; omega
        · next h2 =>
          simp only [RectCheck.pass.injEq]
          constructor
          · rintro rfl; exact ⟨by omega, by omega, .inr ⟨h1, trivial, by omega, by omega, rfl⟩⟩
          · rintro ⟨_, _, ⟨_, _, _⟩ | ⟨_, _, _, _, h⟩⟩
            · omega
            · exact h.symm

/-- What an operation programs lies on the panel (R79, R82). -/
theorem Programs.onPanel {pol : OobPolicy} {x y w h : Byte} {r : Rect} (hp : Programs pol x y w h r) : r.onPanel := by
  obtain ⟨hw, hh, ⟨_, _, rfl⟩ | ⟨_, _, _, _, rfl⟩⟩ := hp
  · exact ⟨hw, hh, by assumption, by assumption⟩
  · refine ⟨?_, ?_, ?_, ?_⟩ <;> simp only [Config.panelW, Config.panelH] <;> omega

/-- What `CheckRect` reports agrees with the priority list's reading of it. -/
theorem checkRect_result (pol : OobPolicy) (x y w h : Byte) :
    (checkRect pol x.toNat y.toNat w.toNat h.toNat = .zeroExtent ∧ rectResult pol x y w h = .eZeroExtent) ∨
    (checkRect pol x.toNat y.toNat w.toNat h.toNat = .bounds ∧ rectResult pol x y w h = .eBounds) ∨
    ∃ r, checkRect pol x.toNat y.toNat w.toNat h.toNat = .pass r ∧ rectResult pol x y w h = .ok := by
  have hw : w = 0#8 ↔ w.toNat = 0 := by constructor <;> intro h <;> [simp [h]; exact BitVec.eq_of_toNat_eq (by simpa)]
  have hh : h = 0#8 ↔ h.toNat = 0 := by constructor <;> intro h <;> [simp [h]; exact BitVec.eq_of_toNat_eq (by simpa)]
  unfold checkRect rectResult
  simp only [Config.panelW, Config.panelH, hw, hh]
  split
  · simp
  · split
    · simp
    · cases pol
      · simp
      · simp
      · simp only [true_and]
        split
        · rw [if_neg (by omega)]; simp
        · rw [if_pos (by omega)]; simp

/-- Everything the rectangle check can do for an operation. -/
theorem withRect_eq_next {x y w h : Byte} {s u : State} {k : Rect → Res (Result × State)} {r : Result} :
    withRect x y w h s k = .next (r, u) ↔
      (rectResult s.cfg.oob x y w h = .eZeroExtent ∧ r = .eZeroExtent ∧ u = s) ∨
      (rectResult s.cfg.oob x y w h = .eBounds ∧ r = .eBounds ∧
        u = { s with fatal := s.fatal || decide (s.cfg.oob = .fatal) }) ∨
      (rectResult s.cfg.oob x y w h = .ok ∧ ∃ q, Programs s.cfg.oob x y w h q ∧ k q = .next (r, u)) := by
  unfold withRect
  rcases checkRect_result s.cfg.oob x y w h with ⟨hc, hr⟩ | ⟨hc, hr⟩ | ⟨q, hc, hr⟩
  · simp [hc, hr, raise, eq_comm]
  · simp [hc, hr, raise, raiseBounds, eq_comm]
  · simp only [hc, hr, reduceCtorEq, false_and, true_and, false_or]
    constructor
    · exact fun h => ⟨q, checkRect_eq_pass.mp hc, h⟩
    · rintro ⟨q', hq', h⟩
      have := hc.symm.trans (checkRect_eq_pass.mpr hq')
      simp only [RectCheck.pass.injEq] at this
      exact this ▸ h

/-- An operation whose rectangle passes goes on with it. -/
theorem withRect_programs {x y w h : Byte} {s : State} {k : Rect → Res (Result × State)} {q : Rect}
    (hq : Programs s.cfg.oob x y w h q) : withRect x y w h s k = k q := by
  unfold withRect; rw [checkRect_eq_pass.mpr hq]

end Sys2Proof.Machine
end

