-- ==== Sys2Proof/Laws/Memory.lean ====
section
/-! SUPPORT. The staging buffer and the other lists by key: a store is read back, leaves every other key, and keeps the
canonical form; the fill engine's bulk write and range read; the chunk lengths. -/

namespace Sys2Proof.Machine

section Keys
variable {α : Type}

theorem keysRise_tail {a : Nat × α} {l : List (Nat × α)} (h : keysRise (a :: l) = true) : keysRise l = true := by
  cases l with
  | nil => rfl
  | cons b t => simp only [keysRise, Bool.and_eq_true] at h; exact h.2

theorem keysRise_head {a : Nat × α} : ∀ {l : List (Nat × α)}, keysRise (a :: l) = true → ∀ c ∈ l, a.1 < c.1
  | [], _, c, hc => by cases hc
  | b :: t, h, c, hc => by
    simp only [keysRise, Bool.and_eq_true, decide_eq_true_eq] at h
    rcases List.mem_cons.mp hc with rfl | hc
    · exact h.1
    · exact Nat.lt_trans h.1 (keysRise_head h.2 c hc)

theorem keysRise_cons {a : Nat × α} {l : List (Nat × α)} (hl : keysRise l = true) (h : ∀ c ∈ l, a.1 < c.1) :
    keysRise (a :: l) = true := by
  cases l with
  | nil => rfl
  | cons b t => simp only [keysRise, Bool.and_eq_true, decide_eq_true_eq]; exact ⟨h b (by simp), hl⟩

theorem keysRise_append {l m : List (Nat × α)} (hl : keysRise l = true) (hm : keysRise m = true)
    (h : ∀ a ∈ l, ∀ b ∈ m, a.1 < b.1) : keysRise (l ++ m) = true := by
  induction l with
  | nil => exact hm
  | cons a t ih =>
    refine keysRise_cons (ih (keysRise_tail hl) fun x hx => h x (by simp [hx])) fun c hc => ?_
    rcases List.mem_append.mp hc with hc | hc
    · exact keysRise_head hl c hc
    · exact h a (by simp) c hc

theorem keysRise_filter (p : Nat × α → Bool) : ∀ {l : List (Nat × α)}, keysRise l = true → keysRise (l.filter p) = true
  | [], _ => rfl
  | a :: t, h => by
    simp only [List.filter_cons]
    split
    · exact keysRise_cons (keysRise_filter p (keysRise_tail h)) fun c hc => keysRise_head h c (List.mem_filter.mp hc).1
    · exact keysRise_filter p (keysRise_tail h)

theorem mem_storeKey {k : Nat} {v : α} {c : Nat × α} : ∀ {l : List (Nat × α)}, c ∈ storeKey k v l → c = (k, v) ∨ c ∈ l
  | [], h => by simp [storeKey] at h; exact .inl h
  | (a, u) :: t, h => by
    unfold storeKey at h
    split at h
    · rcases List.mem_cons.mp h with rfl | h
      · simp
      · rcases mem_storeKey h with h | h <;> simp [h]
    · split at h
      · rcases List.mem_cons.mp h with rfl | h <;> simp_all
      · rcases List.mem_cons.mp h with rfl | h <;> simp_all

/-- A store keeps the canonical form. -/
theorem keysRise_storeKey (k : Nat) (v : α) : ∀ {l : List (Nat × α)}, keysRise l = true → keysRise (storeKey k v l) = true
  | [], _ => rfl
  | (a, u) :: t, h => by
    have hh := keysRise_head h
    unfold storeKey
    split
    · next hlt =>
      refine keysRise_cons (keysRise_storeKey k v (keysRise_tail h)) fun c hc => ?_
      rcases mem_storeKey hc with rfl | hc
      · exact hlt
      · exact hh c hc
    · split
      · next heq => exact keysRise_cons (keysRise_tail h) fun c hc => heq ▸ hh c hc
      · refine keysRise_cons h fun c hc => ?_
        rcases List.mem_cons.mp hc with rfl | hc
        · simp only; omega
        · have := hh c hc; simp only at this ⊢; omega

/-- A store is read back, and leaves every other key. -/
theorem lookupKey_storeKey (k j : Nat) (v : α) : ∀ {l : List (Nat × α)}, keysRise l = true →
    lookupKey j (storeKey k v l) = if j = k then some v else lookupKey j l
  | [], _ => by simp [storeKey, lookupKey, eq_comm]
  | (a, u) :: t, h => by
    unfold storeKey
    split
    · next hlt =>
      simp only [lookupKey]
      rw [lookupKey_storeKey k j v (keysRise_tail h)]
      by_cases hj : a = j
      · simp [hj]
        omega
      · simp [hj]
    · split
      · next heq =>
        subst heq
        by_cases hj : j = a
        · simp [lookupKey, hj]
        · simp [lookupKey, hj, Ne.symm hj]
      · by_cases hj : j = k
        · simp [lookupKey, hj]
        · simp [lookupKey, hj, Ne.symm hj]

theorem lookupKey_append (k : Nat) : ∀ (l m : List (Nat × α)),
    lookupKey k (l ++ m) = (lookupKey k l).or (lookupKey k m)
  | [], _ => by simp [lookupKey]
  | (a, v) :: t, m => by
    simp only [List.cons_append, lookupKey]
    split
    · rfl
    · exact lookupKey_append k t m

theorem lookupKey_filter_ge {n k : Nat} (h : n ≤ k) : ∀ (l : List (Nat × α)),
    lookupKey k (l.filter fun c => decide (n ≤ c.1)) = lookupKey k l
  | [] => rfl
  | (a, v) :: t => by
    simp only [List.filter_cons, lookupKey]
    split
    · simp only [lookupKey]; split <;> [rfl; exact lookupKey_filter_ge h t]
    · next h' =>
      rw [if_neg (by simp at h'; omega)]; exact lookupKey_filter_ge h t

theorem lookupKey_map_range' (f : Nat → α) (k : Nat) : ∀ (n i : Nat),
    lookupKey k ((List.range' i n).map fun j => (j, f j)) = if i ≤ k ∧ k < i + n then some (f k) else none
  | 0, i => by simp [lookupKey]
  | n + 1, i => by
    simp only [List.range'_succ, List.map_cons, lookupKey]
    rw [lookupKey_map_range' f k n (i + 1)]
    split
    · next h => subst h; simp
    · next h =>
      by_cases h' : i + 1 ≤ k ∧ k < i + 1 + n
      · rw [if_pos h', if_pos (by omega)]
      · rw [if_neg h', if_neg (by omega)]

theorem keysRise_map_range' (f : Nat → α) : ∀ (n i : Nat), keysRise ((List.range' i n).map fun j => (j, f j)) = true
  | 0, _ => rfl
  | n + 1, i => by
    simp only [List.range'_succ, List.map_cons]
    refine keysRise_cons (keysRise_map_range' f n (i + 1)) fun c hc => ?_
    obtain ⟨j, hj, rfl⟩ := List.mem_map.mp hc
    rw [List.mem_range'_1] at hj
    simp only; omega

theorem lookupKey_dropWhile {i k : Nat} (h : i ≤ k) : ∀ (l : List (Nat × α)),
    lookupKey k (l.dropWhile fun c => decide (c.1 < i)) = lookupKey k l
  | [] => rfl
  | (a, v) :: t => by
    simp only [List.dropWhile_cons]
    split
    · next h' => simp only [lookupKey]; rw [if_neg (by simp at h'; omega)]; exact lookupKey_dropWhile h t
    · rfl

theorem keysRise_dropWhile (p : Nat × α → Bool) : ∀ {l : List (Nat × α)}, keysRise l = true →
    keysRise (l.dropWhile p) = true
  | [], _ => rfl
  | a :: t, h => by
    simp only [List.dropWhile_cons]
    split
    · exact keysRise_dropWhile p (keysRise_tail h)
    · exact h

theorem lookupKey_eq_none {k : Nat} : ∀ {l : List (Nat × α)}, (∀ c ∈ l, c.1 ≠ k) → lookupKey k l = none
  | [], _ => rfl
  | (a, v) :: t, h => by
    simp only [lookupKey]
    rw [if_neg (h (a, v) (by simp))]
    exact lookupKey_eq_none fun c hc => h c (by simp [hc])

end Keys

/-! The staging buffer. -/

theorem Mem.wf_iff {cap : Nat} {m : Mem} : m.wf cap = true ↔ keysRise m = true ∧ ∀ c ∈ m, c.1 < cap := by
  simp [Mem.wf]

/-- The single-byte write keeps the canonical form. -/
theorem Mem.wf_writeByte {cap : Nat} {m : Mem} {i : Nat} (v : Byte) (h : m.wf cap = true) (hi : i < cap) :
    (m.writeByte i v).wf cap = true := by
  rw [Mem.wf_iff] at h ⊢
  refine ⟨keysRise_storeKey i v h.1, fun c hc => ?_⟩
  rcases mem_storeKey hc with rfl | hc
  · exact hi
  · exact h.2 c hc

/-- A byte written is read back, and every other byte is kept. -/
theorem Mem.readByte_writeByte {m : Mem} {i j : Nat} {v : Byte} (h : keysRise m = true) :
    (m.writeByte i v).readByte j = if j = i then v else m.readByte j := by
  unfold Mem.readByte Mem.writeByte
  rw [lookupKey_storeKey i j v h]
  split <;> rfl

/-- The bulk write of the fill engine keeps the canonical form. -/
theorem Mem.wf_fillPattern {cap n : Nat} {m : Mem} (c : Sample) (h : m.wf cap = true) (hn : n ≤ cap) :
    (m.fillPattern n c).wf cap = true := by
  rw [Mem.wf_iff] at h ⊢
  unfold Mem.fillPattern
  rw [List.range_eq_range']
  refine ⟨keysRise_append (keysRise_map_range' _ n 0) (keysRise_filter _ h.1) fun a ha b hb => ?_, fun x hx => ?_⟩
  · obtain ⟨j, hj, rfl⟩ := List.mem_map.mp ha
    rw [List.mem_range'_1] at hj
    have := (List.mem_filter.mp hb).2
    simp at this ⊢; omega
  · rcases List.mem_append.mp hx with hx | hx
    · obtain ⟨j, hj, rfl⟩ := List.mem_map.mp hx
      rw [List.mem_range'_1] at hj
      simp only; omega
    · exact h.2 x (List.mem_filter.mp hx).1

/-- What the buffer reads as after the fill engine's bulk write. -/
theorem Mem.readByte_fillPattern (m : Mem) (n i : Nat) (c : Sample) :
    (m.fillPattern n c).readByte i = if i < n then patternByte c i else m.readByte i := by
  unfold Mem.readByte Mem.fillPattern
  rw [List.range_eq_range', lookupKey_append, lookupKey_map_range']
  by_cases h : i < n
  · simp [h]
  · simp [h, lookupKey_filter_ge (Nat.le_of_not_lt h)]

/-- A second fill of the same length overwrites the first. -/
theorem Mem.fillPattern_fillPattern (m : Mem) (n : Nat) (c d : Sample) :
    (m.fillPattern n c).fillPattern n d = m.fillPattern n d := by
  unfold Mem.fillPattern
  rw [List.filter_append, List.filter_filter]
  have : ((List.range n).map fun i => (i, patternByte c i)).filter (fun cell => decide (n ≤ cell.1)) = [] := by
    rw [List.filter_eq_nil_iff]
    intro a ha
    obtain ⟨j, hj, rfl⟩ := List.mem_map.mp ha
    have := List.mem_range.mp hj
    simp; omega
  rw [this]; simp

theorem Mem.headByte_dropWhile {m : Mem} {i : Nat} (h : keysRise m = true) :
    Mem.headByte (m.dropWhile fun c => decide (c.1 < i)) i = m.readByte i := by
  unfold Mem.readByte
  rw [← lookupKey_dropWhile (Nat.le_refl i) m]
  have hd := keysRise_dropWhile (fun c : Host.Cell => decide (c.1 < i)) h
  have hge : ∀ a t, (m.dropWhile fun c => decide (c.1 < i)) = a :: t → ¬a.1 < i := fun a t ht hlt => by
    have := List.head?_dropWhile_not (fun c : Host.Cell => decide (c.1 < i)) m
    rw [ht] at this; simp at this; omega
  cases hm : m.dropWhile fun c => decide (c.1 < i) with
  | nil => rfl
  | cons a t =>
    obtain ⟨a, b⟩ := a
    rw [hm] at hd
    simp only [Mem.headByte, lookupKey]
    split
    · rfl
    · rw [lookupKey_eq_none fun c hc => ?_]; rfl
      have h1 := keysRise_head hd c hc
      have h2 := hge _ _ hm
      simp only at h1 h2; omega

/-- The range read is the byte reads in order (R13). -/
theorem Mem.readRange_eq {m : Mem} : ∀ (n i : Nat), keysRise m = true → m.readRange i n = (List.range' i n).map m.readByte := by
  intro n
  induction n generalizing m with
  | zero => intro i _; rfl
  | succ n ih =>
    intro i h
    simp only [Mem.readRange, List.range'_succ, List.map_cons, Mem.headByte_dropWhile h]
    rw [ih (i + 1) (keysRise_dropWhile _ h)]
    refine congrArg _ (List.map_congr_left fun j hj => ?_)
    rw [List.mem_range'_1] at hj
    unfold Mem.readByte
    rw [lookupKey_dropWhile (by omega)]

theorem Mem.readRange_fillPattern_from (c : Sample) (rest : Mem) : ∀ (k i n : Nat), k ≤ n →
    Mem.readRange ((List.range' i n).map (fun j => (j, patternByte c j)) ++ rest) i k
      = (List.range' i k).map (patternByte c)
  | 0, _, _, _ => rfl
  | k + 1, i, n + 1, h => by
    simp only [Mem.readRange, List.range'_succ, List.map_cons, List.cons_append, List.dropWhile_cons, Nat.lt_irrefl,
      decide_false, Bool.false_eq_true, if_false]
    simp only [Mem.headByte, if_true, List.cons.injEq, true_and]
    have ih := readRange_fillPattern_from c rest k (i + 1) n (by omega)
    cases k with
    | zero => rfl
    | succ k =>
      rw [← ih]
      simp only [Mem.readRange, List.dropWhile_cons, Nat.lt_succ_self, decide_true, if_true]

/-- What the fill engine reads back, whatever the buffer held before: the start of the run of the color (R87). -/
theorem Mem.readRange_fillPattern (m : Mem) {k n : Nat} (c : Sample) (h : k ≤ n) :
    (m.fillPattern n c).readRange 0 k = patternBytes c k := by
  unfold Mem.fillPattern patternBytes
  rw [List.range_eq_range', List.range_eq_range']
  exact Mem.readRange_fillPattern_from c _ k 0 n h

/-! Chunks (R83, R87). -/

/-- The chunk lengths in closed form: whole buffers, then the remainder if there is one. -/
theorem chunkLens_eq {cap : Nat} (hc : 0 < cap) : ∀ (fuel rem : Nat), rem ≤ fuel →
    chunkLens cap fuel rem = List.replicate (rem / cap) cap ++ (if rem % cap = 0 then [] else [rem % cap])
  | 0, rem, h => by
    obtain rfl : rem = 0 := by omega
    simp [chunkLens]
  | fuel + 1, rem, h => by
    unfold chunkLens
    split
    · next h0 => subst h0; simp
    · next h0 =>
      rw [chunkLens_eq hc fuel _ (by omega)]
      rcases Nat.lt_or_ge rem cap with hlt | hge
      · have e1 : min rem cap = rem := by omega
        rw [e1]; simp [Nat.mod_eq_of_lt hlt, Nat.div_eq_of_lt hlt, h0]
      · have e1 : min rem cap = cap := by omega
        rw [e1, ← Nat.mod_eq_sub_mod hge, Nat.div_eq_sub_div hc hge, List.replicate_succ, List.cons_append]

theorem chunkLens_sum {cap : Nat} (hc : 0 < cap) : ∀ (fuel rem : Nat), rem ≤ fuel → (chunkLens cap fuel rem).sum = rem
  | 0, rem, h => by
    obtain rfl : rem = 0 := by omega
    rfl
  | fuel + 1, rem, h => by
    unfold chunkLens
    split
    · next h0 => subst h0; rfl
    · rw [List.sum_cons, chunkLens_sum hc fuel _ (by omega)]; omega

/-- The number of chunks is ceil(total / cap) (R87). -/
theorem chunkLens_length {cap : Nat} (hc : 0 < cap) (n : Nat) : (chunkLens cap n n).length = chunkCount cap n := by
  rw [chunkLens_eq hc n n (Nat.le_refl n)]
  unfold chunkCount
  have hd := Nat.div_add_mod n cap
  have hm := Nat.mod_lt n hc
  simp only [List.length_append, List.length_replicate]
  split
  · next h =>
    have : n + cap - 1 = cap * (n / cap) + (cap - 1) := by omega
    rw [this, Nat.mul_add_div hc, Nat.div_eq_of_lt (by omega : cap - 1 < cap)]
    simp
  · next h =>
    have : n + cap - 1 = cap * (n / cap + 1) + (n % cap - 1) := by rw [Nat.mul_add]; omega
    rw [this, Nat.mul_add_div hc, Nat.div_eq_of_lt (by omega : n % cap - 1 < cap)]
    simp

/-- The events of a fill do not depend on what the buffer held: each chunk is the start of the run of the color (R87). -/
theorem fillEvents_eq (c : Sample) (s : State) :
    fillEvents c s = .cmd s.cfg.panelCmd.ramwr :: (fillChunks s).map fun k => Event.data (patternBytes c k) := by
  unfold fillEvents
  refine congrArg _ (List.map_congr_left fun k hk => ?_)
  have := chunkLens_le _ _ _ _ hk
  rw [filledBuf, Mem.readRange_fillPattern _ _ (by omega)]

/-- The chunks of a fill of at least one byte: whole buffers, then one last chunk that is not empty. -/
theorem chunkLens_last {cap : Nat} (hc : 0 < cap) {n : Nat} (hn : 0 < n) :
    chunkLens cap n n = List.replicate ((n - 1) / cap) cap ++ [n - (n - 1) / cap * cap] := by
  rw [chunkLens_eq hc n n (Nat.le_refl n)]
  have hd := Nat.div_add_mod n cap
  have hm := Nat.mod_lt n hc
  split
  · next h =>
    obtain ⟨q, hq⟩ := Nat.exists_eq_succ_of_ne_zero (n := n / cap) fun h0 => by rw [h0] at hd; omega
    rw [Nat.succ_eq_add_one] at hq
    have e : (n - 1) / cap = q := by
      have : n - 1 = cap * q + (cap - 1) := by rw [hq, Nat.mul_add] at hd; omega
      rw [this, Nat.mul_add_div hc, Nat.div_eq_of_lt (by omega : cap - 1 < cap)]; simp
    have e2 : n - q * cap = cap := by rw [hq, Nat.mul_add, Nat.mul_comm cap q] at hd; omega
    rw [e, hq, e2, List.replicate_succ', List.append_nil]
  · next h =>
    have e : (n - 1) / cap = n / cap := by
      have : n - 1 = cap * (n / cap) + (n % cap - 1) := by omega
      rw [this, Nat.mul_add_div hc, Nat.div_eq_of_lt (by omega : n % cap - 1 < cap)]; simp
    have e2 : n - n / cap * cap = n % cap := by rw [Nat.mul_comm]; omega
    rw [e, e2]

@[simp] theorem patternBytes_length (c : Sample) (n : Nat) : (patternBytes c n).length = n := by simp [patternBytes]

/-- An even start of the run of a color is the color's two bytes, over and over (R86). -/
theorem patternBytes_two_mul (c : Sample) : ∀ n : Nat, patternBytes c (2 * n) = samplePairs c n
  | 0 => rfl
  | n + 1 => by
    have e : 2 * (n + 1) = 2 * n + 1 + 1 := by omega
    have ih := patternBytes_two_mul c n
    unfold patternBytes samplePairs at *
    rw [e, List.range_succ, List.range_succ, List.map_append, List.map_append, ih, List.replicate_succ', List.flatten_append]
    have h1 : 2 * n % 2 = 0 := by omega
    have h2 : (2 * n + 1) % 2 ≠ 0 := by omega
    simp [patternByte, h1]

/-- The chunks of a fill of at least one byte. -/
theorem fillChunks_last {s : State} (hc : 0 < s.cfg.cap) (h : 0 < fillTotal s) :
    fillChunks s = List.replicate ((fillTotal s - 1) / s.cfg.cap) s.cfg.cap ++
      [fillTotal s - (fillTotal s - 1) / s.cfg.cap * s.cfg.cap] := chunkLens_last hc h

/-- Black is a run of 0x00 bytes. -/
theorem patternBytes_zero (k : Nat) : patternBytes 0x0000#16 k = List.replicate k 0x00#8 := by
  unfold patternBytes
  rw [List.eq_replicate_iff]
  refine ⟨by simp, fun b hb => ?_⟩
  obtain ⟨j, _, rfl⟩ := List.mem_map.mp hb
  unfold patternByte; split <;> rfl

/-- INIT's clear sends two bytes for each of the 57600 pixels. -/
theorem fillTotal_full (s : State) : fillTotal (windowBody Rect.full s) = 115200 := by
  rw [fillTotal, windowBody_winCount]; rfl

/-- The reset buffer is in canonical form. -/
theorem reset_buf_wf (c : Config) : (State.resetWith c).buf.wf c.cap = true := rfl

end Sys2Proof.Machine
end

