-- ==== Sys2Proof/Laws/Devices.lean ====
section
/-! SUPPORT. What events do to the lines and the delay: which events touch which line, and the time of a list of delays. -/

namespace Sys2Proof.Machine

@[simp] theorem applyAll_nil (b : Bool) (d : Devices) : d.applyAll b [] = d := rfl

@[simp] theorem applyAll_cons (b : Bool) (d : Devices) (e : Event) (es : List Event) :
    d.applyAll b (e :: es) = (d.apply b e).applyAll b es := rfl

theorem applyAll_append (b : Bool) (d : Devices) (es fs : List Event) :
    d.applyAll b (es ++ fs) = (d.applyAll b es).applyAll b fs := by
  simp [Devices.applyAll, List.foldl_append]

/-- The last event of a list decides data-select when it is a `Data` event and the rest are transfers. -/
theorem applyAll_data (b : Bool) : ∀ (ls : List (List Byte)) (d : Devices),
    d.applyAll b (ls.map .data) = if ls = [] then d else { d with dc := { d.dc with level := !b } }
  | [], _ => rfl
  | l :: ls, d => by
    simp only [List.map_cons, applyAll_cons, applyAll_data b ls]
    simp only [Devices.apply, Devices.drive, Devices.setLine, Devices.line, reduceCtorEq, if_false]
    split <;> rfl

/-- A fill of at least one byte leaves data-select in data mode and moves no other line. -/
theorem applyAll_fillEvents (b : Bool) (c : Sample) (s : State) (d : Devices) (hc : 0 < s.cfg.cap) (h : 0 < fillTotal s) :
    d.applyAll b (fillEvents c s) = { d with dc := { d.dc with level := !b } } := by
  rw [fillEvents_eq, applyAll_cons]
  have : (fillChunks s).map (fun k => Event.data (patternBytes c k)) = ((fillChunks s).map (patternBytes c)).map .data := by
    simp
  rw [this, applyAll_data, if_neg (by rw [fillChunks_last hc h]; simp)]
  simp [Devices.apply, Devices.drive, Devices.setLine, Devices.line]

/-- Command and `Data` events move nothing but the level of data-select. -/
theorem applyAll_transfers (b : Bool) : ∀ (es : List Event) (d : Devices),
    (∀ e ∈ es, (∃ k, e = .cmd k) ∨ ∃ bs, e = .data bs) →
    ∃ v, d.applyAll b es = { d with dc := { d.dc with level := v } }
  | [], d, _ => ⟨d.dc.level, rfl⟩
  | e :: es, d, h => by
    rw [applyAll_cons]
    obtain ⟨v, hv⟩ := applyAll_transfers b es (d.apply b e) fun x hx => h x (by simp [hx])
    rw [hv]
    rcases h e (by simp) with ⟨k, rfl⟩ | ⟨bs, rfl⟩ <;> exact ⟨v, rfl⟩

theorem sendCmdEvents_transfers (c : Config) (n : PanelCmd) :
    ∀ e ∈ sendCmdEvents c n, (∃ k, e = .cmd k) ∨ ∃ bs, e = .data bs := by
  intro e he
  unfold sendCmdEvents at he
  rcases List.mem_cons.mp he with rfl | he
  · exact .inl ⟨_, rfl⟩
  · split at he
    · cases he
    · exact .inr ⟨_, List.mem_singleton.mp he⟩

/-- `SendCmd` moves nothing but the level of data-select. -/
theorem sendCmd_lines (n : PanelCmd) (s : State) :
    ∃ v, (sendCmd n s).devices = { s.devices with dc := { s.devices.dc with level := v } } :=
  applyAll_transfers _ _ _ (sendCmdEvents_transfers s.cfg n)

theorem sendCmds_lines (ns : List PanelCmd) (s : State) :
    ∃ v, (sendCmds ns s).devices = { s.devices with dc := { s.devices.dc with level := v } } := by
  refine applyAll_transfers _ _ _ fun e he => ?_
  obtain ⟨n, _, he⟩ := List.mem_flatMap.mp he
  exact sendCmdEvents_transfers s.cfg n e he

/-- The lines and the delay at the end of the bring-up, before the clear: everything but the level of data-select (R37, R75,
R123). -/
theorem initBringUp_devices (s : State) :
    ∃ v e, s.devices.elapsed + (s.cfg.tRstHigh + s.cfg.tRstLow + s.cfg.tRstRecover + s.cfg.tSlpout + s.cfg.tDispon) ≤ e ∧
      (initBringUp s).devices =
        { rst := ⟨true, true⟩, cs := ⟨true, false⟩, dc := ⟨true, v⟩, det := ⟨true, s.cfg.detLevel⟩,
          elapsed := e, delays := s.devices.delays + 5 } := by
  have h1 : (initReset s).devices =
      { rst := ⟨true, true⟩, cs := ⟨true, true⟩, dc := ⟨true, true⟩, det := ⟨true, s.cfg.detLevel⟩,
        elapsed := s.devices.elapsed + (s.cfg.tRstHigh + Config.freeDelayExtra s.devices.delays)
          + (s.cfg.tRstLow + Config.freeDelayExtra (s.devices.delays + 1))
          + (s.cfg.tRstRecover + Config.freeDelayExtra (s.devices.delays + 2)),
        delays := s.devices.delays + 3 } := rfl
  obtain ⟨v1, e1⟩ := sendCmds_lines configCommands (openTxn { initReset s with phase := .configuring })
  obtain ⟨v2, e2⟩ := sendCmd_lines .invon (sendCmds configCommands (openTxn { initReset s with phase := .configuring }))
  obtain ⟨v3, e3⟩ := sendCmd_lines .slpout { initConfigure (initReset s) with phase := .sleeping }
  obtain ⟨v4, e4⟩ := sendCmd_lines .dispon (emit [.delay s.cfg.tSlpout]
    (sendCmd .slpout { initConfigure (initReset s) with phase := .sleeping }))
  rw [e1] at e2
  have e5 : ({ initConfigure (initReset s) with phase := .sleeping } : State).devices = _ := e2
  rw [e5] at e3
  rw [emit_devices, e3] at e4
  have e6 : (initBringUp s).devices = (sendCmd .dispon (emit [.delay s.cfg.tSlpout]
    (sendCmd .slpout { initConfigure (initReset s) with phase := .sleeping }))).devices.apply s.cfg.wire.dcCommand (.delay s.cfg.tDispon) := rfl
  rw [e6, e4, openTxn_devices]
  simp only [h1, applyAll_cons, applyAll_nil, Devices.apply, Devices.drive, Devices.setLine, Devices.line]
  exact ⟨v4, _, by omega, rfl⟩

end Sys2Proof.Machine
end

