-- ==== Sys2Proof/Laws/Exec.lean ====
section
/-! SUPPORT. What executing an operation can do, once for all operations: the E_FATAL answer, a rejection by its own checks, or
its effect. -/

namespace Sys2Proof.Machine

/-- The rule of an operation. -/
def ruleOf (i : Instr) : State → Res (Result × State) :=
  match i with
  | .nop => nopRule
  | .init => initRule
  | .txnBegin => txnBeginRule
  | .txnEnd => txnEndRule
  | .setWindow x y w h => setWindowRule x y w h
  | .fill c => fillRule c
  | .drawRect x y w h c => drawRectRule x y w h c

theorem exec_eq_issueCycle (i : Instr) (s : State) : exec i s = issueCycle (ruleOf i) s := by
  cases i <;> rfl

/-- What a rejection does to FATAL (R99). -/
def blame (r : Result) (s : State) : State :=
  { s with fatal := s.fatal || decide (r = .eConfig) || (decide (r = .eBounds) && decide (s.cfg.oob = .fatal)) }

theorem blame_eq_self {r : Result} (s : State) (h1 : r ≠ .eConfig) (h2 : r ≠ .eBounds) : blame r s = s := by
  simp [blame, h1, h2]

/-- The effect of an operation whose checks pass, before the status update. -/
def Effect (i : Instr) (s u : State) : Prop :=
  match i with
  | .nop => u = s
  | .init => u = closeTxn (filled 0x0000#16 (windowBody Rect.full (initBringUp s)))
  | .txnBegin => u = openTxn s
  | .txnEnd => u = { closeTxn s with winValid := false }
  | .setWindow x y w h => ∃ q, Programs s.cfg.oob x y w h q ∧ u = windowBody q s
  | .fill c => ¬(s.cfg.cap = 0 ∧ fillTotal s ≠ 0) ∧ u = filled c s
  | .drawRect x y w h c => ∃ q, Programs s.cfg.oob x y w h q ∧
      ¬(s.cfg.cap = 0 ∧ fillTotal (windowBody q (openTxn s)) ≠ 0) ∧
      u = closeTxn (filled c (windowBody q (openTxn s)))

theorem capMisconfigured_iff (cap : Nat) : capMisconfigured cap = true ↔ (cap % 2 = 1 ∨ cap < 2) := by
  simp [capMisconfigured]

theorem capSound_iff (cap : Nat) : capSound cap ↔ ¬(cap % 2 = 1 ∨ cap < 2) := by
  unfold capSound; omega

theorem rectResult_cases (pol : OobPolicy) (x y w h : Byte) :
    rectResult pol x y w h = .ok ∨ rectResult pol x y w h = .eZeroExtent ∨ rectResult pol x y w h = .eBounds := by
  unfold rectResult; split <;> [simp; (split <;> [simp; (split <;> simp)])]

/-- A rule that raises `e`. -/
theorem rejects {o : Res (Result × State)} {e r : Result} {s u : State} {E : Prop} (he : e ≠ .ok)
    (ho : o = .next (e, blame e s)) :
    o = .next (r, u) ↔ (e ≠ .ok ∧ r = e ∧ u = blame r s) ∨ (e = .ok ∧ r = .ok ∧ E) := by
  subst ho
  simp only [Host.Outcome.next.injEq, Prod.mk.injEq, he, ne_eq, not_false_eq_true, true_and, false_and, or_false]
  constructor
  · rintro ⟨rfl, rfl⟩; exact ⟨rfl, rfl⟩
  · rintro ⟨rfl, rfl⟩; exact ⟨rfl, rfl⟩

/-- A rule whose checks pass. -/
theorem passes {o : Res (Result × State)} {r : Result} {s u : State} {E : Prop}
    (ho : o = .next (r, u) ↔ r = .ok ∧ E) :
    o = .next (r, u) ↔ (Result.ok ≠ .ok ∧ r = .ok ∧ u = blame r s) ∨ (Result.ok = .ok ∧ r = .ok ∧ E) := by
  rw [ho]; simp

theorem raise_blame {e : Result} (s : State) (h1 : e ≠ .eConfig) (h2 : e ≠ .eBounds) :
    raise e s = .next (e, blame e s) := by rw [blame_eq_self s h1 h2]; rfl

theorem returnOk_iff {v u : State} {r : Result} : returnOk v = .next (r, u) ↔ r = .ok ∧ u = v := by
  simp [returnOk, eq_comm]

/-- The rectangle check of an operation, as a rejection or as its rectangle. -/
theorem withRect_iff {x y w h : Byte} {s u : State} {r : Result} {k : Rect → Res (Result × State)}
    {F : Rect → Prop} (hk : ∀ q, k q = .next (r, u) ↔ r = .ok ∧ F q) :
    withRect x y w h s k = .next (r, u) ↔
      (rectResult s.cfg.oob x y w h ≠ .ok ∧ r = rectResult s.cfg.oob x y w h ∧ u = blame r s) ∨
      (rectResult s.cfg.oob x y w h = .ok ∧ r = .ok ∧ ∃ q, Programs s.cfg.oob x y w h q ∧ F q) := by
  rw [withRect_eq_next]
  rcases rectResult_cases s.cfg.oob x y w h with hr | hr | hr
  · simp only [hr, hk, reduceCtorEq, false_and, false_or, ne_eq, not_true_eq_false, true_and]
    constructor
    · rintro ⟨q, hq, rfl, hF⟩; exact ⟨rfl, q, hq, hF⟩
    · rintro ⟨rfl, q, hq, hF⟩; exact ⟨q, hq, rfl, hF⟩
  · rw [hr]
    constructor
    · rintro (⟨_, rfl, rfl⟩ | ⟨h, _⟩ | ⟨h, _⟩)
      · exact .inl ⟨by decide, rfl, (blame_eq_self _ (by decide) (by decide)).symm⟩
      · cases h
      · cases h
    · rintro (⟨_, rfl, rfl⟩ | ⟨h, _⟩)
      · exact .inl ⟨rfl, rfl, blame_eq_self _ (by decide) (by decide)⟩
      · cases h
  · rw [hr]
    constructor
    · rintro (⟨h, _⟩ | ⟨_, rfl, rfl⟩ | ⟨h, _⟩)
      · cases h
      · exact .inl ⟨by decide, rfl, by simp [blame]⟩
      · cases h
    · rintro (⟨_, rfl, rfl⟩ | ⟨h, _⟩)
      · exact .inr (.inl ⟨rfl, rfl, by simp [blame]⟩)
      · cases h

/-- Everything an operation's rule can do. -/
theorem ruleOf_eq_next {i : Instr} {s u : State} {r : Result} :
    ruleOf i s = .next (r, u) ↔
      (ownResult i s ≠ .ok ∧ r = ownResult i s ∧ u = blame r s) ∨
      (ownResult i s = .ok ∧ r = .ok ∧ Effect i s u) := by
  cases i with
  | nop => exact passes returnOk_iff
  | init =>
    simp only [ruleOf, initRule, ownResult, capMisconfigured_iff]
    by_cases h1 : s.cfg.cap % 2 = 1 ∨ s.cfg.cap < 2
    · simp only [h1, if_true]; exact rejects (by decide) (by simp [raise, blame])
    · simp only [h1, if_false]
      cases h2 : s.txnOpen
      · have hc : capSound (windowBody Rect.full (initBringUp s)).cfg.cap := (capSound_iff _).mpr h1
        refine passes (E := Effect .init s u) ?_
        rw [if_neg (by decide), fillBody_next _ hc]
        exact returnOk_iff
      · exact rejects (by decide) (raise_blame s (by decide) (by decide))
  | txnBegin =>
    simp only [ruleOf, txnBeginRule, ownResult]
    by_cases h1 : s.phase = .active
    · simp only [h1, ne_eq, not_true_eq_false, if_false]
      cases h2 : s.txnOpen
      · exact passes returnOk_iff
      · exact rejects (by decide) (raise_blame s (by decide) (by decide))
    · rw [if_pos h1, if_pos h1]; exact rejects (by decide) (raise_blame s (by decide) (by decide))
  | txnEnd =>
    simp only [ruleOf, txnEndRule, ownResult]
    by_cases h1 : s.phase = .active
    · simp only [h1, ne_eq, not_true_eq_false, if_false]
      cases h2 : s.txnOpen
      · exact rejects (by decide) (raise_blame s (by decide) (by decide))
      · exact passes returnOk_iff
    · rw [if_pos h1, if_pos h1]; exact rejects (by decide) (raise_blame s (by decide) (by decide))
  | setWindow x y w h =>
    simp only [ruleOf, setWindowRule, ownResult]
    by_cases h1 : s.phase = .active
    · simp only [h1, ne_eq, not_true_eq_false, if_false]
      cases h2 : s.txnOpen
      · exact rejects (e := .eNoTxn) (by decide) (raise_blame s (by decide) (by decide))
      · exact withRect_iff fun q => returnOk_iff
    · rw [if_pos h1, if_pos h1]; exact rejects (by decide) (raise_blame s (by decide) (by decide))
  | fill c =>
    simp only [ruleOf, fillRule, ownResult]
    by_cases h1 : s.phase = .active
    · simp only [h1, ne_eq, not_true_eq_false, if_false]
      cases h2 : s.txnOpen
      · exact rejects (e := .eNoTxn) (by decide) (raise_blame s (by decide) (by decide))
      · cases h3 : s.winValid
        · exact rejects (by decide) (raise_blame s (by decide) (by decide))
        · refine passes ?_
          simp only [Bool.true_eq_false, if_false, andThen_eq_next, fillBody_eq_next, returnOk_iff]
          constructor
          · rintro ⟨_, ⟨h, rfl⟩, rfl, rfl⟩; exact ⟨rfl, h, rfl⟩
          · rintro ⟨rfl, h, rfl⟩; exact ⟨_, ⟨h, rfl⟩, rfl, rfl⟩
    · rw [if_pos h1, if_pos h1]; exact rejects (by decide) (raise_blame s (by decide) (by decide))
  | drawRect x y w h c =>
    simp only [ruleOf, drawRectRule, ownResult]
    by_cases h1 : s.phase = .active
    · simp only [h1, ne_eq, not_true_eq_false, if_false]
      cases h2 : s.txnOpen
      · refine withRect_iff fun q => ?_
        simp only [andThen_eq_next, fillBody_eq_next, returnOk_iff]
        constructor
        · rintro ⟨_, ⟨h, rfl⟩, rfl, rfl⟩; exact ⟨rfl, h, rfl⟩
        · rintro ⟨rfl, h, rfl⟩; exact ⟨_, ⟨h, rfl⟩, rfl, rfl⟩
      · exact rejects (e := .eTxnOpen) (by decide) (raise_blame s (by decide) (by decide))
    · rw [if_pos h1, if_pos h1]; exact rejects (by decide) (raise_blame s (by decide) (by decide))

/-- Everything executing an operation can do when it goes on. -/
theorem exec_eq_next {i : Instr} {s t : State} :
    exec i s = .next t ↔
      (s.fatal = true ∧ t = finish .eFatal s) ∨
      (s.fatal = false ∧ ownResult i s ≠ .ok ∧ t = finish (ownResult i s) (blame (ownResult i s) s)) ∨
      (s.fatal = false ∧ ownResult i s = .ok ∧ ∃ u, Effect i s u ∧ t = finish .ok u) := by
  rw [exec_eq_issueCycle, issueCycle_eq_next]
  simp only [ruleOf_eq_next]
  constructor
  · rintro (h | ⟨hf, r, u, ⟨hr, rfl, rfl⟩ | ⟨hr, rfl, he⟩, rfl⟩)
    · exact .inl h
    · exact .inr (.inl ⟨hf, hr, rfl⟩)
    · exact .inr (.inr ⟨hf, hr, u, he, rfl⟩)
  · rintro (h | ⟨hf, hr, rfl⟩ | ⟨hf, hr, u, he, rfl⟩)
    · exact .inl h
    · exact .inr ⟨hf, _, _, .inl ⟨hr, rfl, rfl⟩, rfl⟩
    · exact .inr ⟨hf, _, _, .inr ⟨hr, rfl, he⟩, rfl⟩

/-- An operation whose checks pass ends with its effect. -/
theorem exec_done {i : Instr} {s u : State} (hf : s.fatal = false) (ho : ownResult i s = .ok) (he : Effect i s u) :
    exec i s = .next (finish .ok u) := exec_eq_next.mpr (.inr (.inr ⟨hf, ho, u, he, rfl⟩))

/-- An operation whose own checks fail ends with a rejection. -/
theorem exec_rejected {i : Instr} {s : State} (hf : s.fatal = false) (ho : ownResult i s ≠ .ok) :
    exec i s = .next (finish (ownResult i s) (blame (ownResult i s) s)) := exec_eq_next.mpr (.inr (.inl ⟨hf, ho, rfl⟩))

/-- An operation that returned OK passed its checks and had its effect. -/
theorem exec_ok {i : Instr} {s t : State} (h : exec i s = .next t) (ht : t.lastResult = .ok) :
    s.fatal = false ∧ ownResult i s = .ok ∧ ∃ u, Effect i s u ∧ t = finish .ok u := by
  rcases exec_eq_next.mp h with ⟨_, rfl⟩ | ⟨_, hr, rfl⟩ | h
  · cases ht
  · exact absurd ht hr
  · exact h

/-- Operands that program a rectangle pass the check. -/
theorem Programs.rectResult {pol : OobPolicy} {x y w h : Byte} {r : Rect} (hp : Programs pol x y w h r) :
    rectResult pol x y w h = .ok := by
  have e := checkRect_eq_pass.mpr hp
  rcases checkRect_result pol x y w h with ⟨h1, _⟩ | ⟨h1, _⟩ | ⟨_, _, h1⟩
  · rw [e] at h1; cases h1
  · rw [e] at h1; cases h1
  · exact h1

/-- An operation whose checks pass, under a capacity that INIT accepts, has an effect. -/
theorem effect_exists {i : Instr} {s : State} (hc : capSound s.cfg.cap) (ho : ownResult i s = .ok) :
    ∃ u, Effect i s u := by
  have hc0 : s.cfg.cap ≠ 0 := fun h => by have := hc.2; omega
  cases i with
  | nop => exact ⟨_, rfl⟩
  | init => exact ⟨_, rfl⟩
  | txnBegin => exact ⟨_, rfl⟩
  | txnEnd => exact ⟨_, rfl⟩
  | fill c => exact ⟨_, fun h => hc0 h.1, rfl⟩
  | setWindow x y w h =>
    have hr : rectResult s.cfg.oob x y w h = .ok := by
      simp only [ownResult] at ho; split at ho <;> [cases ho; (split at ho <;> [cases ho; exact ho])]
    rcases checkRect_result s.cfg.oob x y w h with ⟨_, h⟩ | ⟨_, h⟩ | ⟨q, hq, _⟩
    · simp [hr] at h
    · simp [hr] at h
    · exact ⟨_, q, checkRect_eq_pass.mp hq, rfl⟩
  | drawRect x y w h c =>
    have hr : rectResult s.cfg.oob x y w h = .ok := by
      simp only [ownResult] at ho; split at ho <;> [cases ho; (split at ho <;> [cases ho; exact ho])]
    rcases checkRect_result s.cfg.oob x y w h with ⟨_, h⟩ | ⟨_, h⟩ | ⟨q, hq, _⟩
    · simp [hr] at h
    · simp [hr] at h
    · exact ⟨_, q, checkRect_eq_pass.mp hq, fun h => hc0 h.1, rfl⟩

/-- An operation goes on under every capacity that INIT accepts. -/
theorem exec_goes_on {s : State} (i : Instr) (hc : capSound s.cfg.cap) : ∃ t, exec i s = .next t := by
  cases hf : s.fatal
  · by_cases ho : ownResult i s = .ok
    · obtain ⟨u, hu⟩ := effect_exists hc ho
      exact ⟨_, exec_done hf ho hu⟩
    · exact ⟨_, exec_rejected hf ho⟩
  · exact ⟨_, exec_eq_next.mpr (.inl ⟨hf, rfl⟩)⟩

/-- What no effect touches: the configuration, FATAL, ERR, LAST_RESULT, BUSY, the port's word, the panel and the host. -/
theorem Effect.keeps {i : Instr} {s u : State} (h : Effect i s u) :
    u.cfg = s.cfg ∧ u.fatal = s.fatal ∧ u.err = s.err ∧ u.lastResult = s.lastResult ∧ u.busy = s.busy ∧
      u.portWord = s.portWord ∧ u.panel = s.panel ∧ u.host = s.host := by
  cases i with
  | nop => subst h; simp
  | init => subst h; simp
  | txnBegin => subst h; simp
  | txnEnd => subst h; simp
  | setWindow x y w h => obtain ⟨q, _, rfl⟩ := h; simp
  | fill c => obtain ⟨_, rfl⟩ := h; simp
  | drawRect x y w h c => obtain ⟨q, _, _, rfl⟩ := h; simp

/-- The phase after an effect: ACTIVE after INIT, unchanged after any other operation (R23). -/
theorem Effect.phase {i : Instr} {s u : State} (h : Effect i s u) : u.phase = if i = .init then .active else s.phase := by
  cases i with
  | nop => subst h; simp
  | init => subst h; simp
  | txnBegin => subst h; simp
  | txnEnd => subst h; simp
  | setWindow x y w h => obtain ⟨q, _, rfl⟩ := h; simp
  | fill c => obtain ⟨_, rfl⟩ := h; simp
  | drawRect x y w h c => obtain ⟨q, _, _, rfl⟩ := h; simp

/-- The events an effect emits, a segment at the end of the trace (R49). -/
theorem Effect.trace {i : Instr} {s u : State} (h : Effect i s u) : ∃ es, u.trace = s.trace ++ es := by
  cases i with
  | nop => subst h; exact ⟨[], by simp⟩
  | init =>
    subst h
    simp only [closeTxn_trace, filled_trace, windowBody_trace, initBringUp, initWake, initConfigure, initReset, emit_trace,
      sendCmd_trace, sendCmds_trace, openTxn_trace, List.append_assoc]
    exact ⟨_, rfl⟩
  | txnBegin => subst h; exact ⟨_, rfl⟩
  | txnEnd => subst h; exact ⟨_, rfl⟩
  | setWindow x y w h => obtain ⟨q, _, rfl⟩ := h; exact ⟨_, rfl⟩
  | fill c => obtain ⟨_, rfl⟩ := h; exact ⟨_, rfl⟩
  | drawRect x y w h c =>
    obtain ⟨q, _, _, rfl⟩ := h
    simp only [closeTxn_trace, filled_trace, windowBody_trace, openTxn_trace, List.append_assoc]
    exact ⟨_, rfl⟩

@[simp] theorem blame_cfg (r : Result) (s : State) : (blame r s).cfg = s.cfg := rfl
@[simp] theorem blame_trace (r : Result) (s : State) : (blame r s).trace = s.trace := rfl
@[simp] theorem blame_phase (r : Result) (s : State) : (blame r s).phase = s.phase := rfl
@[simp] theorem blame_host (r : Result) (s : State) : (blame r s).host = s.host := rfl
@[simp] theorem blame_err (r : Result) (s : State) : (blame r s).err = s.err := rfl
@[simp] theorem blame_buf (r : Result) (s : State) : (blame r s).buf = s.buf := rfl
@[simp] theorem blame_portWord (r : Result) (s : State) : (blame r s).portWord = s.portWord := rfl

end Sys2Proof.Machine
end

