-- ==== Sys2Proof/Laws/PerInstr.lean ====
section
/-! SUPPORT. One lemma per operation: its word carries its row's match pattern under its row's mask (R63, R67). -/

namespace Sys2Proof.Laws.EncodeMatches

open Sys2Proof

/-- The word of an operation matches the operation's row of the opcode table. -/
def Statement (i : Instr) : Prop := encode i &&& i.tableMask = i.tableMatch

theorem nop : Statement .nop := by unfold Statement; decide

theorem init : Statement .init := by unfold Statement; decide

theorem txnBegin : Statement .txnBegin := by unfold Statement; decide

theorem txnEnd : Statement .txnEnd := by unfold Statement; decide

/-- The operand bits are outside the mask; the other bits of the word are fixed. -/
theorem layout_masked {o x y w h : Byte} {c : Sample} {mask pat : OpWord}
    (hb : ∀ n, n < 64 → mask.getLsbD n = true → (layout o x y w h c).getLsbD n = pat.getLsbD n)
    (hz : ∀ n, n < 64 → mask.getLsbD n = false → pat.getLsbD n = false) :
    layout o x y w h c &&& mask = pat := by
  apply BitVec.eq_of_getLsbD_eq
  intro n hn
  rw [BitVec.getLsbD_and]
  cases hm : mask.getLsbD n
  · simp [hz n hn hm]
  · simp [hb n hn hm]

theorem setWindow (x y w h : Byte) : Statement (.setWindow x y w h) := by
  refine layout_masked (fun n hn hm => ?_) (by simp only [Instr.tableMask, Instr.tableMatch]; decide)
  have hk : ∀ n, n < 64 → (0xFF00000000FFFFFF#64).getLsbD n = true → n < 24 ∨ 56 ≤ n := by decide
  have hp : ∀ n, n < 64 → (0x0400000000000000#64).getLsbD n = if n < 56 then false else (4#8).getLsbD (n - 56) := by decide
  rw [layout_getLsbD]
  simp only [Instr.tableMatch, hp n hn]
  rcases hk n hn hm with h' | h'
  · simp only [show n < 56 by omega, if_true, h', BitVec.getLsbD_zero]
    split <;> rfl
  · simp only [show ¬n < 16 by omega, show ¬n < 24 by omega, show ¬n < 32 by omega, show ¬n < 40 by omega,
      show ¬n < 48 by omega, show ¬n < 56 by omega, if_false]

theorem fill (color : Sample) : Statement (.fill color) := by
  refine layout_masked (fun n hn hm => ?_) (by simp only [Instr.tableMask, Instr.tableMatch]; decide)
  have hk : ∀ n, n < 64 → (0xFFFFFFFFFFFF0000#64).getLsbD n = true → 16 ≤ n := by decide
  have hp : ∀ n, n < 64 → (0x0500000000000000#64).getLsbD n = if n < 56 then false else (5#8).getLsbD (n - 56) := by decide
  have := hk n hn hm
  rw [layout_getLsbD]
  simp only [Instr.tableMatch, hp n hn, show ¬n < 16 by omega, if_false, BitVec.getLsbD_zero]
  repeat' split
  all_goals first | rfl | omega

theorem drawRect (x y w h : Byte) (color : Sample) : Statement (.drawRect x y w h color) := by
  refine layout_masked (fun n hn hm => ?_) (by simp only [Instr.tableMask, Instr.tableMatch]; decide)
  have hk : ∀ n, n < 64 → (0xFF00000000FF0000#64).getLsbD n = true → (16 ≤ n ∧ n < 24) ∨ 56 ≤ n := by decide
  have hp : ∀ n, n < 64 → (0x0600000000000000#64).getLsbD n = if n < 56 then false else (6#8).getLsbD (n - 56) := by decide
  rw [layout_getLsbD]
  simp only [Instr.tableMatch, hp n hn]
  rcases hk n hn hm with h' | h'
  · simp only [show ¬n < 16 by omega, show n < 24 by omega, show n < 56 by omega, if_true, if_false]
  · simp only [show ¬n < 16 by omega, show ¬n < 24 by omega, show ¬n < 32 by omega, show ¬n < 40 by omega,
      show ¬n < 48 by omega, show ¬n < 56 by omega, if_false]

end Sys2Proof.Laws.EncodeMatches
end

