-- ==== Sys2Proof/Laws/Step.lean ====
section
/-! SUPPORT. What a step can do, once: the move of LCDSEQ, of the panel or of the host, and what each leaves. -/

namespace Sys2Proof.Machine

/-- LCDSEQ's move in closed form: a decoding error's rejection, or the decoded operation. -/
theorem lcdseqMove_eq_next {s t : State} :
    lcdseqMove s = .next t ↔
      (∃ e, decode s.portWord = .error e ∧ t = rejectOp (decodeResult e) s) ∨
      (∃ i, decode s.portWord = .ok i ∧ exec i s = .next t) := by
  unfold lcdseqMove portFetch
  cases decode s.portWord with
  | ok i => simp
  | error e => simp [eq_comm]

/-- Everything a step can do when it goes on. -/
theorem step_eq_next {s t : State} :
    step s = .next t ↔ s.cfg.wf = true ∧
      ((s.busy = true ∧ lcdseqMove s = .next t) ∨
       (s.busy = false ∧ panelHasEvents s = true ∧ t = panelMove s) ∨
       (s.busy = false ∧ panelHasEvents s = false ∧ t = hostMove s)) := by
  unfold step
  cases s.cfg.wf <;> cases s.busy <;> cases panelHasEvents s <;> simp [eq_comm]

/-- The step while an operation is in progress is LCDSEQ's move. -/
theorem step_busy {s : State} (hw : s.cfg.wf = true) (hb : s.busy = true) : step s = lcdseqMove s := by
  simp [step, hw, hb]

/-- The step with the port idle and the trace consumed is the host's move. -/
theorem step_host {s : State} (hw : s.cfg.wf = true) (hb : s.busy = false) (hp : s.trace.length ≤ s.panel.seen) :
    step s = .next (hostMove s) := by
  have : panelHasEvents s = false := by simp [panelHasEvents]; omega
  simp [step, hw, hb, this]

/-- The step with the port idle and an event to consume is the panel's move: that event, and no other. -/
theorem step_panel {s : State} {e : Event} (hw : s.cfg.wf = true) (hb : s.busy = false)
    (he : s.trace[s.panel.seen]? = some e) :
    step s = .next { s with panel := { s.panel.observe s.cfg.panelCmd e with seen := s.panel.seen + 1 } } := by
  have : panelHasEvents s = true := by simpa [panelHasEvents] using (List.getElem?_eq_some_iff.mp he).1
  simp [step, hw, hb, this, panelMove, he]

/-- A word that decodes is executed. -/
theorem lcdseqMove_ok {s : State} {i : Instr} (h : decode s.portWord = .ok i) : lcdseqMove s = exec i s := by
  simp [lcdseqMove, portFetch, h]

/-! The result of an operation, of whatever kind. -/

/-- An operation ends with a status update over either the state it began in, FATAL apart, or its effect. -/
inductive Ends (s t : State) : Prop where
  /-- A rejection (R99). -/
  | rejected (r : Result) (hr : r ≠ .ok) (h : t = finish r (blame r s))
  /-- A success (R100). -/
  | done (i : Instr) (u : State) (hd : decode s.portWord = .ok i) (hf : s.fatal = false) (ho : ownResult i s = .ok)
      (he : Effect i s u) (h : t = finish .ok u)

theorem decodeResult_ne_ok (e : DecodeError) : decodeResult e ≠ .ok := by cases e <;> decide

theorem blame_decodeResult (e : DecodeError) (s : State) : blame (decodeResult e) s = s := by
  cases e <;> exact blame_eq_self s (by decide) (by decide)

theorem blame_eFatal (s : State) : blame .eFatal s = s := blame_eq_self s (by decide) (by decide)

/-- How LCDSEQ's move ends. -/
theorem lcdseqMove_ends {s t : State} (h : lcdseqMove s = .next t) : Ends s t := by
  rcases lcdseqMove_eq_next.mp h with ⟨e, hd, rfl⟩ | ⟨i, hd, he⟩
  · unfold rejectOp
    split
    · exact .rejected .eFatal (by decide) (by rw [blame_eFatal])
    · exact .rejected _ (decodeResult_ne_ok e) (by rw [blame_decodeResult])
  · rcases exec_eq_next.mp he with ⟨_, rfl⟩ | ⟨_, hr, rfl⟩ | ⟨hf, ho, u, hu, rfl⟩
    · exact .rejected .eFatal (by decide) (by rw [blame_eFatal])
    · exact .rejected _ hr rfl
    · exact .done i u hd hf ho hu rfl

/-- LCDSEQ's move is total in the result it reports (R98). -/
theorem lcdseqMove_result {s t : State} (h : lcdseqMove s = .next t) : t.lastResult = reportedResult s.portWord s := by
  unfold reportedResult
  rcases lcdseqMove_eq_next.mp h with ⟨e, hd, rfl⟩ | ⟨i, hd, he⟩
  · cases hf : s.fatal <;> cases e <;> simp [rejectOp, hd, hf, decodeResult]
  · rcases exec_eq_next.mp he with ⟨hf, rfl⟩ | ⟨hf, hr, rfl⟩ | ⟨hf, ho, u, hu, rfl⟩
    · simp [hf]
    · simp [hf, hd]
    · simp [hf, hd, ho]

/-! What the other agents leave. -/

/-- The panel's move changes the panel only. -/
theorem panelMove_frame (s : State) : ∃ p, panelMove s = { s with panel := p } := by
  unfold panelMove; split <;> exact ⟨_, rfl⟩

/-- The host's move changes the host only, and what the port takes. -/
theorem hostMove_frame (s : State) : ∃ h b w, hostMove s = { s with host := h, busy := b, portWord := w } := by
  unfold hostMove
  split
  · unfold pseudoMove
    split
    · exact ⟨_, _, _, rfl⟩
    · unfold issueConstituent; split <;> exact ⟨_, _, _, rfl⟩
  · split
    · exact ⟨_, _, _, rfl⟩
    · unfold actionMove; split <;> exact ⟨_, _, _, rfl⟩

/-- The host's move returns no result of an operation. -/
theorem hostMove_results (s : State) : (hostMove s).host.results = s.host.results := by
  unfold hostMove
  split
  · unfold pseudoMove
    split
    · rfl
    · unfold issueConstituent; split <;> rfl
  · split
    · rfl
    · unfold actionMove; split <;> rfl

end Sys2Proof.Machine
end

