-- ==== Sys2Proof/Laws/Trace.lean ====
section
/-! SUPPORT. What the parts of an operation put in the trace: brackets, non-empty data and delays; the registers of a window on
the panel; and what a fill and the whole bring-up leave of the lines. -/

namespace Sys2Proof.Machine

/-! Command and `Data` events. -/

theorem fillEvents_transfers (c : Sample) (s : State) : ∀ e ∈ fillEvents c s, (∃ k, e = .cmd k) ∨ ∃ bs, e = .data bs := by
  intro e he
  rw [fillEvents_eq] at he
  rcases List.mem_cons.mp he with rfl | he
  · exact .inl ⟨_, rfl⟩
  · obtain ⟨k, _, rfl⟩ := List.mem_map.mp he; exact .inr ⟨_, rfl⟩

/-- A fill moves nothing but the level of data-select. -/
theorem fillEvents_lines (b : Bool) (c : Sample) (s : State) (d : Devices) :
    ∃ v, d.applyAll b (fillEvents c s) = { d with dc := { d.dc with level := v } } :=
  applyAll_transfers _ _ _ (fillEvents_transfers c s)

theorem windowEvents_transfers (c : Config) (r : Rect) : ∀ e ∈ windowEvents c r, (∃ k, e = .cmd k) ∨ ∃ bs, e = .data bs := by
  intro e he
  simp only [windowEvents, List.mem_cons, List.not_mem_nil, or_false] at he
  rcases he with rfl | rfl | rfl | rfl
  · exact .inl ⟨_, rfl⟩
  · exact .inr ⟨_, rfl⟩
  · exact .inl ⟨_, rfl⟩
  · exact .inr ⟨_, rfl⟩

/-! Brackets (R27). -/

theorem bracketOpen_transfers {fs : List Event} (h : ∀ e ∈ fs, (∃ k, e = .cmd k) ∨ ∃ bs, e = .data bs) (es : List Event) :
    bracketOpen (es ++ fs) = bracketOpen es := by
  induction fs generalizing es with
  | nil => simp
  | cons f fs ih =>
    have e1 : es ++ f :: fs = (es ++ [f]) ++ fs := by simp
    rw [e1, ih (fun e he => h e (by simp [he]))]
    rcases h f (by simp) with ⟨k, rfl⟩ | ⟨bs, rfl⟩ <;> simp [bracketOpen]

@[simp] theorem bracketOpen_txnBegin (es : List Event) : bracketOpen (es ++ [.txnBegin]) = true := by simp [bracketOpen]

@[simp] theorem bracketOpen_txnEnd (es : List Event) : bracketOpen (es ++ [.txnEnd]) = false := by simp [bracketOpen]

/-! No empty `Data` event (R48). -/

theorem sendCmdEvents_nonEmpty (c : Config) (n : PanelCmd) : (sendCmdEvents c n).all Event.nonEmpty = true := by
  unfold sendCmdEvents
  split
  · rfl
  · next h => simp only [List.all_cons, List.all_nil, Event.nonEmpty]; simp; intro h'; simp [h'] at h

theorem windowEvents_nonEmpty (c : Config) (r : Rect) : (windowEvents c r).all Event.nonEmpty = true := rfl

/-- No chunk is empty. -/
theorem fillChunks_pos {s : State} (hc : 0 < s.cfg.cap) : ∀ k ∈ fillChunks s, 0 < k := by
  intro k hk
  rcases Nat.eq_zero_or_pos (fillTotal s) with h | h
  · simp [fillChunks, h, chunkLens] at hk
  · have hd := Nat.div_add_mod (fillTotal s - 1) s.cfg.cap
    have hm := Nat.mod_lt (fillTotal s - 1) hc
    rw [fillChunks_last hc h, List.mem_append] at hk
    rcases hk with hk | hk
    · have := (List.mem_replicate.mp hk).2; omega
    · have := List.mem_singleton.mp hk
      rw [Nat.mul_comm] at this; omega

theorem fillEvents_nonEmpty (c : Sample) {s : State} (hc : 0 < s.cfg.cap) : (fillEvents c s).all Event.nonEmpty = true := by
  rw [fillEvents_eq]
  simp only [List.all_cons, Bool.and_eq_true, List.all_eq_true, List.mem_map]
  refine ⟨rfl, ?_⟩
  rintro e ⟨k, hk, rfl⟩
  have := fillChunks_pos hc k hk
  simp only [Event.nonEmpty, decide_eq_true_eq]
  intro h
  have := congrArg (fun e => (Event.bytes e).length) h
  simp [Event.bytes] at this; omega

/-! Delays (R123). -/

theorem traceDelays_append (a b : List Event) : traceDelays (a ++ b) = traceDelays a ++ traceDelays b := by simp [traceDelays]

theorem traceDelays_transfers {es : List Event} (h : ∀ e ∈ es, (∃ k, e = .cmd k) ∨ ∃ bs, e = .data bs) :
    traceDelays es = [] := by
  simp only [traceDelays, List.flatMap_eq_nil_iff]
  intro e he
  rcases h e he with ⟨_, rfl⟩ | ⟨_, rfl⟩ <;> rfl

/-! A window on the panel (R29, R79). -/

/-- The registers of a rectangle on the panel hold it, and its pixel count, without wrapping. -/
theorem onPanel_registers {r : Rect} (h : r.onPanel) :
    (BitVec.ofNat 8 r.x).toNat = r.x ∧ (BitVec.ofNat 8 r.y).toNat = r.y ∧ (BitVec.ofNat 8 r.w).toNat = r.w ∧
      (BitVec.ofNat 8 r.h).toNat = r.h ∧ (BitVec.ofNat 16 (r.w * r.h)).toNat = r.w * r.h ∧ 1 ≤ r.w * r.h ∧
      r.x + r.w ≤ 240 ∧ r.y + r.h ≤ 240 := by
  obtain ⟨h1, h2, h3, h4⟩ := h
  simp only [Config.panelW, Config.panelH] at h3 h4
  have hm : r.w * r.h ≤ 240 * 240 := Nat.mul_le_mul (by omega) (by omega)
  have hp : 1 ≤ r.w * r.h := Nat.mul_pos h1 h2
  simp only [BitVec.toNat_ofNat]
  refine ⟨?_, ?_, ?_, ?_, ?_, hp, h3, h4⟩ <;> apply Nat.mod_eq_of_lt <;> omega

/-- The whole panel is on the panel. -/
theorem full_onPanel : Rect.full.onPanel := by unfold Rect.onPanel; decide

/-! INIT as a whole. -/

/-- An INIT that passes its checks has a sound capacity. -/
theorem ownResult_init_cap {s : State} (h : ownResult .init s = .ok) : capSound s.cfg.cap := by
  rw [capSound_iff]
  intro h'
  unfold ownResult at h
  rw [if_pos h'] at h
  cases h

/-- The lines and the time after the whole of INIT (R37, R123). -/
theorem init_devices (s : State) (hc : capSound s.cfg.cap) :
    ∃ e, s.devices.elapsed + (s.cfg.tRstHigh + s.cfg.tRstLow + s.cfg.tRstRecover + s.cfg.tSlpout + s.cfg.tDispon) ≤ e ∧
      (closeTxn (filled 0x0000#16 (windowBody Rect.full (initBringUp s)))).devices =
        { rst := ⟨true, true⟩, cs := ⟨true, true⟩, dc := ⟨true, !s.cfg.wire.dcCommand⟩, det := ⟨true, s.cfg.detLevel⟩,
          elapsed := e, delays := s.devices.delays + 5 } := by
  have hc0 : 0 < s.cfg.cap := by have := hc.2; omega
  obtain ⟨v, e, he, hd⟩ := initBringUp_devices s
  refine ⟨e, he, ?_⟩
  rw [closeTxn_devices, filled_devices,
    applyAll_fillEvents _ _ (windowBody Rect.full (initBringUp s)) _ hc0 (by rw [fillTotal_full]; decide),
    windowBody_devices, hd]
  rfl

end Sys2Proof.Machine
end

