-- ==== Sys2Proof/Tests/Slice0.lean ====
section
/-! SUPPORT. Tests: the checks of well-formedness refuse, the words of file 95 decode, one step of each operation against
file 95's vectors, and a witness for the hypotheses of every statement. -/

namespace Sys2Proof.Tests

open Sys2Proof Sys2Proof.Machine

/-! Helpers: a configuration and small states with no free value in them. -/

/-- Parameter bytes of the counts R69 fixes, one byte for the OPEN counts. -/
def testParams : InitParams :=
  { madctl := [0#8], colmod := [0x55#8], porctrl := [1#8], gctrl := [2#8], vcoms := [3#8], lcmctrl := [4#8],
    vdvvrhen := [5#8], vrhs := [6#8], vdvs := [7#8], frctrl2 := [8#8], pwctrl1 := [9#8, 10#8],
    pvgamctrl := List.replicate 14 11#8, nvgamctrl := List.replicate 14 12#8, invon := [], slpout := [], dispon := [] }

/-- A configuration with the test glyph of file 95, L2.5. -/
def testConfig (cap : Nat) (pol : OobPolicy) : Config :=
  { cap := cap, oob := pol, panelCmd := PanelCodes.default, initParams := testParams, tRstHigh := 20, tRstLow := 100,
    tRstRecover := 100, tSlpout := 30, tDispon := 30, detLevel := true,
    wire := { spiMode := 0, lsbFirst := false, clockHz := 1, dcCommand := false },
    glyphBase := 65, glyphCount := 1, glyph := [[0x01#8, 0x7F#8, 0x01#8, 0x00#8, 0x00#8]], charSpacing := 1,
    wrapMargin := .zero }

/-- Lines as INIT leaves them. -/
def testDevices : Devices :=
  { rst := ⟨true, true⟩, cs := ⟨true, true⟩, dc := ⟨true, true⟩, det := ⟨true, true⟩, elapsed := 280, delays := 5 }

/-- A panel that has consumed nothing. -/
def testPanel : Panel :=
  { xs := 0#16, xe := 239#16, ys := 0#16, ye := 239#16, pc := 0, pr := 0, latch := none, current := none, args := [],
    fm := [], epoch := 0, config := [], sleeping := false, inverted := true, displayOn := true, resets := 1, seen := 0 }

/-- After block reset. -/
def atReset (cap : Nat) (pol : OobPolicy) : State :=
  { State.resetWith (testConfig cap pol) with devices := testDevices, panel := testPanel }

/-- After INIT: ACTIVE, with no bracket open. -/
def idle (cap : Nat) (pol : OobPolicy) : State := { atReset cap pol with phase := .active }

/-- With a bracket open, in a trace the panel has consumed. -/
def inBracket (cap : Nat) (pol : OobPolicy) : State :=
  { idle cap pol with
    txnOpen := true, trace := [.txnBegin], panel := { testPanel with seen := 1 },
    devices := { testDevices with cs := ⟨true, false⟩ } }

/-- With a window of 2 × 1 pixels programmed. -/
def windowed (cap : Nat) : State :=
  { inBracket cap .reject with winValid := true, winW := 2#8, winH := 1#8, winCount := 2#16 }

/-- A state whose operation in progress is the word `op`. -/
def running (op : OpWord) (s : State) : State := portTake op s

/-- A state whose host does these actions next. -/
def hostDoes (acts : List HostAction) (s : State) : State := { s with host := { s.host with todo := acts } }

/-- A state whose host has a pseudo-operation in progress. -/
def hostRuns (p : PseudoRun) (s : State) : State := { s with host := { s.host with running := some p } }

/-- What a test looks at in the state an outcome gives. -/
def look {β : Type} (f : State → β) (o : Res State) : Option β :=
  match o with
  | .next t => some (f t)
  | .fault _ => none
  | .refused _ => none

/-! Well-formedness: each check refuses a term that breaks it (R9, R69, R67). -/

theorem test_wf_accepts : (testConfig 15001 .reject).wf = true ∧ (testConfig 0 .clamp).wf = true := by decide
theorem test_wf_default : Config.default.wf = true := by decide
theorem test_wf_cap : (testConfig (2 ^ 24) .reject).wf = false ∧ (testConfig (2 ^ 24 - 1) .reject).wf = true := by decide
theorem test_wf_slpout : ({ testConfig 8 .reject with tSlpout := 4 } : Config).wf = false := by decide
theorem test_wf_counts : ({ testConfig 8 .reject with initParams := { testParams with pvgamctrl := [] } } : Config).wf = false :=
  by decide
theorem test_wf_glyph_count : ({ testConfig 8 .reject with glyphCount := 2 } : Config).wf = false := by decide
theorem test_wf_glyph_columns : ({ testConfig 8 .reject with glyph := [[0#8]] } : Config).wf = false := by decide
theorem test_wf_refused :
    step { idle 8 .reject with cfg := testConfig (2 ^ 24) .reject } = .refused .illFormedConfiguration := rfl
theorem test_operand_ranges : byteOperandFits 255 = true ∧ byteOperandFits 256 = false ∧
    colorOperandFits 0xFFFF = true ∧ colorOperandFits 0x10000 = false := by decide

/-! Decoding: words of file 95, L2.1 to L2.4. -/

theorem test_decode_nop : decode 0x0000000000000000#64 = .ok .nop := by decide
theorem test_decode_init : decode 0x0100000000000000#64 = .ok .init := by decide
theorem test_decode_txnBegin : decode 0x0200000000000000#64 = .ok .txnBegin := by decide
theorem test_decode_txnEnd : decode 0x0300000000000000#64 = .ok .txnEnd := by decide
theorem test_decode_setWindow : decode 0x0432320B0B000000#64 = .ok (.setWindow 50#8 50#8 11#8 11#8) := by decide
theorem test_decode_fill : decode 0x050000000000F800#64 = .ok (.fill 0xF800#16) := by decide
theorem test_decode_drawRect : decode 0x0600F0F000000000#64 = .ok (.drawRect 0#8 240#8 240#8 0#8 0#16) := by decide
theorem test_decode_reserved :
    [0x0000000000000001#64, 0x00FF000000000000#64, 0x0400000000010000#64, 0x0400000101000001#64, 0x0500000000010000#64,
      0x0580000000000000#64, 0x06000001010100FF#64].all (fun w => decide (decode w = .error .reserved)) = true := by decide
theorem test_decode_illegal :
    [0x0700000000000000#64, 0xFFFFFFFFFFFFFFFF#64, 0x07FF000000000000#64].all
      (fun w => decide (decode w = .error .illegal)) = true := by decide
theorem test_decode_table_word : decodeTableWord 64 0x060000F0F0000000 = some (.drawRect 0#8 0#8 240#8 240#8 0#16) ∧
    decodeTableWord 64 0x0700000000000000 = none := by decide

/-- Every kind of operand is read (R67); the decimal and the hexadecimal form agree. -/
theorem test_assemble :
    assemble "SET_WINDOW 50, 0x32, 11, 11 ; window\n\nFILL 0xF800".toList
      = .ok [0x0432320B0B000000#64, 0x050000000000F800#64] ∧
    assemble "FILL 65536".toList = .error .outOfRange := by decide

/-! One step of each operation, against the vectors of file 95 (L2.2 to L2.4). -/

theorem test_nop : look (readReg · 0#2) (exec .nop (atReset 15000 .reject)) = some 0x00000000#32 := by decide
/-- L2.2 row 15. -/
theorem test_nop_err : look (readReg · 0#2)
    (exec .nop { inBracket 15000 .reject with lastResult := .eTxnOpen, err := true }) = some 0x00000034#32 := by decide
/-- L2.2 row 6. -/
theorem test_init_config : look (fun t => (readReg t 0#2, t.trace)) (exec .init (atReset 15001 .reject))
    = some (0x00000418#32, []) := by decide
/-- W6: the registers after INIT. -/
theorem test_init : look (fun t => [readReg t 0#2, readReg t 1#2, readReg t 2#2]) (exec .init (atReset 15000 .reject))
    = some [0x00000004#32, 0xF0F00000#32, 0x0000E100#32] := by decide
/-- L2.2 row 2. -/
theorem test_txnBegin_early : look (readReg · 0#2) (exec .txnBegin (atReset 8 .reject)) = some 0x00000510#32 := by decide
/-- L2.2 row 10. -/
theorem test_txnBegin : look (fun t => (readReg t 0#2, t.trace)) (exec .txnBegin (idle 8 .reject))
    = some (0x00000024#32, [.txnBegin]) := by decide
/-- L2.2 row 13. -/
theorem test_txnEnd_none : look (readReg · 0#2) (exec .txnEnd (idle 8 .reject)) = some 0x00000614#32 := by decide
/-- L2.2 row 14. -/
theorem test_txnEnd : look (fun t => (readReg t 0#2, t.trace)) (exec .txnEnd (windowed 8))
    = some (0x00000004#32, [.txnBegin, .txnEnd]) := by decide
/-- L2.3 row 5 under CLAMP. -/
theorem test_setWindow_clamp : look (fun t => (readReg t 1#2, readReg t 2#2, t.trace.drop 1))
      (exec (.setWindow 230#8 0#8 11#8 1#8) (inBracket 8 .clamp))
    = some (0x010A00E6#32, 10#32, [.cmd 0x2A#8, .data [0x00#8, 0xE6#8, 0x00#8, 0xEF#8], .cmd 0x2B#8,
        .data [0x00#8, 0x00#8, 0x00#8, 0x00#8]]) := by decide
/-- L2.3 row 9 under FATAL. -/
theorem test_setWindow_fatal : look (fun t => (t.lastResult, t.fatal, t.trace))
      (exec (.setWindow 240#8 0#8 1#8 1#8) (inBracket 8 .fatal)) = some (.eBounds, true, [.txnBegin]) := by decide
/-- L2.4 row 2, with two chunks. -/
theorem test_fill : look (fun t => (t.trace.drop 1, t.winValid, t.lastResult)) (exec (.fill 0xF800#16) (windowed 2))
    = some ([.cmd 0x2C#8, .data [0xF8#8, 0x00#8], .data [0xF8#8, 0x00#8]], false, .ok) := by decide
/-- L2.4 rows 1 and 3. -/
theorem test_fill_no_window : look (fun t => (t.lastResult, t.trace)) (exec (.fill 0xF800#16) (inBracket 8 .reject))
    = some (.eNoWindow, [.txnBegin]) := by decide
/-- L2.4 row 5's form, on a rectangle of 2 × 2 pixels and CAP = 6: the chunk lengths 6, 2. -/
theorem test_drawRect : look (fun t => (t.trace, readReg t 1#2, readReg t 2#2))
      (exec (.drawRect 50#8 50#8 2#8 2#8 0x1234#16) (idle 6 .reject))
    = some ([.txnBegin, .cmd 0x2A#8, .data [0x00#8, 0x32#8, 0x00#8, 0x33#8], .cmd 0x2B#8,
        .data [0x00#8, 0x32#8, 0x00#8, 0x33#8], .cmd 0x2C#8, .data [0x12#8, 0x34#8, 0x12#8, 0x34#8, 0x12#8, 0x34#8],
        .data [0x12#8, 0x34#8], .txnEnd], 0x02023232#32, 4#32) := by decide
/-- L2.4 row 8. -/
theorem test_drawRect_order : look (·.lastResult) (exec (.drawRect 0#8 240#8 240#8 0#8 0#16) (idle 8 .reject))
    = some .eZeroExtent := by decide
/-- L2.4, buffer content. -/
theorem test_fill_buffer :
    let t : Mem := Mem.fillPattern [(0, 0#8), (1, 0#8), (2, 0#8), (3, 0#8)] 2 0x1234#16
    [t.readByte 0, t.readByte 1, t.readByte 2, t.readByte 3] = [0x12#8, 0x34#8, 0x00#8, 0x00#8] := by decide

/-- L2.5 row 1. -/
theorem test_drawChar : (pseudoReqs (testConfig 8 .reject) (.drawChar 0 0 1 65 0xFFFF#16 0#16 true)).map (fun q => (q.x, q.y))
    = [(0, 0), (1, 0), (1, 1), (1, 2), (1, 3), (1, 4), (1, 5), (1, 6), (2, 0)] := by decide
/-- L2.5, STRING_WIDTH. -/
theorem test_stringWidth : stringWidth (testConfig 8 .reject) [65, 66] 2 = 22 ∧
    stringWidth (testConfig 8 .reject) [] 3 = 0 := by decide
/-- R69's default codes, in the order of its rows. -/
theorem test_defaultCodes :
    [PanelCmd.madctl, .colmod, .porctrl, .gctrl, .vcoms, .lcmctrl, .vdvvrhen, .vrhs, .vdvs, .frctrl2, .pwctrl1, .pvgamctrl,
      .nvgamctrl, .invon, .slpout, .dispon, .caset, .raset, .ramwr].map PanelCodes.default.code =
    [0x36#8, 0x3A#8, 0xB2#8, 0xB7#8, 0xBB#8, 0xC0#8, 0xC2#8, 0xC3#8, 0xC4#8, 0xC6#8, 0xD0#8, 0xE0#8, 0xE1#8, 0x21#8,
      0x11#8, 0x29#8, 0x2A#8, 0x2B#8, 0x2C#8] := by decide
/-- The panel's move consumes one event and no more: after CASET's command byte, of two events, the second is still to come
(R57). -/
theorem test_panelMove :
    look (fun t => (t.panel.seen, t.panel.current, t.panel.xe))
      (step { idle 8 .reject with trace := [.cmd 0x2A#8, .data [0x00#8, 0x01#8, 0x00#8, 0x02#8]] }) =
      some (1, some 0x2A#8, 239#16) := by decide
/-- The panel takes a window and its samples (R57, R58). -/
theorem test_panel :
    let p := testPanel.observeAll PanelCodes.default
      [.cmd 0x2A#8, .data [0#8, 1#8, 0#8, 2#8], .cmd 0x2B#8, .data [0#8, 3#8, 0#8, 3#8], .cmd 0x2C#8,
        .data [0xF8#8, 0x00#8, 0x12#8], .data [0x34#8]]
    p.sample 1 3 = 0xF800#16 ∧ p.sample 2 3 = 0x1234#16 ∧ (p.pc, p.pr) = (1, 4) := by decide

/-! Witnesses: for each statement with hypotheses, a state and operands that meet them all, clause by clause. -/

theorem of_look {β : Type} {f : State → β} {o : Res State} {b : β} (h : look f o = some b) :
    ∃ t, o = .next t ∧ f t = b := by
  cases o with
  | next t => exact ⟨t, rfl, Option.some.inj h⟩
  | fault _ => cases h
  | refused _ => cases h

/-- The port holds a word. -/
theorem holds_running (op : OpWord) (cap : Nat) (h : (testConfig cap .reject).wf = true) :
    (running op (idle cap .reject)).Holds op := ⟨h, rfl, rfl⟩

theorem witness_reset : (testConfig 0 .clamp).wf = true ∧ (testConfig (2 ^ 24 - 1) .reject).wf = true := by decide

theorem witness_windowCountConfig : (idle 8 .reject).cfg.wf = true ∧ ∃ t, step (idle 8 .reject) = .next t := ⟨rfl, _, rfl⟩

theorem witness_configurationNeverChanges :
    (∃ t, step (running 0x0200000000000000#64 (idle 8 .reject)) = .next t) ∧
    (∃ t, step { idle 8 .reject with trace := [.txnBegin] } = .next t) ∧
    ∃ t, step (hostDoes [.read 0#2] (idle 8 .reject)) = .next t := ⟨⟨_, rfl⟩, ⟨_, rfl⟩, _, rfl⟩

theorem witness_registerRead :
    (let s := hostDoes [.read 3#2, .read 3#2] (inBracket 8 .reject)
     s.cfg.wf = true ∧ s.busy = false ∧ s.trace.length ≤ s.panel.seen ∧ s.host.running = none ∧
       s.host.todo = .read 3#2 :: .read 3#2 :: [] ∧ ∃ t, step s = .next t) ∧
    (let s := running 0x0000000000000000#64 (idle 8 .reject)
     s.busy = true ∧ ∃ t, step s = .next t) ∧
    let s := hostDoes [.issue 0x0000000000000000#64] (idle 8 .reject)
    s.busy = false ∧ ∃ t, step s = .next t :=
  ⟨⟨rfl, rfl, by decide, rfl, rfl, _, rfl⟩, ⟨rfl, _, rfl⟩, rfl, _, rfl⟩

theorem witness_encodeOfDecode : decode 0x06FFFFFFFF00FFFF#64 = .ok (.drawRect 255#8 255#8 255#8 255#8 0xFFFF#16) := by decide

theorem witness_decodeFollowsTheOpcodeMap :
    6 < ((0x0700000000000000#64 : OpWord).extractLsb' 56 8).toNat ∧
    (let op : OpWord := 0x0600000000800000#64
     (op.extractLsb' 56 8).toNat ≤ 6 ∧ op &&& resv (op.extractLsb' 56 8) ≠ 0#64) ∧
    [0x0000000000000000#64, 0x0100000000000000#64, 0x0200000000000000#64, 0x0300000000000000#64, 0x04FFFFFFFF000000#64,
      0x050000000000FFFF#64, 0x06FFFFFFFF00FFFF#64].map (fun op : OpWord =>
        (op.extractLsb' 56 8, op &&& resv (op.extractLsb' 56 8))) =
      [(0#8, 0#64), (1#8, 0#64), (2#8, 0#64), (3#8, 0#64), (4#8, 0#64), (5#8, 0#64), (6#8, 0#64)] := by decide

theorem witness_opcodeTable :
    (∃ r ∈ opcodeTable, r.matches 0x04FFFFFFFF000000#64 = true) ∧ decode 0x04FFFFFFFF000000#64 =
      .ok (.setWindow 255#8 255#8 255#8 255#8) := by decide

theorem witness_illegalAndReserved :
    (∀ op ∈ [0x0700000000000000#64, 0xFFFFFFFFFFFFFFFF#64, 0x0000000000000001#64, 0x0380000000000000#64,
        0x0400000000800000#64, 0x0500000000010000#64, 0x0580000000000000#64, 0x0600000000010000#64],
      (running op (idle 8 .reject)).Holds op ∧ (running op (idle 8 .reject)).fatal = false) ∧
    0x07 ≤ ((0x0700000000000000#64 : OpWord).extractLsb' 56 8).toNat ∧
    (let op : OpWord := 0x0380000000000000#64
     (op.extractLsb' 56 8).toNat ≤ 0x03 ∧ op &&& 0x00FFFFFFFFFFFFFF#64 ≠ 0#64) ∧
    (let op : OpWord := 0x0400000000800000#64
     (op.extractLsb' 56 8).toNat = 0x04 ∧ op &&& 0x0000000000FFFFFF#64 ≠ 0#64) ∧
    (let op : OpWord := 0x0500000000010000#64
     (op.extractLsb' 56 8).toNat = 0x05 ∧ op &&& 0x00FFFFFFFFFF0000#64 ≠ 0#64) ∧
    let op : OpWord := 0x0600000000010000#64
    (op.extractLsb' 56 8).toNat = 0x06 ∧ op &&& 0x0000000000FF0000#64 ≠ 0#64 :=
  ⟨fun op _ => ⟨holds_running op 8 rfl, rfl⟩, by decide⟩

theorem witness_assembler :
    ((255 : Nat) ≤ 255 ∧ (0 : Nat) ≤ 255) ∧ ¬((256 : Nat) ≤ 255) ∧ (0xFFFF : Nat) ≤ 0xFFFF ∧ (0xFFFF : Nat) < 0x10000 := by
  decide

/-- A line with a decimal numeral, hexadecimal ones of either case, a leading zero and a comment. -/
theorem witness_assembler_written : Written (mnemonicOf (.drawRect 0#8 255#8 10#8 16#8 0xF80A#16))
    (operandsOf (.drawRect 0#8 255#8 10#8 16#8 0xF80A#16)) "DRAW_RECT 0, 0xFf, 010, 0x10, 0xF80A; c".toList :=
  ⟨["0".toList, "0xFf".toList, "010".toList, "0x10".toList, "0xF80A".toList], "; c".toList,
    .cons ⟨[0], by decide, .inl ⟨.cons (by unfold IsDigit; decide) .nil, by decide⟩⟩
    (.cons ⟨[15, 15], by decide, .inr ⟨"Ff".toList, by decide,
      .cons (by unfold IsDigit; decide) (.cons (by unfold IsDigit; decide) .nil), by decide⟩⟩
    (.cons ⟨[0, 1, 0], by decide, .inl ⟨.cons (by unfold IsDigit; decide) (.cons (by unfold IsDigit; decide)
      (.cons (by unfold IsDigit; decide) .nil)), by decide⟩⟩
    (.cons ⟨[1, 0], by decide, .inr ⟨"10".toList, by decide,
      .cons (by unfold IsDigit; decide) (.cons (by unfold IsDigit; decide) .nil), by decide⟩⟩
    (.cons ⟨[15, 8, 0, 10], by decide, .inr ⟨"F80A".toList, by decide, .cons (by unfold IsDigit; decide)
      (.cons (by unfold IsDigit; decide) (.cons (by unfold IsDigit; decide) (.cons (by unfold IsDigit; decide) .nil))),
      by decide⟩⟩ .nil)))),
    .inr ⟨" c".toList, by decide, by decide⟩, by decide⟩

/-- The first values out of range, 256 and 65536, and a further line that assembles. -/
theorem witness_assembler_range :
    Written "SET_WINDOW".toList [256, 0, 1, 1] "SET_WINDOW 256, 0, 1, 1".toList ∧ ¬(256 ≤ 255) ∧
    Written "FILL".toList [0x10000] "FILL 0x10000".toList ∧ 0xFFFF < 0x10000 ∧
    Written "DRAW_RECT".toList [0, 0, 1, 1, 0x10000] "DRAW_RECT 0, 0, 1, 1, 0x10000".toList ∧
    assemble "NOP".toList = .ok [0#64] := by
  have one : Numeral "1".toList 1 := ⟨[1], by decide, .inl ⟨.cons (by unfold IsDigit; decide) .nil, by decide⟩⟩
  have zero : Numeral "0".toList 0 := ⟨[0], by decide, .inl ⟨.cons (by unfold IsDigit; decide) .nil, by decide⟩⟩
  have big : Numeral "256".toList 256 := ⟨[2, 5, 6], by decide, .inl ⟨.cons (by unfold IsDigit; decide)
    (.cons (by unfold IsDigit; decide) (.cons (by unfold IsDigit; decide) .nil)), by decide⟩⟩
  have huge : Numeral "0x10000".toList 0x10000 := ⟨[1, 0, 0, 0, 0], by decide, .inr ⟨"10000".toList, by decide,
    .cons (by unfold IsDigit; decide) (.cons (by unfold IsDigit; decide) (.cons (by unfold IsDigit; decide)
      (.cons (by unfold IsDigit; decide) (.cons (by unfold IsDigit; decide) .nil)))), by decide⟩⟩
  refine ⟨⟨["256".toList, "0".toList, "1".toList, "1".toList], [],
      .cons big (.cons zero (.cons one (.cons one .nil))), .inl rfl, by decide⟩, by decide,
    ⟨["0x10000".toList], [], .cons huge .nil, .inl rfl, by decide⟩, by decide,
    ⟨["0".toList, "0".toList, "1".toList, "1".toList, "0x10000".toList], [],
      .cons zero (.cons zero (.cons one (.cons one (.cons huge .nil)))), .inl rfl, by decide⟩, by decide⟩

theorem witness_stepRuns :
    (running 0x0200000000000000#64 (idle 8 .reject)).Holds 0x0200000000000000#64 ∧
    decode 0x0200000000000000#64 = .ok .txnBegin ∧
    (idle 8 .reject).cfg.wf = true ∧ decodeTableWord 64 0x0600000101001234 = some (.drawRect 0#8 0#8 1#8 1#8 0x1234#16) :=
  ⟨holds_running _ 8 rfl, by decide⟩

theorem witness_lastResult :
    (let s := running 0x0300000000000000#64 (idle 8 .reject)
     s.busy = true ∧ ∃ t, step s = .next t) ∧
    let s := hostDoes [.issue 0x0300000000000000#64] (idle 8 .reject)
    s.busy = false ∧ ∃ t, step s = .next t := ⟨⟨rfl, _, rfl⟩, rfl, _, rfl⟩

theorem witness_errIsSticky :
    (let s := running 0x0700000000000000#64 { idle 8 .reject with err := true }
     s.busy = true ∧ ∃ t, step s = .next t) ∧
    let s := hostDoes [.read 0#2] (idle 8 .reject)
    s.busy = false ∧ ∃ t, step s = .next t := ⟨⟨rfl, _, rfl⟩, rfl, _, rfl⟩

theorem witness_fatalCauses :
    (let s := running 0x0100000000000000#64 (atReset 15001 .reject)
     s.Holds 0x0100000000000000#64 ∧ ∃ t, step s = .next t ∧ t.lastResult = .eConfig) ∧
    (let s := running 0x06F0000101000000#64 (idle 8 .fatal)
     s.Holds 0x06F0000101000000#64 ∧ ∃ t, step s = .next t ∧ t.lastResult = .eBounds) ∧
    (∃ t, (idle 8 .reject).busy = false ∧ step (idle 8 .reject) = .next t) ∧
    let s := running 0x0100000000000000#64 { idle 8 .reject with fatal := true }
    s.Holds 0x0100000000000000#64 ∧ s.fatal = true :=
  ⟨⟨⟨rfl, rfl, rfl⟩, of_look (f := (·.lastResult)) (by decide)⟩,
    ⟨⟨rfl, rfl, rfl⟩, of_look (f := (·.lastResult)) (by decide)⟩, ⟨_, rfl, rfl⟩, ⟨rfl, rfl, rfl⟩, rfl⟩

theorem witness_onlyInitChangesThePhase :
    let s := running 0x0100000000000000#64 (atReset 15000 .reject)
    (s.phase = .unpowered ∨ s.phase = .active) ∧ ∃ t, step s = .next t ∧ t.phase = .active :=
  ⟨.inl rfl, of_look (f := (·.phase)) (by decide)⟩

theorem witness_firstErrorInPriority :
    let s := running 0x0600F0F000000000#64 (inBracket 8 .reject)
    s.Holds 0x0600F0F000000000#64 ∧ ∃ t, step s = .next t := ⟨⟨rfl, rfl, rfl⟩, _, rfl⟩

theorem witness_rejectionIsPrecise :
    let s := running 0x0300000000000000#64 (idle 8 .reject)
    s.Holds 0x0300000000000000#64 ∧ ∃ t, step s = .next t ∧ t.lastResult ≠ .ok := ⟨⟨rfl, rfl, rfl⟩, _, rfl, by decide⟩

theorem witness_fatalState :
    (let s := running 0x0000000000000000#64 { idle 8 .reject with fatal := true }
     s.Holds 0x0000000000000000#64 ∧ s.fatal = true ∧ ∃ t, step s = .next t) ∧
    (let s := hostDoes [.read 0#2] { idle 8 .reject with fatal := true }
     s.cfg.wf = true ∧ s.fatal = true ∧ s.busy = false ∧ s.trace.length ≤ s.panel.seen ∧ s.host.running = none ∧
       s.host.todo = [.read 0#2]) ∧
    let s := running 0x06F0000101000000#64 (idle 8 .fatal)
    s.fatal = false ∧ ∃ t, step s = .next t ∧ t.fatal = true :=
  ⟨⟨⟨rfl, rfl, rfl⟩, rfl, _, rfl⟩, ⟨rfl, rfl, rfl, by decide, rfl, rfl⟩, rfl, of_look (f := (·.fatal)) (by decide)⟩

theorem witness_oneOperation :
    (let s := running 0x0000000000000000#64 (idle 8 .reject)
     s.busy = true ∧ ∃ t, step s = .next t) ∧
    let s := hostDoes [.issue 0xFFFFFFFFFFFFFFFF#64] (inBracket 8 .reject)
    s.cfg.wf = true ∧ s.busy = false ∧ s.trace.length ≤ s.panel.seen ∧ s.host.running = none ∧
      s.host.todo = [.issue 0xFFFFFFFFFFFFFFFF#64] := ⟨⟨rfl, _, rfl⟩, rfl, rfl, by decide, rfl, rfl⟩

theorem witness_eventSegments :
    (∃ t, step (running 0x0300000000000000#64 (windowed 8)) = .next t) ∧ (windowed 8).busy = false ∧
      ∃ t, step (windowed 8) = .next t := ⟨⟨_, rfl⟩, rfl, _, rfl⟩

theorem witness_panelMove : ∀ e ∈ [Event.cmd 0x2A#8, .data [0x00#8, 0x01#8, 0x00#8, 0x02#8], .txnEnd],
    let s := { idle 8 .reject with trace := [e] }
    s.cfg.wf = true ∧ s.busy = false ∧ s.trace[s.panel.seen]? = some e := fun _ _ => ⟨rfl, rfl, rfl⟩

theorem witness_nop : (atReset 0 .reject).fatal = false := rfl

theorem witness_sendCmd : testParams.bytes .invon = [] ∧ testParams.bytes .pwctrl1 ≠ [] := by decide

theorem witness_initRuns : ∀ cap ∈ [2, 15000, 16777214],
    (atReset cap .reject).fatal = false ∧ (atReset cap .reject).txnOpen = false ∧ capSound (atReset cap .reject).cfg.cap := by
  unfold capSound; decide

theorem witness_initLeavesTheLines : ∃ t, exec .init (atReset 15000 .reject) = .next t ∧ t.lastResult = .ok :=
  of_look (f := (·.lastResult)) (by decide)

theorem witness_initDelays :
    ((atReset 15000 .reject).cfg.wf = true ∧ ∃ t, exec .init (atReset 15000 .reject) = .next t ∧ t.lastResult = .ok) ∧
    Instr.txnEnd ≠ .init ∧ ∃ t, exec .txnEnd (windowed 8) = .next t :=
  ⟨⟨rfl, of_look (f := (·.lastResult)) (by decide)⟩, by decide, _, rfl⟩

theorem witness_reinit : ∃ t u, exec .init (atReset 15000 .reject) = .next t ∧ t.lastResult = .ok ∧ exec .init t = .next u := by
  obtain ⟨t, ht, hr⟩ := of_look (o := exec .init (atReset 15000 .reject)) (f := fun t => (t.lastResult, t.cfg.cap))
    (b := (.ok, 15000)) (by decide)
  obtain ⟨hr, hc⟩ := Prod.mk.inj hr
  obtain ⟨u, hu⟩ := exec_goes_on (s := t) .init (by rw [hc]; unfold capSound; decide)
  exact ⟨t, u, ht, hr, hu⟩

theorem witness_txnBegin : (idle 8 .reject).fatal = false ∧ (idle 8 .reject).phase = .active ∧
    (idle 8 .reject).txnOpen = false := by decide

theorem witness_txnEnd : (windowed 8).fatal = false ∧ (windowed 8).phase = .active ∧ (windowed 8).txnOpen = true := by decide

theorem witness_nothingDraws : (atReset 8 .reject).fatal = false ∧ (atReset 8 .reject).phase ≠ .active ∧
    Instr.fill 0#16 ≠ .nop ∧ Instr.fill 0#16 ≠ .init := by decide

theorem witness_initFailsFast :
    (∀ cap ∈ [0, 1, 3, 16777215], (atReset cap .reject).fatal = false ∧ ¬capSound (atReset cap .reject).cfg.cap) ∧
    (inBracket 2 .reject).fatal = false ∧ capSound (inBracket 2 .reject).cfg.cap ∧ (inBracket 2 .reject).txnOpen = true := by
  unfold capSound; decide

/-- Values where the clauses of R79 meet: the last rectangle that fits, the first that does not, a zero extent out of
bounds, an origin on the last row and off the panel (file 95, L2.3). -/
theorem witness_checkRect :
    (1 ≤ 1 ∧ 239 + 1 ≤ 240) ∧ 240 < 230 + 11 ∧ 230 ≤ 239 ∧ 239 < 240 ∧
    checkRect .reject 240 0 0 1 = .zeroExtent ∧ checkRect .clamp 239 239 1 1 = .pass ⟨239, 239, 1, 1⟩ ∧
    checkRect .clamp 230 0 11 1 = .pass ⟨230, 0, 10, 1⟩ ∧ checkRect .clamp 240 0 1 1 = .bounds ∧
    (let s := inBracket 8 .fatal
     checkRect s.cfg.oob (240#8 : Byte).toNat (0#8 : Byte).toNat (1#8 : Byte).toNat (1#8 : Byte).toNat = .bounds ∧
     checkRect s.cfg.oob (240#8 : Byte).toNat (0#8 : Byte).toNat (0#8 : Byte).toNat (1#8 : Byte).toNat = .zeroExtent) := by
  decide

theorem witness_windowBody : Rect.full.onPanel ∧ (⟨239, 239, 1, 1⟩ : Rect).onPanel := by unfold Rect.onPanel; decide

theorem witness_setWindow :
    (inBracket 8 .clamp).fatal = false ∧ (inBracket 8 .clamp).phase = .active ∧ (inBracket 8 .clamp).txnOpen = true ∧
    Programs (inBracket 8 .clamp).cfg.oob 239#8 239#8 1#8 1#8 ⟨239, 239, 1, 1⟩ ∧
    Programs (inBracket 8 .clamp).cfg.oob 230#8 0#8 11#8 1#8 ⟨230, 0, 10, 1⟩ := by unfold Programs; decide

theorem witness_noWindowLeaves :
    (let s := running 0x0400000101000000#64 (windowed 8)
     (s.winX.toNat + s.winW.toNat ≤ 240 ∧ s.winY.toNat + s.winH.toNat ≤ 240 ∧
       s.winCount.toNat = s.winW.toNat * s.winH.toNat) ∧ ∃ t, step s = .next t) := ⟨by decide, _, rfl⟩

theorem witness_fillPattern : keysRise [(0, 7#8), (5, 8#8)] = true := by decide

theorem witness_bufferReads :
    Mem.wf 8 [(0, 7#8), (7, 8#8)] = true ∧ 7 < 8 ∧ 8 ≤ 8 := by decide

theorem witness_fillChunks : capSound (windowed 2).cfg.cap ∧ ∃ t, fillBody 0xF800#16 (windowed 2) = .next t :=
  ⟨by unfold capSound; decide, _, rfl⟩

theorem witness_fillSends : (⟨239, 239, 1, 1⟩ : Rect).onPanel ∧ capSound (inBracket 2 .reject).cfg.cap ∧
    ∃ t, fillBody 0xF800#16 (windowBody ⟨239, 239, 1, 1⟩ (inBracket 2 .reject)) = .next t :=
  ⟨by unfold Rect.onPanel; decide, by unfold capSound; decide, _, rfl⟩

theorem witness_fillStreams :
    (windowed 2).fatal = false ∧ (windowed 2).phase = .active ∧ (windowed 2).txnOpen = true ∧
    (windowed 2).winValid = true ∧ capSound (windowed 2).cfg.cap ∧ 1 ≤ (windowed 2).winCount.toNat := by
  unfold capSound; decide

theorem witness_drawRect :
    (idle 2 .clamp).fatal = false ∧ (idle 2 .clamp).phase = .active ∧ (idle 2 .clamp).txnOpen = false ∧
    capSound (idle 2 .clamp).cfg.cap ∧ Programs (idle 2 .clamp).cfg.oob 10#8 239#8 5#8 2#8 ⟨10, 239, 5, 1⟩ ∧
    Programs (idle 2 .clamp).cfg.oob 0#8 0#8 240#8 240#8 Rect.full := by unfold capSound Programs; decide

theorem witness_windowIsConsumed :
    (∃ t u, exec (.fill 0xF800#16) (windowed 8) = .next t ∧ t.lastResult = .ok ∧ exec (.fill 0#16) t = .next u) ∧
    ∃ t u, exec .txnEnd (windowed 8) = .next t ∧ t.lastResult = .ok ∧ exec (.fill 0#16) t = .next u :=
  ⟨⟨_, _, rfl, rfl, rfl⟩, _, _, rfl, rfl, rfl⟩

theorem witness_traceLength :
    (idle 8 .reject).cfg.wf = true ∧ capSound (idle 8 .reject).cfg.cap ∧
    (∀ n ∈ configCommands, (idle 8 .reject).cfg.initParams.bytes n ≠ []) ∧
    ∃ t, exec (.drawRect 0#8 0#8 1#8 1#8 0#16) (idle 8 .reject) = .next t ∧ t.lastResult = .ok :=
  ⟨rfl, by unfold capSound; decide, by decide, _, rfl, rfl⟩

theorem witness_frameStoresNothing : ∀ i ∈ [Instr.nop, .txnBegin, .txnEnd, .setWindow 0#8 0#8 1#8 1#8],
    (∃ t, exec i (inBracket 8 .reject) = .next t) ∧
    (i = .nop ∨ i = .txnBegin ∨ i = .txnEnd ∨ ∃ x y w h, i = .setWindow x y w h) := by
  intro i hi
  refine ⟨exec_goes_on i (by unfold capSound; decide), ?_⟩
  simp only [List.mem_cons, List.not_mem_nil, or_false] at hi
  rcases hi with rfl | rfl | rfl | rfl <;> simp

theorem witness_frameFills :
    (∃ t, exec .init (atReset 15000 .reject) = .next t ∧ t.lastResult = .ok) ∧
    (∃ t, exec (.fill 1#16) (windowed 2) = .next t ∧ t.lastResult = .ok) ∧
    (∃ t, exec (.fill 1#16) (idle 2 .reject) = .next t ∧ t.lastResult ≠ .ok) ∧
    ∃ t, exec (.drawRect 0#8 0#8 1#8 1#8 1#16) (idle 2 .reject) = .next t ∧ t.lastResult = .ok :=
  ⟨of_look (f := (·.lastResult)) (by decide), ⟨_, rfl, rfl⟩, ⟨_, rfl, by decide⟩, _, rfl, rfl⟩

theorem witness_oldBuffer : ∃ t, exec (.fill 0x1234#16) (windowed 2) = .next t := ⟨_, rfl⟩

theorem witness_panelAndLines : ∃ t, exec .txnBegin (idle 8 .reject) = .next t := ⟨_, rfl⟩

/-- The invariant holds of a state with a bracket open and a window programmed. -/
theorem windowed_inv : (windowed 8).Inv where
  config := rfl
  phase := .inr rfl
  activeCap _ := by unfold capSound; decide
  txnActive _ := rfl
  txnTrace := rfl
  winTxn _ := rfl
  winExtent _ := by decide
  winOnPanel := by decide
  winCount := by decide
  buffer := rfl
  errSet h := absurd rfl h
  fatalErr h := by cases h
  quiet h := by cases h
  dataBytes := by decide
  linesOut _ := by decide
  lineLevels _ := by decide
  chipSelect _ := rfl
  panelSeen := by decide
  panelKeys := by decide
  lastReturned := rfl

theorem witness_invariantIsKept : (windowed 8).Inv ∧ ∃ t, step (windowed 8) = .next t := ⟨windowed_inv, _, rfl⟩

theorem witness_invariantHoldsAtReset : (testConfig 15001 .fatal).wf = true := by decide

theorem witness_everyStepGoesOn : (windowed 8).Inv ∧
    let s := running 0x0300000000000000#64 (windowed 8)
    s.busy = true ∧ ∃ t, step s = .next t ∧ t.lastResult = .ok := ⟨windowed_inv, rfl, _, rfl, rfl⟩

theorem witness_observerTakesWindowBytes :
    ([[0x00#8], [], [0xE6#8, 0x00#8], [0xEF#8]] : List (List Byte)).flatten = [0x00#8, 0xE6#8, 0x00#8, 0xEF#8] ∧
    PanelCodes.default.caset ≠ PanelCodes.default.ramwr ∧ PanelCodes.default.raset ≠ PanelCodes.default.ramwr ∧
    PanelCodes.default.raset ≠ PanelCodes.default.caset := by decide

theorem witness_windowAndFill :
    (⟨239, 239, 1, 1⟩ : Rect).onPanel ∧ capSound (inBracket 2 .reject).cfg.cap ∧ keysRise testPanel.fm = true ∧
    (inBracket 2 .reject).cfg.panelCmd = PanelCodes.default ∧
    ∃ t, fillBody 0xF800#16 (windowBody ⟨239, 239, 1, 1⟩ (inBracket 2 .reject)) = .next t :=
  ⟨by unfold Rect.onPanel; decide, by unfold capSound; decide, rfl, rfl, _, rfl⟩

theorem witness_glyph :
    (testConfig 8 .reject).wf = true ∧ (testConfig 8 .reject).glyphBase ≤ 65 ∧
    (testConfig 8 .reject).glyph[65 - (testConfig 8 .reject).glyphBase]? = some [0x01#8, 0x7F#8, 0x01#8, 0x00#8, 0x00#8] ∧
    64 < (testConfig 8 .reject).glyphBase ∧ (testConfig 8 .reject).glyphBase + (testConfig 8 .reject).glyphCount ≤ 66 ∧
    7 < 8 := by decide

theorem witness_drawChar : 4 < 5 ∧ 7 < 8 := by decide

theorem witness_stringPlaces : 0 < [65, 66].length ∧ 0 + 1 < [65, 66].length ∧ 240 < 230 + (5 + 1) * 1 + 5 * 1 ∧
    ¬240 < 229 + (5 + 1) * 1 + 5 * 1 := by decide

theorem witness_pseudoOperation_starts :
    let s := hostDoes [.pseudo .clear] (idle 8 .reject)
    s.cfg.wf = true ∧ s.busy = false ∧ s.trace.length ≤ s.panel.seen ∧ s.host.running = none ∧
      s.host.todo = [.pseudo .clear] ∧ ∀ text sc, PseudoOp.clear ≠ .stringWidth text sc :=
  ⟨rfl, rfl, by decide, rfl, rfl, fun _ _ h => nomatch h⟩

theorem witness_pseudoOperation :
    (∀ q ∈ [(⟨255, 255, 255, 255, 0#16⟩ : DrawReq), ⟨256, 0, 1, 1, 0#16⟩],
      let s := hostRuns ⟨[q], .ok⟩ (idle 8 .reject)
      s.cfg.wf = true ∧ s.busy = false ∧ s.trace.length ≤ s.panel.seen ∧ s.host.running = some ⟨[q], .ok⟩) ∧
    (255 ≤ 255 ∧ ¬256 ≤ 255) ∧
    (let s := running 0x0700000000000000#64 (hostRuns ⟨[], .ok⟩ (idle 8 .reject))
     s.busy = true ∧ s.host.running = some ⟨[], .ok⟩ ∧ ∃ t, step s = .next t) ∧
    let s := hostRuns ⟨[], .eBounds⟩ (idle 8 .reject)
    s.cfg.wf = true ∧ s.busy = false ∧ s.trace.length ≤ s.panel.seen ∧ s.host.running = some ⟨[], .eBounds⟩ :=
  ⟨fun _ _ => ⟨rfl, rfl, Nat.le_refl 0, rfl⟩, by decide, ⟨rfl, rfl, _, rfl⟩, rfl, rfl, Nat.le_refl 0, rfl⟩

theorem witness_stringWidth :
    let s := hostDoes [.pseudo (.stringWidth [65, 66] 2)] (idle 8 .reject)
    s.cfg.wf = true ∧ s.busy = false ∧ s.trace.length ≤ s.panel.seen ∧ s.host.running = none ∧
      s.host.todo = [.pseudo (.stringWidth [65, 66] 2)] := ⟨rfl, rfl, by decide, rfl, rfl⟩

end Sys2Proof.Tests
end

section
/-! PROOFS. The statements of the state: what a step of each agent leaves of LCDSEQ's registers, stated once for the idle
moves (the panel's and the host's) and once for LCDSEQ's move, and the six obligations drawn from the two. -/

namespace Sys2Proof.Machine

/-! The steps between operations. -/

/-- What a step between operations can do (R7, R18): the panel moves, the host moves, or the host issues a word. -/
inductive IdleMove (s t : State) : Prop where
  /-- The panel consumes an event. -/
  | panel (p : Panel) (h : t = { s with panel := p })
  /-- The host acts without issuing. -/
  | host (g : HostAgent) (h : t = { s with host := g }) (hr : g.results = s.host.results)
  /-- The host issues a word, and the port takes it. -/
  | issue (op : OpWord) (g : HostAgent) (h : t = portTake op { s with host := g }) (hr : g.results = s.host.results)

/-- A pseudo-operation's constituent is issued, or counted and not issued (R89). -/
theorem issueConstituent_idleMove (p : PseudoRun) (q : DrawReq) (rest : List DrawReq) (s : State) :
    IdleMove s (issueConstituent p q rest s) := by
  unfold issueConstituent
  split
  · exact .issue _ _ rfl rfl
  · exact .host _ rfl rfl

theorem pseudoMove_idleMove (p : PseudoRun) (s : State) : IdleMove s (pseudoMove p s) := by
  unfold pseudoMove
  split
  · exact .host _ rfl rfl
  · exact issueConstituent_idleMove _ _ _ s

theorem actionMove_idleMove (a : HostAction) (rest : List HostAction) (s : State) : IdleMove s (actionMove a rest s) := by
  cases a with
  | issue op => exact .issue op _ rfl rfl
  | read idx => exact .host _ rfl rfl
  | pseudo p => cases p <;> exact .host _ rfl rfl

theorem hostMove_idleMove (s : State) : IdleMove s (hostMove s) := by
  unfold hostMove
  split
  · exact pseudoMove_idleMove _ s
  · split
    · exact .host s.host rfl rfl
    · exact actionMove_idleMove _ _ s

/-- Every step between operations is an idle move. -/
theorem step_idleMove {s t : State} (hb : s.busy = false) (h : step s = .next t) : IdleMove s t := by
  obtain ⟨_, ⟨hb', _⟩ | ⟨_, _, rfl⟩ | ⟨_, _, rfl⟩⟩ := step_eq_next.mp h
  · simp [hb] at hb'
  · obtain ⟨p, hp⟩ := panelMove_frame s
    exact .panel p hp
  · exact hostMove_idleMove s

/-- An idle move leaves every register of LCDSEQ but BUSY and the port's word. -/
theorem IdleMove.frame {s t : State} (h : IdleMove s t) :
    t = { s with host := t.host, panel := t.panel, busy := t.busy, portWord := t.portWord } := by
  cases h with
  | panel p h => subst h; rfl
  | host g h => subst h; rfl
  | issue op g h => subst h; rfl

/-- An idle move that issues nothing leaves the port's word. -/
theorem IdleMove.portWord {s t : State} (h : IdleMove s t) (hb : t.busy = false) : t.portWord = s.portWord := by
  cases h with
  | panel p h => subst h; rfl
  | host g h => subst h; rfl
  | issue op g h => subst h; cases hb

/-- An idle move returns no result of an operation. -/
theorem IdleMove.results {s t : State} (h : IdleMove s t) : t.host.results = s.host.results := by
  cases h with
  | panel p h => subst h; rfl
  | host g h hr => subst h; exact hr
  | issue op g h hr => subst h; exact hr

theorem IdleMove.cfg {s t : State} (h : IdleMove s t) : t.cfg = s.cfg := by rw [h.frame]
theorem IdleMove.phase {s t : State} (h : IdleMove s t) : t.phase = s.phase := by rw [h.frame]
theorem IdleMove.fatal {s t : State} (h : IdleMove s t) : t.fatal = s.fatal := by rw [h.frame]
theorem IdleMove.err {s t : State} (h : IdleMove s t) : t.err = s.err := by rw [h.frame]
theorem IdleMove.lastResult {s t : State} (h : IdleMove s t) : t.lastResult = s.lastResult := by
  rw [h.frame]

/-! The end of an operation. -/

/-- The step while an operation is in progress is that operation's end (R18, R72). -/
theorem step_ends {s t : State} (hb : s.busy = true) (h : step s = .next t) : Ends s t := by
  obtain ⟨_, ⟨_, hm⟩ | ⟨hb', _⟩ | ⟨hb', _⟩⟩ := step_eq_next.mp h
  · exact lcdseqMove_ends hm
  · simp [hb] at hb'
  · simp [hb] at hb'

/-- A step reports the result of the priority list for the word the port holds (R98). -/
theorem step_result {s t : State} {op : OpWord} (hh : s.Holds op) (h : step s = .next t) :
    t.lastResult = reportedResult op s := by
  obtain ⟨hw, hb, rfl⟩ := hh
  exact lcdseqMove_result (step_busy hw hb ▸ h)

theorem Ends.cfg {s t : State} (h : Ends s t) : t.cfg = s.cfg := by
  cases h with
  | rejected r _ h => subst h; rfl
  | done i u _ _ _ he h =>
    obtain ⟨hcfg, _⟩ := he.keeps
    subst h
    exact hcfg

theorem Ends.busy {s t : State} (h : Ends s t) : t.busy = false := by
  cases h with
  | rejected r _ h => subst h; rfl
  | done i u _ _ _ _ h => subst h; rfl

/-- The host receives the result that LAST_RESULT then holds (R26). -/
theorem Ends.host {s t : State} (h : Ends s t) : t.host = s.host.returned t.lastResult := by
  cases h with
  | rejected r _ h => subst h; rfl
  | done i u _ _ _ he h =>
    obtain ⟨_, _, _, _, _, _, _, hhost⟩ := he.keeps
    subst h
    simp [hhost]

/-- ERR is the status update's function of the old ERR and the result (R25). -/
theorem Ends.err {s t : State} (h : Ends s t) : t.err = errAfter s.err t.lastResult := by
  cases h with
  | rejected r _ h => subst h; rfl
  | done i u _ _ _ he h =>
    obtain ⟨_, _, herr, _⟩ := he.keeps
    subst h
    simp [herr]

/-- FATAL is what the result does to it, for OK nothing (R24, R99). -/
theorem Ends.fatal {s t : State} (h : Ends s t) : t.fatal = (blame t.lastResult s).fatal := by
  cases h with
  | rejected r _ h => subst h; rfl
  | done i u _ _ _ he h =>
    obtain ⟨_, hfatal, _⟩ := he.keeps
    subst h
    simp [hfatal, blame]

/-- PHASE changes only at the end of an INIT that answers OK, and then to ACTIVE (R23). -/
theorem Ends.phase {s t : State} (h : Ends s t) :
    t.phase = s.phase ∨ (decode s.portWord = .ok .init ∧ t.lastResult = .ok ∧ t.phase = .active) := by
  cases h with
  | rejected r _ h => subst h; exact .inl rfl
  | done i u hd _ _ he h =>
    subst h
    by_cases hi : i = .init
    · exact .inr ⟨hi ▸ hd, rfl, by simp [he.phase, hi]⟩
    · exact .inl (by simp [he.phase, hi])

/-! FATAL and the results that set it. -/

theorem blame_fatal_iff (r : Result) (s : State) :
    (blame r s).fatal = true ↔ s.fatal = true ∨ r = .eConfig ∨ (s.cfg.oob = .fatal ∧ r = .eBounds) := by
  simp [blame, or_assoc, and_comm]

theorem rectResult_ne_eConfig (pol : OobPolicy) (x y w h : Byte) : rectResult pol x y w h ≠ .eConfig := by
  rcases rectResult_cases pol x y w h with e | e | e <;> simp [e]

/-- INIT is the only operation whose checks report E_CONFIG (R75). -/
theorem ownResult_eConfig {i : Instr} {s : State} (h : ownResult i s = .eConfig) : i = .init := by
  cases i with
  | nop => cases h
  | init => rfl
  | txnBegin => simp only [ownResult] at h; split_ifs at h
  | txnEnd => simp only [ownResult] at h; split_ifs at h
  | setWindow x y w g => simp only [ownResult] at h; split_ifs at h; exact absurd h (rectResult_ne_eConfig _ _ _ _ _)
  | fill c => simp only [ownResult] at h; split_ifs at h
  | drawRect x y w g c => simp only [ownResult] at h; split_ifs at h; exact absurd h (rectResult_ne_eConfig _ _ _ _ _)

/-- A word reported as E_CONFIG is INIT's. -/
theorem reportedResult_eConfig {op : OpWord} {s : State} (h : reportedResult op s = .eConfig) : decode op = .ok .init := by
  unfold reportedResult at h
  split at h
  · cases h
  · split at h
    · cases h
    · cases h
    · next i hd => rw [hd, ownResult_eConfig h]

/-- While FATAL is 1 LCDSEQ's move is the status update of E_FATAL, whatever the word (R101). -/
theorem lcdseqMove_fatal {s : State} (hf : s.fatal = true) : lcdseqMove s = .next (finish .eFatal s) := by
  refine lcdseqMove_eq_next.mpr ?_
  cases hd : decode s.portWord with
  | error e => exact .inl ⟨e, rfl, by simp [rejectOp, hf]⟩
  | ok i => exact .inr ⟨i, rfl, exec_eq_next.mpr (.inl ⟨hf, rfl⟩)⟩

/-- The status update of a rejection sets ERR (R25, R72). -/
theorem finish_error {r : Result} (hr : r ≠ .ok) (s : State) :
    finish r s = { s with lastResult := r, err := true, busy := false, host := s.host.returned r } := by
  rw [finish, errAfter_error s.err hr]

/-! Register reads (R19). -/

/-- The step of a host that reads a register, as its whole next state. -/
theorem step_read {s : State} {idx : BitVec 2} {rest : List HostAction} (hw : s.cfg.wf = true) (hb : s.busy = false)
    (hp : s.trace.length ≤ s.panel.seen) (hr : s.host.running = none) (ht : s.host.todo = .read idx :: rest) :
    step s = .next
      { s with host := { s.host with todo := rest, reads := s.host.reads ++ [(idx, readReg s idx)] } } := by
  rw [step_host hw hb hp]
  simp [hostMove, hr, ht, actionMove]

/-- No host register shows anything of the host. -/
theorem readReg_host (s : State) (g : HostAgent) (idx : BitVec 2) : readReg { s with host := g } idx = readReg s idx := rfl

/-! The obligations. -/

/-- Settles O5: an operation's effect, a rejection and an idle move each keep the configuration. -/
theorem configurationNeverChanges : Obligations.ConfigurationNeverChanges := by
  intro s t h
  cases hb : s.busy
  · exact (step_idleMove hb h).cfg
  · exact (step_ends hb h).cfg

/-- Settles O6: a read touches the host's record only, which no register shows; while BUSY = 1 the host receives a result and
nothing else; and between operations every step is an idle move. -/
theorem registerReadHasNoSideEffect : Obligations.RegisterReadHasNoSideEffect := by
  refine ⟨fun s idx rest hw hb hp hrun htodo => ?_, fun s t hb h => ?_, fun s t hb h => ?_⟩
  · have first := step_read hw hb hp hrun htodo
    refine ⟨first, fun t ht => ?_⟩
    obtain rfl := Host.Outcome.next.inj (first.symm.trans ht)
    refine Eq.trans (step_read hw hb hp hrun rfl) ?_
    simp only [readReg_host, List.append_assoc, List.cons_append, List.nil_append]
  · rw [(step_ends hb h).host]
    exact ⟨rfl, rfl⟩
  · exact ⟨(step_idleMove hb h).frame, (step_idleMove hb h).portWord⟩

/-- Settles O15: the status update stores the result it returns, and an idle move makes none. -/
theorem lastResultIsTheResultReturned : Obligations.LastResultIsTheResultReturned := by
  refine ⟨fun s t hb h => ?_, fun s t hb h => ?_⟩
  · have he := step_ends hb h
    exact ⟨(congrArg HostAgent.results he.host).trans (returned_results _ _), he.busy⟩
  · exact ⟨(step_idleMove hb h).lastResult, (step_idleMove hb h).results⟩

/-- Settles O16: no effect touches ERR, so the status update alone decides it. -/
theorem errIsStickyAndSetByEveryRejection : Obligations.ErrIsStickyAndSetByEveryRejection :=
  ⟨fun _ _ hb h => (step_ends hb h).err, fun _ _ hb h => (step_idleMove hb h).err, fun _ => rfl⟩

/-- Settles O17: FATAL is what the result does to it, and E_CONFIG is a result of INIT alone. -/
theorem fatalHasExactlyTwoCauses : Obligations.FatalHasExactlyTwoCauses := by
  refine ⟨fun s t op hh h => ?_, fun s t hb h => (step_idleMove hb h).fatal, fun s op hh hf => ?_, fun _ => rfl⟩
  · have hb : s.busy = true := hh.2.1
    have hinit : t.lastResult = .eConfig → decode op = .ok .init :=
      fun hc => reportedResult_eConfig ((step_result hh h).symm.trans hc)
    rw [(step_ends hb h).fatal, blame_fatal_iff, and_iff_right_of_imp hinit]
  · obtain ⟨hw, hb, _⟩ := hh
    rw [step_busy hw hb, lcdseqMove_fatal hf, finish_error (by decide)]

/-- A step changes PHASE only as the end of an INIT that answers OK, and then to ACTIVE (R23). -/
theorem step_phase {s t : State} (h : step s = .next t) :
    t.phase = s.phase ∨ (s.busy = true ∧ decode s.portWord = .ok .init ∧ t.lastResult = .ok ∧ t.phase = .active) := by
  cases hb : s.busy
  · exact .inl (step_idleMove hb h).phase
  · exact (step_ends hb h).phase.imp_right fun hi => ⟨rfl, hi⟩

/-- Settles O18: PHASE stays or becomes ACTIVE, so 0 or 4 stays 0 or 4. -/
theorem onlyInitChangesThePhase : Obligations.OnlyInitChangesThePhase := by
  refine ⟨⟨rfl, rfl, rfl, rfl, rfl⟩, fun s t => step_phase, fun s t hp h => ?_⟩
  rcases step_phase h with he | ⟨_, _, _, he⟩
  · rw [he]
    exact hp.imp (congrArg Phase.code) (congrArg Phase.code)
  · exact .inr (congrArg Phase.code he)

end Sys2Proof.Machine
end

section
/-! PROOFS. Window addressing: the inclusive last addresses of a rectangle on the panel fit the bytes WindowBody sends. -/

namespace Sys2Proof.Machine

theorem addrByte_toNat {n : Nat} (h : n < 256) : (addrByte n).toNat = n := by
  simp [addrByte, Nat.mod_eq_of_lt h]

/-- A zero byte before an address byte is the address's big-endian 16-bit value (R44). -/
theorem zeroByte_append_toNat (b : Byte) : (0x00#8 ++ b : BitVec 16).toNat = b.toNat :=
  (BitVec.toNat_append 0x00#8 b).trans (by simp)

/-- The last column and the last row of a rectangle on the panel fit a byte: inclusive, they are at most 239 (R44, R80). -/
theorem onPanel_lastAddresses {r : Rect} (h : r.onPanel) :
    (addrByte (r.x + r.w - 1)).toNat = r.x + r.w - 1 ∧ (addrByte (r.y + r.h - 1)).toNat = r.y + r.h - 1 := by
  obtain ⟨_, _, _, _, _, _, hx, hy⟩ := onPanel_registers h
  exact ⟨addrByte_toNat (by omega), addrByte_toNat (by omega)⟩

/-- Settles O35: the four addresses and the registers of a rectangle on the panel hold it without wrapping, and the events
are then WindowBody's own. -/
theorem windowBodySendsAndRecords : Obligations.WindowBodySendsAndRecords := by
  intro r s h
  obtain ⟨hx, hy, hw, hh, hcount, _⟩ := onPanel_registers h
  obtain ⟨hxe, hye⟩ := onPanel_lastAddresses h
  have hevents := windowBody_trace r s
  exact ⟨addrByte r.x, addrByte (r.x + r.w - 1), addrByte r.y, addrByte (r.y + r.h - 1), hx, hxe, hy, hye, hevents,
    (zeroByte_append_toNat _).trans hxe, (zeroByte_append_toNat _).trans hye, hx, hy, hw, hh, hcount,
    windowBody_winValid r s, windowBody_buf r s⟩

end Sys2Proof.Machine
end

section
/-! PROOFS. Words that are no operation: the decoder's two errors, and the step that rejects such a word. -/

namespace Sys2Proof

/-- Every OPC past the table's last is illegal, whatever the rest of the word (R65). -/
theorem decode_illegal {op : OpWord} (h : 7 ≤ (opcOf op).toNat) : decode op = .error .illegal := by
  unfold decode
  exact if_pos h

/-- A defined OPC with a bit of its RESV set is reserved (R64). -/
theorem decode_reserved {op : OpWord} (h : (opcOf op).toNat ≤ 6) (hr : op &&& resv (opcOf op) ≠ 0#64) :
    decode op = .error .reserved := by
  unfold decode
  rw [if_neg (Nat.not_lt.mpr h), if_pos hr]

/-! RESV by operation code (R64). -/

/-- The operations without operands use no bit below OPC. -/
theorem resv_noOperands {opc : Byte} (h : opc.toNat ≤ 3) : resv opc = 0x00FFFFFFFFFFFFFF#64 := by
  obtain h | h | h | h : opc.toNat = 0 ∨ opc.toNat = 1 ∨ opc.toNat = 2 ∨ opc.toNat = 3 := by omega
  all_goals simp only [resv, h]

theorem resv_setWindow {opc : Byte} (h : opc.toNat = 4) : resv opc = 0x0000000000FFFFFF#64 := by
  simp only [resv, h]

theorem resv_fill {opc : Byte} (h : opc.toNat = 5) : resv opc = 0x00FFFFFFFFFF0000#64 := by
  simp only [resv, h]

theorem resv_drawRect {opc : Byte} (h : opc.toNat = 6) : resv opc = 0x0000000000FF0000#64 := by
  simp only [resv, h]

end Sys2Proof

namespace Sys2Proof.Machine

/-- With FATAL = 0 the step on a word that does not decode is the status update of its decoding error, and nothing else
(R64, R65, R99). -/
theorem step_decodeError {s : State} {op : OpWord} {e : DecodeError} (hh : s.Holds op) (hf : s.fatal = false)
    (hd : decode op = .error e) :
    step s = .next { s with lastResult := decodeResult e, err := true, busy := false,
                            host := s.host.returned (decodeResult e) } := by
  obtain ⟨hw, hb, rfl⟩ := hh
  have hreject : rejectOp (decodeResult e) s = finish (decodeResult e) s := by simp [rejectOp, hf]
  rw [step_busy hw hb, lcdseqMove_eq_next.mpr (.inl ⟨e, hd, rfl⟩), hreject, finish_error (decodeResult_ne_ok e)]

/-- Settles O12: each clause's mask is RESV of its operation code, so the word fails to decode, and the step on it is the
status update alone. -/
theorem illegalAndReservedWordsChangeOnlyStatus : Obligations.IllegalAndReservedWordsChangeOnlyStatus := by
  intro s op hh hf
  have reserved {m : OpWord} (hopc : (opcOf op).toNat ≤ 6) (hm : resv (opcOf op) = m) (hbits : op &&& m ≠ 0#64) :=
    step_decodeError hh hf (decode_reserved hopc (hm ▸ hbits))
  refine ⟨fun hopc => step_decodeError hh hf (decode_illegal hopc), ?_⟩
  rintro (⟨hopc, hbits⟩ | ⟨hopc, hbits⟩ | ⟨hopc, hbits⟩ | ⟨hopc, hbits⟩)
  · exact reserved (hopc.trans (by decide)) (resv_noOperands hopc) hbits
  · exact reserved (hopc.trans_le (by decide)) (resv_setWindow hopc) hbits
  · exact reserved (hopc.trans_le (by decide)) (resv_fill hopc) hbits
  · exact reserved (hopc.trans_le (by decide)) (resv_drawRect hopc) hbits

end Sys2Proof.Machine
end

section
/-! PROOFS. Sequencer control: the two cases of SendCmd, a command without parameters and one with some (R73). -/

namespace Sys2Proof.Machine

/-- A command without parameters is its code alone: no empty `Data` event follows it. -/
theorem sendCmdEvents_noParams {c : Config} {n : PanelCmd} (h : c.initParams.bytes n = []) :
    sendCmdEvents c n = [.cmd (c.panelCmd.code n)] := by
  rw [sendCmdEvents, if_pos (List.length_eq_zero_iff.mpr h)]

/-- A command with parameters is its code and one `Data` event that holds all of them. -/
theorem sendCmdEvents_params {c : Config} {n : PanelCmd} (h : c.initParams.bytes n ≠ []) :
    sendCmdEvents c n = [.cmd (c.panelCmd.code n), .data (c.initParams.bytes n)] := by
  rw [sendCmdEvents, if_neg (mt List.length_eq_zero_iff.mp h)]

/-- Settles O25: SendCmd appends its events, by the two cases of its parameters; the tables are read row by row. -/
theorem sendCmdSendsCodeThenParameters : Obligations.SendCmdSendsCodeThenParameters := by
  refine ⟨fun n s => ⟨fun h => ?_, fun h => ?_⟩, fun c => ?codes, fun q => ?params⟩
  · rw [sendCmd_trace, sendCmdEvents_noParams h]
  · rw [sendCmd_trace, sendCmdEvents_params h]
  case codes => simp only [PanelCodes.code, and_self]
  case params => simp only [InitParams.bytes, and_self]

end Sys2Proof.Machine
end

section
/-! PROOFS. Window addressing: the branches of `CheckRect`, one lemma each, and what an operation does when it raises (R79). -/

namespace Sys2Proof.Machine

theorem checkRect_zeroExtent {pol : OobPolicy} {x y w h : Nat} (h0 : w = 0 ∨ h = 0) :
    checkRect pol x y w h = .zeroExtent := if_pos h0

theorem checkRect_fits {pol : OobPolicy} {x y w h : Nat} (h0 : ¬(w = 0 ∨ h = 0)) (hfit : x + w ≤ 240 ∧ y + h ≤ 240) :
    checkRect pol x y w h = .pass ⟨x, y, w, h⟩ := (if_neg h0).trans (if_pos hfit)

theorem checkRect_clamps {x y w h : Nat} (h0 : ¬(w = 0 ∨ h = 0)) (hfit : ¬(x + w ≤ 240 ∧ y + h ≤ 240))
    (horigin : ¬(239 < x ∨ 239 < y)) :
    checkRect .clamp x y w h = .pass ⟨x, y, min w (240 - x), min h (240 - y)⟩ :=
  (if_neg h0).trans ((if_neg hfit).trans (if_neg horigin))

theorem checkRect_bounds {pol : OobPolicy} {x y w h : Nat} (h0 : ¬(w = 0 ∨ h = 0))
    (hfit : ¬(x + w ≤ 240 ∧ y + h ≤ 240)) (hraise : pol ≠ .clamp ∨ 239 < x ∨ 239 < y) :
    checkRect pol x y w h = .bounds := by
  refine (if_neg h0).trans ((if_neg hfit).trans ?_)
  cases pol with
  | reject => rfl
  | fatal => rfl
  | clamp => exact if_pos (hraise.resolve_left (· rfl))

/-- What `CheckRect` passes lies on the panel, for operands of every size; `Programs.onPanel` is about byte operands. -/
theorem checkRect_pass_onPanel {pol : OobPolicy} {x y w h : Nat} {r : Rect} (hr : checkRect pol x y w h = .pass r) :
    r.onPanel := by
  by_cases h0 : w = 0 ∨ h = 0
  · cases (checkRect_zeroExtent h0).symm.trans hr
  by_cases hfit : x + w ≤ 240 ∧ y + h ≤ 240
  · cases (checkRect_fits h0 hfit).symm.trans hr
    obtain ⟨hw, hh⟩ := not_or.mp h0
    exact ⟨Nat.pos_of_ne_zero hw, Nat.pos_of_ne_zero hh, hfit⟩
  by_cases hraise : pol ≠ .clamp ∨ 239 < x ∨ 239 < y
  · cases (checkRect_bounds h0 hfit hraise).symm.trans hr
  · obtain ⟨hpol, horigin⟩ := not_or.mp hraise
    obtain rfl := not_not.mp hpol
    cases (checkRect_clamps h0 hfit horigin).symm.trans hr
    refine ⟨?_, ?_, ?_, ?_⟩ <;> simp only [Config.panelW, Config.panelH] <;> omega

section Raise
variable {x y w h : Byte} {s : State} {k : Rect → Res (Result × State)}

/-- Out of bounds, an operation ends with E_BOUNDS, and sets FATAL under that policy alone. -/
theorem withRect_bounds (hc : checkRect s.cfg.oob x.toNat y.toNat w.toNat h.toNat = .bounds) :
    withRect x y w h s k = .next (.eBounds, { s with fatal := s.fatal || decide (s.cfg.oob = .fatal) }) := by
  rw [withRect, hc]; rfl

/-- On a zero extent an operation ends with E_ZERO_EXTENT and its state as it was. -/
theorem withRect_zeroExtent (hc : checkRect s.cfg.oob x.toNat y.toNat w.toNat h.toNat = .zeroExtent) :
    withRect x y w h s k = .next (.eZeroExtent, s) := by
  rw [withRect, hc]; rfl

end Raise

/-- Settles O34, from the four branches of `CheckRect`, the panel's bounds on what passes, and the two raises. -/
theorem checkRectFollowsThePolicy : Obligations.CheckRectFollowsThePolicy := by
  refine ⟨rfl, fun pol x y w h => ⟨checkRect_zeroExtent, ?fits, ?leaves, ?passed⟩,
    fun _ _ _ _ _ _ => ⟨withRect_bounds, withRect_zeroExtent⟩⟩
  case fits => exact fun hw hh hx hy => checkRect_fits (by omega) ⟨hx, hy⟩
  case leaves =>
    intro hw hh hout
    have h0 : ¬(w = 0 ∨ h = 0) := by omega
    have hfit : ¬(x + w ≤ 240 ∧ y + h ≤ 240) := by omega
    refine ⟨?_, checkRect_bounds h0 hfit⟩
    rintro rfl hx hy
    exact checkRect_clamps h0 hfit (by omega)
  case passed =>
    intro r hr
    obtain ⟨hw, hh, hx, hy⟩ := checkRect_pass_onPanel hr
    simp only [Config.panelW, Config.panelH] at hx hy
    exact ⟨by omega, by omega, hw, hh⟩

end Sys2Proof.Machine
end

section
/-! PROOFS. The host's pseudo-operations: the glyph table under a well-formed configuration (R9, R91), the bits of a glyph
(R92), and the host's step on STRING_WIDTH (R95). -/

namespace Sys2Proof.Machine

/-! The glyph table (R9). -/

theorem wf_glyph_length {c : Config} (hw : c.wf = true) : c.glyph.length = c.glyphCount := by
  simp only [Config.wf, Bool.and_eq_true] at hw
  obtain ⟨⟨_, hcount⟩, _⟩ := hw
  exact of_decide_eq_true hcount

theorem wf_glyph_columns {c : Config} (hw : c.wf = true) {g : List Byte} (hg : g ∈ c.glyph) : g.length = 5 := by
  simp only [Config.wf, Bool.and_eq_true] at hw
  obtain ⟨_, hcolumns⟩ := hw
  exact of_decide_eq_true (List.all_eq_true.mp hcolumns g hg)

/-! `Glyph(code)` (R91). -/

/-- A code in the table gives its entry. -/
theorem glyphOf_entry {c : Config} {code : Nat} {g : List Byte} (hw : c.wf = true) (hb : c.glyphBase ≤ code)
    (hg : c.glyph[code - c.glyphBase]? = some g) : glyphOf c code = g := by
  have hlt : code - c.glyphBase < c.glyphCount := by
    rw [← wf_glyph_length hw]
    exact (List.getElem?_eq_some_iff.mp hg).1
  rw [glyphOf, if_pos ⟨hb, hlt⟩, List.getD_eq_getElem?_getD, hg, Option.getD_some]

/-- A code on either side of the table gives the blank glyph. -/
theorem glyphOf_outside {c : Config} {code : Nat} (h : code < c.glyphBase ∨ c.glyphBase + c.glyphCount ≤ code) :
    glyphOf c code = blankGlyph :=
  if_neg (by omega)

/-- Every code gives five column bytes: an entry has them by R9, the blank glyph by its definition. -/
theorem glyphOf_length {c : Config} (hw : c.wf = true) (code : Nat) : (glyphOf c code).length = 5 := by
  by_cases hout : code < c.glyphBase ∨ c.glyphBase + c.glyphCount ≤ code
  · rw [glyphOf_outside hout]; rfl
  · have hlt : code - c.glyphBase < c.glyph.length := by
      rw [wf_glyph_length hw]
      omega
    rw [glyphOf_entry hw (by omega) (List.getElem?_eq_getElem hlt)]
    exact wf_glyph_columns hw (List.getElem_mem hlt)

/-- Settles O56: the table's entry or the blank glyph by the two sides of the bounds check, and column `col` of five bytes
is the byte in that place. -/
theorem glyphLookupIsBoundsChecked : Obligations.GlyphLookupIsBoundsChecked :=
  ⟨fun _ code hw => ⟨fun _ => glyphOf_entry hw, glyphOf_outside, glyphOf_length hw code⟩,
    fun _ _ _ _ _ _ _ => ⟨rfl, rfl, rfl, rfl, rfl⟩⟩

/-! STRING_WIDTH (R95). -/

theorem stringWidth_eq (c : Config) (text : List Nat) (sc : Nat) :
    stringWidth c text sc = if text = [] then 0 else 5 * sc * text.length + c.charSpacing * sc * (text.length - 1) := by
  simp only [stringWidth, List.length_eq_zero_iff]

/-- The step of a host that asks for a width, as its whole next state. -/
theorem step_stringWidth {s : State} {text : List Nat} {sc : Nat} {rest : List HostAction} (hw : s.cfg.wf = true)
    (hb : s.busy = false) (hp : s.trace.length ≤ s.panel.seen) (hr : s.host.running = none)
    (ht : s.host.todo = .pseudo (.stringWidth text sc) :: rest) :
    step s = .next
      { s with host := { s.host with todo := rest, widths := s.host.widths ++ [stringWidth s.cfg text sc] } } := by
  rw [step_host hw hb hp]
  simp only [hostMove, hr, ht, actionMove]

/-- Settles O60: the host's step records the width, which is 0 for an empty text and else R95's sum. -/
theorem stringWidthIssuesNothing : Obligations.StringWidthIssuesNothing := by
  intro s text sc rest hw hb hp hr ht
  rw [step_stringWidth hw hb hp hr ht, stringWidth_eq]

end Sys2Proof.Machine
end

section
/-! PROOFS. Rejections and the fatal state (R98, R99, R101): what a rejection leaves, as a whole next state, and what any
step does to FATAL. -/

namespace Sys2Proof.Machine

/-- An operation that ends with an error is the status update over the state it began in, FATAL apart (R99). -/
theorem Ends.eq_of_rejected {s t : State} (h : Ends s t) (hr : t.lastResult ≠ .ok) :
    t = finish t.lastResult (blame t.lastResult s) := by
  cases h with
  | rejected r _ h => subst h; rfl
  | done i u _ _ _ _ h => subst h; exact absurd rfl hr

/-- After any step FATAL is 1 exactly if it was, or an operation ended with a result that sets it (R24, R101). -/
theorem step_fatal_iff {s t : State} (h : step s = .next t) :
    t.fatal = true ↔ s.fatal = true ∨
      (s.busy = true ∧ (t.lastResult = .eConfig ∨ (s.cfg.oob = .fatal ∧ t.lastResult = .eBounds))) := by
  cases hb : s.busy
  · simp [(step_idleMove hb h).fatal]
  · rw [(step_ends hb h).fatal, blame_fatal_iff]
    simp

/-! The obligations. -/

/-- Settles O19: LCDSEQ's move reports the first error of the priority list for the word the port holds. -/
theorem firstErrorInPriorityIsReported : Obligations.FirstErrorInPriorityIsReported := fun _ _ _ => step_result

/-- Settles O20: an end that is no success is the status update over the old state, and the only register besides is FATAL. -/
theorem rejectionIsPrecise : Obligations.RejectionIsPrecise := by
  intro s t op ⟨_, hb, _⟩ h hr
  have hrejected := (step_ends hb h).eq_of_rejected hr
  rwa [finish_error hr] at hrejected

/-- Settles O21: the answer is the one O17 gives; the host's move reads a register whatever FATAL is; and FATAL is kept by
every step and set only by an operation that ends with E_CONFIG or E_BOUNDS. -/
theorem fatalStateAnswersEveryOperation : Obligations.FatalStateAnswersEveryOperation := by
  obtain ⟨_, _, answers, _⟩ := fatalHasExactlyTwoCauses
  refine ⟨answers, fun s idx rest hw _ hb hp hrun htodo => ?reads, fun s t hf h => ?kept, fun s t hf h ht => ?entered⟩
  case reads => exact ⟨_, step_read hw hb hp hrun htodo, rfl⟩
  case kept => exact (step_fatal_iff h).mpr (.inl hf)
  case entered =>
    rcases (step_fatal_iff h).mp ht with hs | ⟨_, hc | ⟨_, hbounds⟩⟩
    · simp [hf] at hs
    · exact .inl hc
    · exact .inr hbounds

end Sys2Proof.Machine
end

section
/-! PROOFS. The encoding: what the decoder accepts, that decoding and encoding are inverse, and the opcode table (R60 to R66). -/

namespace Sys2Proof

/-! What the decoder accepts. -/

/-- The operation that a defined operation code reads from a word's fields (R63, R66). -/
def operationOf (op : OpWord) : Nat → Option Instr
  | 0 => some .nop
  | 1 => some .init
  | 2 => some .txnBegin
  | 3 => some .txnEnd
  | 4 => some (.setWindow (xOf op) (yOf op) (wOf op) (hOf op))
  | 5 => some (.fill (colorOf op))
  | 6 => some (.drawRect (xOf op) (yOf op) (wOf op) (hOf op) (colorOf op))
  | _ => none

theorem operationOf_defined (op : OpWord) {n : Nat} (h : n ≤ 6) : ∃ i, operationOf op n = some i := by
  interval_cases n <;> exact ⟨_, rfl⟩

theorem operationOf_undefined (op : OpWord) {n : Nat} (h : 6 < n) : operationOf op n = none := by
  obtain ⟨k, rfl⟩ := Nat.exists_eq_add_of_lt h
  rw [show 6 + k + 1 = k + 7 by omega]
  rfl

/-- A word decodes to an operation exactly if none of its must-be-zero bits is set and the operation is its OPC's (R66). -/
theorem decode_eq_ok_iff {op : OpWord} {i : Instr} :
    decode op = .ok i ↔ op &&& resv (opcOf op) = 0#64 ∧ operationOf op (opcOf op).toNat = some i := by
  rcases Nat.lt_or_ge 6 (opcOf op).toNat with hill | hdef
  · simp [decode_illegal hill, operationOf_undefined op hill]
  · by_cases hr : op &&& resv (opcOf op) = 0#64
    · unfold decode operationOf
      rw [if_neg (Nat.not_lt.mpr hdef), if_neg (not_not.mpr hr)]
      split <;> simp_all
    · simp [decode_reserved hdef hr, hr]

/-! The must-be-zero bits of a word, as ranges of bits. -/

/-- A mask that is one range of bits asks that every bit of the range is 0. -/
theorem and_rangeMask_eq_zero_iff {m : OpWord} {lo hi : Nat} (hhi : hi ≤ 64)
    (hm : ∀ n, n < 64 → m.getLsbD n = (decide (lo ≤ n) && decide (n < hi))) (op : OpWord) :
    op &&& m = 0#64 ↔ ∀ n, lo ≤ n → n < hi → op.getLsbD n = false := by
  rw [and_eq_zero_iff]
  constructor
  · intro h n hlo hn
    exact h n (by omega) (by simp [hm n (by omega), hlo, hn])
  · intro h n hn hmn
    rw [hm n hn, Bool.and_eq_true, decide_eq_true_eq, decide_eq_true_eq] at hmn
    exact h n hmn.1 hmn.2

theorem and_resvAll_eq_zero_iff (op : OpWord) :
    op &&& 0x00FFFFFFFFFFFFFF#64 = 0#64 ↔ ∀ n, 0 ≤ n → n < 56 → op.getLsbD n = false :=
  and_rangeMask_eq_zero_iff (by decide) (by simpa using resvAll_bits) op

theorem and_resvSet_eq_zero_iff (op : OpWord) :
    op &&& 0x0000000000FFFFFF#64 = 0#64 ↔ ∀ n, 0 ≤ n → n < 24 → op.getLsbD n = false :=
  and_rangeMask_eq_zero_iff (by decide) (by simpa using resvSet_bits) op

theorem and_resvFill_eq_zero_iff (op : OpWord) :
    op &&& 0x00FFFFFFFFFF0000#64 = 0#64 ↔ ∀ n, 16 ≤ n → n < 56 → op.getLsbD n = false :=
  and_rangeMask_eq_zero_iff (by decide) resvFill_bits op

theorem and_resvRect_eq_zero_iff (op : OpWord) :
    op &&& 0x0000000000FF0000#64 = 0#64 ↔ ∀ n, 16 ≤ n → n < 24 → op.getLsbD n = false :=
  and_rangeMask_eq_zero_iff (by decide) resvRect_bits op

/-! Decoding and encoding. -/

/-- The encoder sets no must-be-zero bit of the operation's code (R67). -/
theorem encode_and_resv (i : Instr) : encode i &&& resv (opcOf (encode i)) = 0#64 := by
  cases i with
  | nop => decide
  | init => decide
  | txnBegin => decide
  | txnEnd => decide
  | setWindow x y w h =>
    rw [encode, opcOf_layout, resv_setWindow rfl, and_resvSet_eq_zero_iff]
    intro n _ hn
    simp [layout_getLsbD, hn]
  | fill c =>
    rw [encode, opcOf_layout, resv_fill rfl, and_resvFill_eq_zero_iff]
    intro n hlo hn
    simp [layout_getLsbD, Nat.not_lt.mpr hlo, hn]
  | drawRect x y w h c =>
    rw [encode, opcOf_layout, resv_drawRect rfl, and_resvRect_eq_zero_iff]
    intro n hlo hn
    simp [layout_getLsbD, Nat.not_lt.mpr hlo, hn]

/-- Every operation decodes from its word: the word carries its code and its operands, and no must-be-zero bit. -/
theorem decode_encode (i : Instr) : decode (encode i) = .ok i := by
  refine decode_eq_ok_iff.mpr ⟨encode_and_resv i, ?_⟩
  cases i <;> simp [encode, operationOf]

/-- A word without operands is its code's word alone. -/
theorem layout_noOperands {op : OpWord} (h : op &&& 0x00FFFFFFFFFFFFFF#64 = 0#64) :
    layout (opcOf op) 0#8 0#8 0#8 0#8 0#16 = op := by
  rw [and_resvAll_eq_zero_iff] at h
  have field {lo : Nat} (hlo : lo + 8 ≤ 56) : op.extractLsb' lo 8 = 0#8 :=
    field_zero fun n _ hn => h n (Nat.zero_le n) (by omega)
  have hword := layout_fields op (field (by decide))
  rwa [xOf, field (by decide), yOf, field (by decide), wOf, field (by decide), hOf, field (by decide),
    color_zero fun n hn => h n (Nat.zero_le n) (by omega)] at hword

/-- A word with no must-be-zero bit of its code is the word of the operation its code reads. -/
theorem encode_operationOf {op : OpWord} {i : Instr} (hr : op &&& resv (opcOf op) = 0#64)
    (hi : operationOf op (opcOf op).toNat = some i) : encode i = op := by
  have hopc {b : Byte} (h : (opcOf op).toNat = b.toNat) : opcOf op = b := BitVec.eq_of_toNat_eq h
  have noOperands {b : Byte} (h : (opcOf op).toNat = b.toNat) (hb : b.toNat ≤ 3) :
      layout b 0#8 0#8 0#8 0#8 0#16 = op := by
    rw [resv_noOperands (h ▸ hb)] at hr
    exact hopc h ▸ layout_noOperands hr
  have hword := layout_fields op
  unfold operationOf at hi
  split at hi
  · next h => obtain rfl := Option.some.inj hi; exact noOperands (b := 0#8) h (by decide)
  · next h => obtain rfl := Option.some.inj hi; exact noOperands (b := 1#8) h (by decide)
  · next h => obtain rfl := Option.some.inj hi; exact noOperands (b := 2#8) h (by decide)
  · next h => obtain rfl := Option.some.inj hi; exact noOperands (b := 3#8) h (by decide)
  · next h =>
    obtain rfl := Option.some.inj hi
    rw [resv_setWindow h, and_resvSet_eq_zero_iff] at hr
    have hcolor : colorOf op = 0#16 := color_zero fun n hn => hr n (Nat.zero_le n) (by omega)
    rw [hopc (b := 4#8) h, hcolor] at hword
    exact hword (field_zero fun n _ hn => hr n (Nat.zero_le n) hn)
  · next h =>
    obtain rfl := Option.some.inj hi
    rw [resv_fill h, and_resvFill_eq_zero_iff] at hr
    have field {lo : Nat} (h1 : 16 ≤ lo) (h2 : lo + 8 ≤ 56) : op.extractLsb' lo 8 = 0#8 :=
      field_zero fun n hlo hn => hr n (by omega) (by omega)
    rw [hopc (b := 5#8) h, xOf, field (by decide) (by decide), yOf, field (by decide) (by decide), wOf,
      field (by decide) (by decide), hOf, field (by decide) (by decide)] at hword
    exact hword (field (by decide) (by decide))
  · next h =>
    obtain rfl := Option.some.inj hi
    rw [resv_drawRect h, and_resvRect_eq_zero_iff] at hr
    rw [hopc (b := 6#8) h] at hword
    exact hword (field_zero fun n hlo hn => hr n hlo hn)
  · cases hi

/-- Settles O8: decode of encode, over the seven operations. -/
theorem decodeOfEncodeIsTheOperation : Obligations.DecodeOfEncodeIsTheOperation := decode_encode

/-- Settles O9: the fields that a valid word's operation does not keep are its must-be-zero bits. -/
theorem encodeOfDecodeIsTheWord : Obligations.EncodeOfDecodeIsTheWord := by
  intro op i h
  obtain ⟨hr, hi⟩ := decode_eq_ok_iff.mp h
  exact encode_operationOf hr hi

/-- Settles O10: the decoder's three ways, the last by the operation each code reads. -/
theorem decodeFollowsTheOpcodeMap : Obligations.DecodeFollowsTheOpcodeMap := by
  intro op
  refine ⟨decode_illegal, decode_reserved, fun hr => ?_⟩
  have defined {b : Byte} {i : Instr} (hi : operationOf op b.toNat = some i) (hopc : opcOf op = b) :
      decode op = .ok i := decode_eq_ok_iff.mpr ⟨hr, hopc ▸ hi⟩
  exact ⟨defined rfl, defined rfl, defined rfl, defined rfl, defined rfl, defined rfl, defined rfl⟩

/-! The opcode table (R63). -/

/-- Every row's mask holds the whole OPC byte. -/
theorem opcodeTable_mask_opc : ∀ r ∈ opcodeTable, opcOf r.mask = 0xFF#8 := by decide

/-- A row is told by the OPC of its match word. -/
theorem opcodeTable_row_of_opc : ∀ r ∈ opcodeTable, ∀ r' ∈ opcodeTable, opcOf r.matchWord = opcOf r'.matchWord → r = r' := by
  decide

/-- A row's code is a defined one; its mask holds all must-be-zero bits of the code, and its match word sets none. -/
theorem opcodeTable_row_resv : ∀ r ∈ opcodeTable, (opcOf r.matchWord).toNat ≤ 6 ∧
    r.mask &&& resv (opcOf r.matchWord) = resv (opcOf r.matchWord) ∧
    r.matchWord &&& resv (opcOf r.matchWord) = 0#64 := by decide

/-- A word has the OPC of a row that it matches. -/
theorem opcOf_of_matches {op : OpWord} {r : OpcodeRow} (hr : r ∈ opcodeTable) (h : r.matches op = true) :
    opcOf op = opcOf r.matchWord := by
  have hword : op &&& r.mask = r.matchWord := by simpa [OpcodeRow.matches] using h
  have hmask := opcodeTable_mask_opc r hr
  unfold opcOf at *
  rw [← hword, BitVec.extractLsb'_and, hmask]
  exact (BitVec.and_allOnes).symm

/-- A word that matches a row decodes. -/
theorem decode_of_matches {op : OpWord} {r : OpcodeRow} (hr : r ∈ opcodeTable) (h : r.matches op = true) :
    ∃ i, decode op = .ok i := by
  have hword : op &&& r.mask = r.matchWord := by simpa [OpcodeRow.matches] using h
  obtain ⟨hdef, hmask, hmatch⟩ := opcodeTable_row_resv r hr
  rw [← opcOf_of_matches hr h] at hdef hmask hmatch
  obtain ⟨i, hi⟩ := operationOf_defined op hdef
  have hzero : op &&& resv (opcOf op) = 0#64 := by rw [← hmask, ← BitVec.and_assoc, hword, hmatch]
  exact ⟨i, decode_eq_ok_iff.mpr ⟨hzero, hi⟩⟩

/-- The word of every operation matches the operation's own row (R63, R67). -/
theorem encode_and_tableMask (i : Instr) : encode i &&& i.tableMask = i.tableMatch := by
  cases i with
  | nop => exact Laws.EncodeMatches.nop
  | init => exact Laws.EncodeMatches.init
  | txnBegin => exact Laws.EncodeMatches.txnBegin
  | txnEnd => exact Laws.EncodeMatches.txnEnd
  | setWindow x y w h => exact Laws.EncodeMatches.setWindow x y w h
  | fill c => exact Laws.EncodeMatches.fill c
  | drawRect x y w h c => exact Laws.EncodeMatches.drawRect x y w h c

theorem tableRow_mem (i : Instr) : (⟨i.tableMatch, i.tableMask⟩ : OpcodeRow) ∈ opcodeTable := by
  cases i <;> simp [opcodeTable, Instr.tableMatch, Instr.tableMask]

/-- Settles O11: a matched row has the word's OPC, and no two rows share one; a valid word is its operation's, which matches
that operation's row. -/
theorem opcodeTableIsUnambiguous : Obligations.OpcodeTableIsUnambiguous := by
  have ownRow (op : OpWord) (i : Instr) (h : decode op = .ok i) :
      op &&& i.tableMask = i.tableMatch ∧ (⟨i.tableMatch, i.tableMask⟩ : OpcodeRow) ∈ opcodeTable :=
    ⟨encodeOfDecodeIsTheWord op i h ▸ encode_and_tableMask i, tableRow_mem i⟩
  refine ⟨fun op r r' hr hr' h h' => ?_, fun op => ⟨?_, fun ⟨r, hr, h⟩ => decode_of_matches hr h⟩, ownRow⟩
  · exact opcodeTable_row_of_opc r hr r' hr' ((opcOf_of_matches hr h).symm.trans (opcOf_of_matches hr' h'))
  · rintro ⟨i, hi⟩
    obtain ⟨hword, hrow⟩ := ownRow op i hi
    exact ⟨_, hrow, by simpa [OpcodeRow.matches] using hword⟩

/-- Settles O7: each word is written out, and the decoder computes its operation or its error. -/
theorem wordsDecodeAsTheSpecWritesThem : Obligations.WordsDecodeAsTheSpecWritesThem := by
  unfold Obligations.WordsDecodeAsTheSpecWritesThem
  decide

end Sys2Proof
end

section
/-! PROOFS. The assembler: operands in and out of range, and a written line alone and before further lines (R67). -/

namespace Sys2Proof.Machine

theorem toNat_ofByte {n : Nat} (h : n ≤ 255) : (BitVec.ofNat 8 n).toNat = n := addrByte_toNat (by omega)

theorem toNat_ofSample {n : Nat} (h : n ≤ 0xFFFF) : (BitVec.ofNat 16 n).toNat = n := by
  simp only [BitVec.toNat_ofNat]
  omega

theorem colorOperandFits_iff (c : Nat) : colorOperandFits c = true ↔ c ≤ 0xFFFF := by simp [colorOperandFits]

theorem drawRectOperandsFit_iff (x y w h c : Nat) : (coordsFit x y w h && colorOperandFits c) = true ↔
    x ≤ 255 ∧ y ≤ 255 ∧ w ≤ 255 ∧ h ≤ 255 ∧ c ≤ 0xFFFF := by
  rw [Bool.and_eq_true, coordsFit_iff, colorOperandFits_iff]
  simp only [and_assoc]

/-! Operands out of range are refused. -/

theorem buildInstr_setWindow_outOfRange {x y w h : Nat} (hout : ¬(x ≤ 255 ∧ y ≤ 255 ∧ w ≤ 255 ∧ h ≤ 255)) :
    buildInstr "SET_WINDOW".toList [x, y, w, h] = .error .outOfRange := by
  rw [buildInstr_setWindow, if_neg (mt (coordsFit_iff x y w h).mp hout)]

theorem buildInstr_fill_outOfRange {c : Nat} (hout : 0xFFFF < c) :
    buildInstr "FILL".toList [c] = .error .outOfRange := by
  rw [buildInstr_fill, if_neg (mt (colorOperandFits_iff c).mp (Nat.not_le.mpr hout))]

theorem buildInstr_drawRect_outOfRange {x y w h c : Nat}
    (hout : ¬(x ≤ 255 ∧ y ≤ 255 ∧ w ≤ 255 ∧ h ≤ 255 ∧ c ≤ 0xFFFF)) :
    buildInstr "DRAW_RECT".toList [x, y, w, h, c] = .error .outOfRange := by
  rw [buildInstr_drawRect, if_neg (mt (drawRectOperandsFit_iff x y w h c).mp hout)]

/-! Texts. -/

theorem assembleLines_cons_operation {line : List Char} {lines : List (List Char)} {i : Instr} {words : List OpWord}
    (hline : assembleLine line = .ok (some i)) (hlines : assembleLines lines = .ok words) :
    assembleLines (line :: lines) = .ok (encode i :: words) := by
  simp only [assembleLines, hline, hlines]

/-- A written operation assembles to its word, before any lines that assemble. -/
theorem assembleLine_operation {i : Instr} {text : List Char} (hw : Written (mnemonicOf i) (operandsOf i) text) :
    assembleLine text = .ok (some i) := by
  obtain ⟨hne, hplain⟩ := mnemonicOf_plain i
  rw [assembleLine_written hne hplain hw, built, buildInstr_operandsOf]

/-- A written line that builds nothing is refused with the reason it gives. -/
theorem assemble_refused {i : Instr} {operands : List Nat} {text : List Char} {e : AsmError}
    (hw : Written (mnemonicOf i) operands text) (hb : buildInstr (mnemonicOf i) operands = .error e) :
    assemble text = .error e := by
  obtain ⟨hne, hplain⟩ := mnemonicOf_plain i
  rw [assemble_line (written_one_line hplain hw)]
  simp only [assembleLines, assembleLine_written hne hplain hw, built, hb]

/-- Settles O13: the range checks on the operands, and a written line read as its mnemonic and operands. -/
theorem assemblerRefusesOutOfRange : Obligations.AssemblerRefusesOutOfRange := by
  refine ⟨fun x y w h => ⟨fun hin => ?setWindow, buildInstr_setWindow_outOfRange⟩,
    fun c => ⟨fun hin => ?fill, buildInstr_fill_outOfRange⟩,
    fun x y w h c => ⟨fun hin => ?drawRect, buildInstr_drawRect_outOfRange⟩,
    fun i text hw => ⟨?alone, fun rest words hrest => ?before⟩, fun x y w h c text => ⟨?_, ?_, ?_⟩⟩
  case setWindow =>
    have hbuild := (buildInstr_setWindow x y w h).trans (if_pos ((coordsFit_iff x y w h).mpr hin))
    obtain ⟨hx, hy, hw, hh⟩ := hin
    exact ⟨_, _, _, _, hbuild, toNat_ofByte hx, toNat_ofByte hy, toNat_ofByte hw, toNat_ofByte hh⟩
  case fill =>
    exact ⟨_, (buildInstr_fill c).trans (if_pos ((colorOperandFits_iff c).mpr hin)), toNat_ofSample hin⟩
  case drawRect =>
    have hbuild := (buildInstr_drawRect x y w h c).trans (if_pos ((drawRectOperandsFit_iff x y w h c).mpr hin))
    obtain ⟨hx, hy, hw, hh, hc⟩ := hin
    exact ⟨_, _, _, _, _, hbuild, toNat_ofByte hx, toNat_ofByte hy, toNat_ofByte hw, toNat_ofByte hh, toNat_ofSample hc⟩
  case alone =>
    rw [assemble_line (written_one_line (mnemonicOf_plain i).2 hw)]
    exact assembleLines_cons_operation (assembleLine_operation hw) rfl
  case before =>
    rw [assemble_cons (written_one_line (mnemonicOf_plain i).2 hw)]
    exact assembleLines_cons_operation (assembleLine_operation hw) hrest
  · exact fun hw hout => assemble_refused (i := .setWindow 0#8 0#8 0#8 0#8) hw (buildInstr_setWindow_outOfRange hout)
  · exact fun hw hout => assemble_refused (i := .fill 0#16) hw (buildInstr_fill_outOfRange hout)
  · exact fun hw hout => assemble_refused (i := .drawRect 0#8 0#8 0#8 0#8 0#16) hw (buildInstr_drawRect_outOfRange hout)

end Sys2Proof.Machine
end

section
/-! PROOFS. Well-formedness of a configuration and its refusal (R9), block reset (R39), and the fields of the four host
registers (R32 to R35). -/

namespace Sys2Proof

/-- R9's conditions, with the byte counts of R69. -/
theorem Config.wf_iff (c : Config) : c.wf = true ↔
    c.cap < 2 ^ 24 ∧ 5 ≤ c.tSlpout ∧
      (c.initParams.madctl.length = 1 ∧ c.initParams.colmod.length = 1 ∧ c.initParams.pwctrl1.length = 2 ∧
        c.initParams.pvgamctrl.length = 14 ∧ c.initParams.nvgamctrl.length = 14 ∧
        c.initParams.invon = [] ∧ c.initParams.slpout = [] ∧ c.initParams.dispon = []) ∧
      c.glyph.length = c.glyphCount ∧ ∀ g ∈ c.glyph, g.length = 5 := by
  simp only [Config.wf, Config.capFits, Config.slpoutLongEnough, Config.initCountsFit, Config.glyphCountFits,
    Config.glyphColumnsFit, Bool.and_eq_true, decide_eq_true_eq, List.all_eq_true, List.length_eq_zero_iff, and_assoc]

end Sys2Proof

namespace Sys2Proof.Machine

/-! No operation is refused. -/

theorem andThen_ne_refused {α β : Type} {o : Res α} {k : α → Res β} {r : Refusal} (ho : o ≠ .refused r)
    (hk : ∀ a, k a ≠ .refused r) : andThen o k ≠ .refused r := by
  cases o with
  | next a => exact hk a
  | fault f => exact nofun
  | refused q => simpa [andThen] using ho

theorem fillBody_ne_refused (c : Sample) (s : State) (r : Refusal) : fillBody c s ≠ .refused r := by
  unfold fillBody
  split_ifs <;> exact nofun

theorem withRect_ne_refused {x y w h : Byte} {s : State} {k : Rect → Res (Result × State)} {r : Refusal}
    (hk : ∀ q, k q ≠ .refused r) : withRect x y w h s k ≠ .refused r := by
  unfold withRect
  split
  · exact hk _
  · exact nofun
  · exact nofun

theorem ruleOf_ne_refused (i : Instr) (s : State) (r : Refusal) : ruleOf i s ≠ .refused r := by
  cases i with
  | nop => exact nofun
  | init =>
    simp only [ruleOf, initRule]
    split_ifs
    · exact nofun
    · exact nofun
    · exact andThen_ne_refused (fillBody_ne_refused _ _ r) fun _ => nofun
  | txnBegin => simp only [ruleOf, txnBeginRule]; split_ifs <;> exact nofun
  | txnEnd => simp only [ruleOf, txnEndRule]; split_ifs <;> exact nofun
  | setWindow x y w h =>
    simp only [ruleOf, setWindowRule]
    split_ifs
    · exact nofun
    · exact nofun
    · exact withRect_ne_refused fun _ => nofun
  | fill c =>
    simp only [ruleOf, fillRule]
    split_ifs
    · exact nofun
    · exact nofun
    · exact nofun
    · exact andThen_ne_refused (fillBody_ne_refused c s r) fun _ => nofun
  | drawRect x y w h c =>
    simp only [ruleOf, drawRectRule]
    split_ifs
    · exact nofun
    · exact nofun
    · exact withRect_ne_refused fun _ => andThen_ne_refused (fillBody_ne_refused _ _ r) fun _ => nofun

/-- Executing an operation never ends in a refusal: the model gives every operation a meaning. -/
theorem exec_ne_refused (i : Instr) (s : State) (r : Refusal) : exec i s ≠ .refused r := by
  rw [exec_eq_issueCycle, issueCycle]
  split
  · exact nofun
  · exact andThen_ne_refused (ruleOf_ne_refused i s r) fun _ => nofun

theorem lcdseqMove_ne_refused (s : State) (r : Refusal) : lcdseqMove s ≠ .refused r := by
  unfold lcdseqMove
  split
  · exact exec_ne_refused _ s r
  · exact nofun

/-- Settles O1: the check is R9's list, and no agent's move is refused once it passes. -/
theorem illFormedConfigurationRefused : Obligations.IllFormedConfigurationRefused := by
  refine ⟨Config.wf_iff, fun s => ?_⟩
  unfold step
  split_ifs with hw hb hp
  · simp [hw]
  · simp [hw, lcdseqMove_ne_refused]
  · simp [hw]
  · simp [hw]

/-! The fields of the host registers. -/

theorem readReg_status (s : State) : readReg s 0#2 = statusReg s := rfl
theorem readReg_window (s : State) : readReg s 1#2 = windowReg s := rfl
theorem readReg_count (s : State) : readReg s 2#2 = countReg s := rfl
theorem readReg_config (s : State) : readReg s 3#2 = configReg s := rfl

/-- STATUS as its fields, with their widths (R32). -/
theorem statusReg_eq (s : State) : statusReg s =
    (0#16 ++ s.lastResult.code ++ 0#1 ++ BitVec.ofBool s.winValid ++ BitVec.ofBool s.txnOpen ++ BitVec.ofBool s.err
      ++ BitVec.ofBool s.fatal ++ s.phase.code : BitVec (16 + 8 + 1 + 1 + 1 + 1 + 1 + 3)) := rfl

theorem windowReg_eq (s : State) : windowReg s = (s.winH ++ s.winW ++ s.winY ++ s.winX : BitVec (8 + 8 + 8 + 8)) := rfl

theorem countReg_eq (s : State) : countReg s = (0#16 ++ s.winCount : BitVec (16 + 16)) := rfl

theorem configReg_eq (s : State) : configReg s =
    (0#6 ++ oobCode s.cfg.oob ++ BitVec.ofNat 24 s.cfg.cap : BitVec (6 + 2 + 24)) := rfl

theorem statusReg_fields (s : State) :
    (statusReg s).extractLsb' 0 3 = s.phase.code ∧ (statusReg s).getLsbD 3 = s.fatal ∧
    (statusReg s).getLsbD 4 = s.err ∧ (statusReg s).getLsbD 5 = s.txnOpen ∧ (statusReg s).getLsbD 6 = s.winValid ∧
    (statusReg s).getLsbD 7 = false ∧ (statusReg s).extractLsb' 8 8 = s.lastResult.code ∧
    (statusReg s).extractLsb' 16 16 = 0#16 := by
  simp only [statusReg_eq, BitVec.extractLsb'_append_eq_of_le, BitVec.extractLsb'_append_eq_right, BitVec.getLsbD_append,
    BitVec.extractLsb'_eq_self, BitVec.getLsbD_zero, Nat.reduceLeDiff, Nat.reduceSub, Nat.reduceLT, if_true, if_false]
  simp

theorem windowReg_fields (s : State) :
    (windowReg s).extractLsb' 0 8 = s.winX ∧ (windowReg s).extractLsb' 8 8 = s.winY ∧
    (windowReg s).extractLsb' 16 8 = s.winW ∧ (windowReg s).extractLsb' 24 8 = s.winH := by
  simp only [windowReg_eq, BitVec.extractLsb'_append_eq_of_le, BitVec.extractLsb'_append_eq_right,
    BitVec.extractLsb'_eq_self, Nat.reduceLeDiff, Nat.reduceSub, and_self]

theorem countReg_fields (s : State) :
    (countReg s).extractLsb' 0 16 = s.winCount ∧ (countReg s).extractLsb' 16 16 = 0#16 := by
  simp only [countReg_eq, BitVec.extractLsb'_append_eq_of_le, BitVec.extractLsb'_append_eq_right,
    BitVec.extractLsb'_eq_self, Nat.reduceLeDiff, Nat.reduceSub, and_self]

theorem configReg_fields (s : State) :
    (configReg s).extractLsb' 0 24 = BitVec.ofNat 24 s.cfg.cap ∧ (configReg s).extractLsb' 24 2 = oobCode s.cfg.oob ∧
    (configReg s).extractLsb' 26 6 = 0#6 := by
  simp only [configReg_eq, BitVec.extractLsb'_append_eq_of_le, BitVec.extractLsb'_append_eq_right,
    BitVec.extractLsb'_eq_self, Nat.reduceLeDiff, Nat.reduceSub, and_self]

/-- A well-formed configuration's CAP fits CONFIG's field (R9). -/
theorem configReg_cap {s : State} (hw : s.cfg.wf = true) : ((configReg s).extractLsb' 0 24).toNat = s.cfg.cap := by
  obtain ⟨hcap, _⟩ := (Config.wf_iff s.cfg).mp hw
  rw [(configReg_fields s).1, BitVec.toNat_ofNat, Nat.mod_eq_of_lt hcap]

theorem oobCode_injective : Function.Injective oobCode := by
  intro p q
  cases p <;> cases q <;> simp [oobCode]

theorem statusReg_reset (c : Config) : readReg (State.resetWith c) 0#2 = 0#32 := by
  simp [readReg_status, statusReg, State.resetWith, Result.code, Phase.code]

theorem windowReg_reset (c : Config) : readReg (State.resetWith c) 1#2 = 0#32 := by
  simp [readReg_window, windowReg, State.resetWith]

theorem countReg_reset (c : Config) : readReg (State.resetWith c) 2#2 = 0#32 := by
  simp [readReg_count, countReg, State.resetWith]

/-- Settles O3: the fields of STATUS, its value after reset and the codes of the results. -/
theorem statusFieldsAtTheirBits : Obligations.StatusFieldsAtTheirBits :=
  ⟨statusReg_fields, statusReg_reset, rfl, rfl, rfl, rfl, rfl, rfl, rfl, rfl, rfl, rfl, rfl⟩

/-- Settles O4: the fields of WINDOW, COUNT and CONFIG; CONFIG is a function of the configuration, which no step changes. -/
theorem windowCountConfigFieldsAtTheirBits : Obligations.WindowCountConfigFieldsAtTheirBits := by
  refine ⟨fun s => ?fields, fun c => ⟨windowReg_reset c, countReg_reset c⟩, fun s t h => ?config⟩
  case fields =>
    obtain ⟨hx, hy, hw, hh⟩ := windowReg_fields s
    obtain ⟨hcount, hcount0⟩ := countReg_fields s
    obtain ⟨_, hoob, h0⟩ := configReg_fields s
    have policy (pol : OobPolicy) : (configReg s).extractLsb' 24 2 = oobCode pol ↔ s.cfg.oob = pol := by
      rw [hoob, oobCode_injective.eq_iff]
    exact ⟨hx, hy, hw, hh, hcount, hcount0, configReg_cap, policy .reject, policy .fatal, policy .clamp, h0⟩
  case config =>
    rw [readReg_config, readReg_config, configReg, configReg, configurationNeverChanges s t h]

/-- Settles O2: every register of the reset state is the constant R39 gives it, and no byte is written. -/
theorem resetLeavesEveryRegisterAtItsValue : Obligations.ResetLeavesEveryRegisterAtItsValue := by
  intro c
  obtain ⟨_, hoob, h0⟩ := configReg_fields (State.resetWith c)
  refine ⟨State.resetWith c, rfl, rfl, rfl, rfl, rfl, rfl, rfl, rfl, rfl, rfl, rfl, rfl, rfl, rfl, fun _ => rfl, rfl,
    statusReg_reset c, windowReg_reset c, countReg_reset c, configReg_cap (s := State.resetWith c), hoob.trans ?_, h0⟩
  show oobCode c.oob = _
  cases c.oob <;> rfl

end Sys2Proof.Machine
end

section
/-! PROOFS. The step and the issue cycle: the decoded operation, one operation outstanding, the trace and the panel's move
(R18, R30, R49, R66, R72). -/

namespace Sys2Proof.Machine

/-! The port and the trace at the end of an operation, and between operations. -/

theorem Ends.portWord {s t : State} (h : Ends s t) : t.portWord = s.portWord := by
  cases h with
  | rejected r _ h => subst h; rfl
  | done i u _ _ _ he h =>
    obtain ⟨_, _, _, _, _, hport, _⟩ := he.keeps
    subst h
    exact hport

/-- An operation appends its events to the trace, none if it is rejected (R49, R99). -/
theorem Ends.trace {s t : State} (h : Ends s t) : s.trace <+: t.trace := by
  cases h with
  | rejected r _ h => subst h; exact List.prefix_rfl
  | done i u _ _ _ he h =>
    obtain ⟨es, hes⟩ := he.trace
    subst h
    exact ⟨es, hes.symm⟩

theorem IdleMove.trace {s t : State} (h : IdleMove s t) : t.trace = s.trace := by rw [h.frame]

/-- The step of a host that issues a word, as its whole next state. -/
theorem step_issue {s : State} {op : OpWord} {rest : List HostAction} (hw : s.cfg.wf = true) (hb : s.busy = false)
    (hp : s.trace.length ≤ s.panel.seen) (hr : s.host.running = none) (ht : s.host.todo = .issue op :: rest) :
    step s = .next { s with busy := true, portWord := op, host := { s.host with todo := rest } } := by
  rw [step_host hw hb hp]
  simp only [hostMove, hr, ht, actionMove, portTake]

/-- The step on a word that decodes is its operation (R66, R72). -/
theorem step_decoded {s : State} {op : OpWord} {i : Instr} (hh : s.Holds op) (hd : decode op = .ok i) :
    step s = exec i s := by
  obtain ⟨hw, hb, rfl⟩ := hh
  rw [step_busy hw hb, lcdseqMove_ok hd]

theorem decodeTableWord_eq_some {nbits w : Nat} {i : Instr} (h : decodeTableWord nbits w = some i) :
    decode (BitVec.ofNat 64 (w % 2 ^ nbits)) = .ok i := by
  unfold decodeTableWord at h
  split at h
  · next j hj => rw [hj, Option.some.inj h]
  · cases h

/-! The obligations. -/

/-- Settles O14: the step on the held word, which `withFetchWord` puts into the port. -/
theorem stepRunsTheDecodedOperation : Obligations.StepRunsTheDecodedOperation :=
  ⟨fun _ _ _ hh hd => step_decoded hh hd, fun _ _ _ hw hd => step_decoded ⟨hw, rfl, rfl⟩ (decodeTableWord_eq_some hd)⟩

/-- Settles O22: an operation's end hands the host one result and keeps the port's word; an issue fills the port. -/
theorem oneOperationOutstanding : Obligations.OneOperationOutstanding := by
  refine ⟨fun s t hb h => ?_, fun s op rest hw hb hp hr ht => step_issue hw hb hp hr ht⟩
  have hends := step_ends hb h
  refine ⟨hends.busy, hends.portWord, ?_, ?_⟩
  · rw [hends.host, returned_todo]
  · rw [hends.host, returned_results, List.length_append, List.length_singleton]

/-- Settles O23: an operation appends a segment, an idle move appends nothing, and the panel's move is `step_panel`. -/
theorem eventsAreOneSegmentPerOperation : Obligations.EventsAreOneSegmentPerOperation := by
  refine ⟨fun s t h => ?_, fun s t hb h => (step_idleMove hb h).trace, fun s e hw hb he => step_panel hw hb he⟩
  cases hb : s.busy
  · rw [(step_idleMove hb h).trace]
  · exact (step_ends hb h).trace

end Sys2Proof.Machine
end

section
/-! PROOFS. The host's pseudo-operations: their constituents and their places (R90 to R94), and how a run issues them and
keeps the first error (R89). -/

namespace Sys2Proof.Machine

/-- Settles O55: CLEAR's one constituent, as its operation and as its word written out. -/
theorem clearIsOneFullScreenRect : Obligations.ClearIsOneFullScreenRect := fun _ =>
  ⟨rfl, show clearReqs.map DrawReq.word = [some 0x060000F0F0000000#64] by decide⟩

/-! DRAW_CHAR (R93). -/

/-- Without skip every glyph pixel has its rectangle. -/
theorem glyphPixelReq_noSkip (g : List Byte) (x y s : Nat) (fg bg : Sample) (col row : Nat) :
    glyphPixelReq g x y s fg bg false col row =
      [⟨x + col * s, y + row * s, s, s, if glyphBit g col row then fg else bg⟩] := by
  simp [glyphPixelReq]

/-- With skip a column's set bits have a rectangle each, in the foreground. -/
theorem glyphColumn_skip (g : List Byte) (x y s : Nat) (fg bg : Sample) (col : Nat) (rows : List Nat) :
    rows.flatMap (glyphPixelReq g x y s fg bg true col) =
      (rows.filter (glyphBit g col)).map fun row => ⟨x + col * s, y + row * s, s, s, fg⟩ := by
  induction rows with
  | nil => rfl
  | cons row rows ih =>
    rw [List.flatMap_cons, ih, List.filter_cons]
    cases hbit : glyphBit g col row <;> simp [glyphPixelReq, hbit]

/-- Without skip DRAW_CHAR is a list over the 40 pixels, column by column. -/
theorem drawCharReqs_noSkip (c : Config) (x y s code : Nat) (fg bg : Sample) :
    drawCharReqs c x y s code fg bg false =
      (List.range 5).flatMap fun col => (List.range 8).map fun row =>
        ⟨x + col * s, y + row * s, s, s, if glyphBit (glyphOf c code) col row then fg else bg⟩ := by
  simp only [drawCharReqs, glyphPixelReq_noSkip, List.map_eq_flatMap]

theorem drawCharReqs_skip (c : Config) (x y s code : Nat) (fg bg : Sample) :
    drawCharReqs c x y s code fg bg true =
      (List.range 5).flatMap fun col => ((List.range 8).filter fun row => glyphBit (glyphOf c code) col row).map
        fun row => ⟨x + col * s, y + row * s, s, s, fg⟩ := by
  simp only [drawCharReqs, glyphColumn_skip]

/-- In a list of five columns of eight, row `row` of column `col` has index 8 col + row. -/
theorem getElem?_columns {α : Type} (f : Nat → Nat → α) {col row : Nat} (hc : col < 5) (hr : row < 8) :
    ((List.range 5).flatMap fun col => (List.range 8).map (f col))[col * 8 + row]? = some (f col row) := by
  interval_cases col <;> interval_cases row <;> rfl

/-- Settles O57: DRAW_CHAR as a list over columns and rows, without and with skip. -/
theorem drawCharAsksForOneRectPerPixel : Obligations.DrawCharAsksForOneRectPerPixel := by
  intro c x y s code fg bg
  simp only [pseudoReqs, drawCharReqs_noSkip, drawCharReqs_skip]
  refine ⟨?_, ?_, fun col row hc hr => getElem?_columns _ hc hr, trivial⟩
  · simp
  · simp only [List.length_flatMap, List.length_map]

/-! DRAW_STRING (R94). -/

/-- The place after a character's: on the same line, or at the margin one line down if the box would pass column 239. -/
def nextPlace (c : Config) (x s : Nat) (p : Nat × Nat) : Nat × Nat :=
  if 240 < p.1 + (5 + c.charSpacing) * s + 5 * s then (wrapColumn c x, p.2 + 8 * s)
  else (p.1 + (5 + c.charSpacing) * s, p.2)

/-- The places of a string of `n` characters: the first, then each after the one before it. -/
def placesFrom (c : Config) (x s : Nat) (p : Nat × Nat) (n : Nat) : List (Nat × Nat) := List.iterate (nextPlace c x s) p n

/-- A character after one at `p` stands at the next place. -/
theorem stringPlaces_cons (c : Config) (x s : Nat) (p : Nat × Nat) (code : Nat) (rest : List Nat) :
    stringPlaces c x s false (p.1 + (5 + c.charSpacing) * s) p.2 (code :: rest) =
      ((nextPlace c x s p).1, (nextPlace c x s p).2, code) ::
        stringPlaces c x s false ((nextPlace c x s p).1 + (5 + c.charSpacing) * s) (nextPlace c x s p).2 rest := by
  rw [stringPlaces, nextPlace]
  by_cases hwrap : 240 < p.1 + (5 + c.charSpacing) * s + 5 * s
  · rw [if_pos ⟨rfl, by omega⟩, if_pos hwrap]
  · rw [if_neg (by omega), if_neg hwrap]

/-- The characters that follow one at `p`. -/
theorem stringPlaces_after (c : Config) (x s : Nat) : ∀ (text : List Nat) (p : Nat × Nat),
    stringPlaces c x s false (p.1 + (5 + c.charSpacing) * s) p.2 text =
      ((placesFrom c x s (nextPlace c x s p) text.length).zip text).map fun q => (q.1.1, q.1.2, q.2)
  | [], _ => by simp [stringPlaces]
  | code :: rest, p => by
    rw [stringPlaces_cons, stringPlaces_after c x s rest]
    rfl

/-- The places of a string, whose first character never wraps. -/
theorem stringPlaces_first (c : Config) (x s cx cy : Nat) (text : List Nat) :
    stringPlaces c x s true cx cy text =
      ((placesFrom c x s (cx, cy) text.length).zip text).map fun q => (q.1.1, q.1.2, q.2) := by
  cases text with
  | nil => simp [stringPlaces]
  | cons code rest =>
    rw [List.length_cons, placesFrom, List.iterate, List.zip_cons_cons, List.map_cons, ← placesFrom,
      ← stringPlaces_after, stringPlaces, if_neg (by simp)]

theorem placesFrom_getElem? (c : Config) (x s : Nat) (p : Nat × Nat) {n k : Nat} (h : k < n) :
    (placesFrom c x s p n)[k]? = some ((nextPlace c x s)^[k] p) := List.getElem?_iterate _ _ _ _ h

theorem wrapColumn_eq (c : Config) (x : Nat) : wrapColumn c x = if c.wrapMargin = .zero then 0 else x := by
  unfold wrapColumn
  cases c.wrapMargin <;> rfl

/-- Settles O58: the places are those of `placesFrom`, each the next of the one before it. -/
theorem stringCharactersFollowOrWrap : Obligations.StringCharactersFollowOrWrap := by
  intro c x y s text fg bg skip
  refine ⟨placesFrom c x s (x, y) text.length, List.length_iterate _ _ _, ?_, fun h => placesFrom_getElem? c x s _ h,
    fun k px py hk hplace => ?_⟩
  · simp only [pseudoReqs, drawStringReqs, stringPlaces_first, List.flatMap_map]
  · rw [placesFrom_getElem? c x s _ (by omega), Option.some.injEq] at hplace
    rw [placesFrom_getElem? c x s _ hk, Function.iterate_succ_apply', hplace, nextPlace, wrapColumn_eq]
    exact apply_ite some _ _ _

/-! A run (R89). -/

/-- Coordinates and scale fit their fields. -/
def DrawReq.Fits (q : DrawReq) : Prop := q.x ≤ 255 ∧ q.y ≤ 255 ∧ q.w ≤ 255 ∧ q.h ≤ 255

theorem DrawReq.word_of_fits {q : DrawReq} (h : q.Fits) :
    q.word = some (encode (.drawRect (BitVec.ofNat 8 q.x) (BitVec.ofNat 8 q.y) (BitVec.ofNat 8 q.w)
      (BitVec.ofNat 8 q.h) q.color)) := if_pos ((coordsFit_iff q.x q.y q.w q.h).mpr h)

theorem DrawReq.word_of_not_fits {q : DrawReq} (h : ¬q.Fits) : q.word = none :=
  if_neg (mt (coordsFit_iff q.x q.y q.w q.h).mp h)

/-- The step of a host that starts a pseudo-operation other than STRING_WIDTH. -/
theorem step_pseudo {s : State} {p : PseudoOp} {rest : List HostAction} (hw : s.cfg.wf = true) (hb : s.busy = false)
    (hp : s.trace.length ≤ s.panel.seen) (hr : s.host.running = none) (ht : s.host.todo = .pseudo p :: rest)
    (hwidth : ∀ text sc, p ≠ .stringWidth text sc) :
    step s = .next { s with host := { s.host with todo := rest, running := some ⟨pseudoReqs s.cfg p, .ok⟩ } } := by
  rw [step_host hw hb hp, hostMove, hr]
  simp only [ht]
  cases p with
  | stringWidth text sc => exact absurd rfl (hwidth text sc)
  | clear => rfl
  | drawChar => rfl
  | drawString => rfl

/-- The step of a host with a pseudo-operation in progress. -/
theorem step_running {s : State} {p : PseudoRun} (hw : s.cfg.wf = true) (hb : s.busy = false)
    (hp : s.trace.length ≤ s.panel.seen) (hr : s.host.running = some p) : step s = .next (pseudoMove p s) := by
  rw [step_host hw hb hp, hostMove, hr]

theorem issueConstituent_fits {q : DrawReq} (h : q.Fits) (p : PseudoRun) (rest : List DrawReq) (s : State) :
    issueConstituent p q rest s =
      portTake (encode (.drawRect (BitVec.ofNat 8 q.x) (BitVec.ofNat 8 q.y) (BitVec.ofNat 8 q.w) (BitVec.ofNat 8 q.h) q.color))
        { s with host := { s.host with running := some { p with rest := rest } } } := by
  rw [issueConstituent, DrawReq.word_of_fits h]

theorem issueConstituent_not_fits {q : DrawReq} (h : ¬q.Fits) (p : PseudoRun) (rest : List DrawReq) (s : State) :
    issueConstituent p q rest s =
      { s with host := { s.host with running := some { p with rest := rest, acc := firstError p.acc .eBounds } } } := by
  rw [issueConstituent, DrawReq.word_of_not_fits h]

/-- Settles O59: the host's moves at a run's start, at a constituent and at the end; a result meets the run in the status
update. -/
theorem pseudoOperationKeepsTheFirstError : Obligations.PseudoOperationKeepsTheFirstError := by
  refine ⟨fun s p rest => step_pseudo, fun s q rest acc hw hb hp hr => ?constituent, fun s t rest acc hb hr h => ?result,
    fun s acc => step_running⟩
  case constituent =>
    refine ⟨issueConstituent ⟨q :: rest, acc⟩ q rest s, step_running hw hb hp hr, ?_⟩
    by_cases hq : q.Fits
    · rw [issueConstituent_fits hq]
      obtain ⟨hx, hy, hw, hh⟩ := hq
      exact ⟨rfl, rfl, fun _ => ⟨rfl, rfl, _, _, _, _, toNat_ofByte hx, toNat_ofByte hy, toNat_ofByte hw, toNat_ofByte hh,
        rfl⟩, fun h => absurd ⟨hx, hy, hw, hh⟩ h⟩
    · rw [issueConstituent_not_fits hq]
      exact ⟨rfl, rfl, fun h => absurd h hq, fun _ => ⟨hb, rfl, rfl⟩⟩
  case result =>
    rw [(step_ends hb h).host, HostAgent.returned, hr]
    rfl

end Sys2Proof.Machine
end

section
/-! PROOFS. Sequencer control: how an operation ends as a whole next state, NOP and the bracket (R74, R77, R78), the
rejections before INIT and of INIT (R75, R114), and INIT's whole effect (R75, R115, R123). -/

namespace Sys2Proof.Machine

/-! How an operation ends. -/

/-- The status update of a success leaves ERR (R25, R72). -/
theorem finish_ok (s : State) :
    finish .ok s = { s with lastResult := .ok, busy := false, host := s.host.returned .ok } := by
  rw [finish, errAfter_ok]

/-- A rejection with a result that leaves FATAL is the status update alone (R99). -/
theorem exec_rejected_eq {i : Instr} {s : State} {r : Result} (hf : s.fatal = false) (ho : ownResult i s = r)
    (h0 : r ≠ .ok) (h1 : r ≠ .eConfig) (h2 : r ≠ .eBounds) :
    exec i s = .next { s with lastResult := r, err := true, busy := false, host := s.host.returned r } := by
  subst ho
  rw [exec_rejected hf h0, blame_eq_self s h1 h2, finish_error h0]

/-- The two ways an operation ends: the status update of an error over the old state, or a success with its effect. -/
theorem exec_cases {i : Instr} {s t : State} (h : exec i s = .next t) :
    (t.lastResult ≠ .ok ∧ t = finish t.lastResult (blame t.lastResult s)) ∨
    (t.lastResult = .ok ∧ s.fatal = false ∧ ownResult i s = .ok ∧ ∃ u, Effect i s u ∧ t = finish .ok u) := by
  rcases exec_eq_next.mp h with ⟨_, rfl⟩ | ⟨_, hr, rfl⟩ | ⟨hf, ho, u, hu, rfl⟩
  · exact .inl ⟨nofun, by rw [finish_lastResult, blame_eFatal]⟩
  · exact .inl ⟨hr, rfl⟩
  · exact .inr ⟨rfl, hf, ho, u, hu, rfl⟩

/-! When the checks of an operation pass (R98, 4). -/

section Checks
variable {s : State} {x y w h : Byte} {c : Sample}

theorem ownResult_txnBegin_ok_iff : ownResult .txnBegin s = .ok ↔ s.phase = .active ∧ s.txnOpen = false := by
  unfold ownResult
  split_ifs <;> simp_all

theorem ownResult_txnEnd_ok_iff : ownResult .txnEnd s = .ok ↔ s.phase = .active ∧ s.txnOpen = true := by
  unfold ownResult
  split_ifs <;> simp_all

theorem ownResult_setWindow_ok_iff : ownResult (.setWindow x y w h) s = .ok ↔
    s.phase = .active ∧ s.txnOpen = true ∧ rectResult s.cfg.oob x y w h = .ok := by
  unfold ownResult
  split_ifs <;> simp_all

theorem ownResult_fill_ok_iff : ownResult (.fill c) s = .ok ↔
    s.phase = .active ∧ s.txnOpen = true ∧ s.winValid = true := by
  unfold ownResult
  split_ifs <;> simp_all

theorem ownResult_drawRect_ok_iff : ownResult (.drawRect x y w h c) s = .ok ↔
    s.phase = .active ∧ s.txnOpen = false ∧ rectResult s.cfg.oob x y w h = .ok := by
  unfold ownResult
  split_ifs <;> simp_all

end Checks

/-- Settles O24: NOP has no checks and no effect. -/
theorem nopSucceedsAndChangesNothing : Obligations.NopSucceedsAndChangesNothing := by
  intro s hf
  rw [exec_done (i := .nop) hf rfl rfl, finish_ok]

/-- Settles O30: TXN_BEGIN's checks pass and its effect is the opened bracket. -/
theorem txnBeginOpensTheBracket : Obligations.TxnBeginOpensTheBracket := by
  intro s hf ha ho
  rw [exec_done hf (ownResult_txnBegin_ok_iff.mpr ⟨ha, ho⟩) rfl, finish_ok]
  rfl

/-- Settles O31: TXN_END's checks pass and its effect is the closed bracket, with no window. -/
theorem txnEndClosesTheBracket : Obligations.TxnEndClosesTheBracket := by
  intro s hf ha ho
  rw [exec_done hf (ownResult_txnEnd_ok_iff.mpr ⟨ha, ho⟩) rfl, finish_ok]
  rfl

/-- Every operation but NOP and INIT first checks that the phase is ACTIVE (R114). -/
theorem ownResult_notActive {i : Instr} {s : State} (ha : s.phase ≠ .active) (hn : i ≠ .nop) (hi : i ≠ .init) :
    ownResult i s = .eNotActive := by
  cases i with
  | nop => exact absurd rfl hn
  | init => exact absurd rfl hi
  | txnBegin => exact if_pos ha
  | txnEnd => exact if_pos ha
  | setWindow => exact if_pos ha
  | fill => exact if_pos ha
  | drawRect => exact if_pos ha

/-- Settles O32: the first check of every other operation is the phase's. -/
theorem nothingDrawsBeforeInit : Obligations.NothingDrawsBeforeInit := fun _ _ hf ha hn hi =>
  exec_rejected_eq hf (ownResult_notActive ha hn hi) (by decide) (by decide) (by decide)

/-- Settles O33: INIT's two checks, the first of which sets FATAL. -/
theorem initFailsFastOnBadCapacity : Obligations.InitFailsFastOnBadCapacity := by
  refine ⟨fun s hf hc => ?_, fun s hf hc ho => ?_⟩
  · have hown : ownResult .init s = .eConfig := if_pos (not_not.mp (mt (capSound_iff _).mpr hc))
    rw [exec_rejected hf (by rw [hown]; decide), hown, finish_error (by decide)]
    simp [blame]
  · have hown : ownResult .init s = .eTxnOpen := (if_neg ((capSound_iff _).mp hc)).trans (if_pos ho)
    exact exec_rejected_eq hf hown (by decide) (by decide) (by decide)

/-! INIT's events. -/

/-- The events of the bring-up, before the clear (R75, steps 1 to 4). -/
def bringUpEvents (c : Config) : List Event :=
  lineSetupEvents c ++ resetPulseEvents c ++ [.txnBegin] ++ (configCommands ++ [PanelCmd.invon]).flatMap (sendCmdEvents c) ++
    sendCmdEvents c .slpout ++ [.delay c.tSlpout] ++ sendCmdEvents c .dispon ++ [.delay c.tDispon]

theorem initBringUp_trace (s : State) : (initBringUp s).trace = s.trace ++ bringUpEvents s.cfg := by
  simp only [initBringUp, initWake, initConfigure, initReset, emit_trace, sendCmd_trace, sendCmds_trace, openTxn_trace,
    emit_cfg, sendCmd_cfg, sendCmds_cfg, openTxn_cfg, bringUpEvents, List.flatMap_append, List.flatMap_singleton,
    List.append_assoc]

/-- The events of INIT's clear, after its window: black in chunks of at most CAP bytes (R75, R83). -/
def clearEvents (c : Config) : List Event :=
  .cmd c.panelCmd.ramwr :: (chunkLens c.cap 115200 115200).map fun k => .data (List.replicate k 0x00#8)

theorem fillEvents_clear (s : State) : fillEvents 0x0000#16 (windowBody Rect.full s) = clearEvents s.cfg := by
  simp only [fillEvents_eq, fillChunks, fillTotal_full, patternBytes_zero, windowBody_cfg, clearEvents]

/-- The events of INIT (R75): a function of the configuration alone. -/
def initEvents (c : Config) : List Event := bringUpEvents c ++ windowEvents c Rect.full ++ clearEvents c ++ [.txnEnd]

/-- The registers, the buffer and the events of a window and its fill, with the bracket then closed (R75, R85). -/
theorem drawn_eq (c : Sample) (q : Rect) (s : State) :
    closeTxn (filled c (windowBody q s)) = { s with
      txnOpen := false, winValid := false, winX := BitVec.ofNat 8 q.x, winY := BitVec.ofNat 8 q.y,
      winW := BitVec.ofNat 8 q.w, winH := BitVec.ofNat 8 q.h, winCount := BitVec.ofNat 16 (q.w * q.h),
      buf := filledBuf c (windowBody q s),
      trace := s.trace ++ windowEvents s.cfg q ++ fillEvents c (windowBody q s) ++ [.txnEnd],
      devices := (closeTxn (filled c (windowBody q s))).devices } := by
  simp only [closeTxn, filled, windowBody, recordWindow, emit]

/-- The state that INIT's rule ends with. -/
def initDone (s : State) : State := closeTxn (filled 0x0000#16 (windowBody Rect.full (initBringUp s)))

/-- INIT's effect as a whole state, but for the lines (R75). -/
theorem initDone_eq (s : State) :
    initDone s = { s with
      phase := .active, txnOpen := false, winValid := false, winX := 0#8, winY := 0#8, winW := 240#8, winH := 240#8,
      winCount := 57600#16, buf := s.buf.fillPattern (min s.cfg.cap 115200) 0#16,
      devices := (initDone s).devices, trace := s.trace ++ initEvents s.cfg } := by
  conv_lhs => rw [initDone, drawn_eq]
  simp only [fillEvents_clear, filledBuf, fillTotal_full, windowBody_cfg, windowBody_buf, initBringUp_cfg, initBringUp_trace,
    initBringUp_buf, initBringUp_phase, initBringUp_fatal, initBringUp_err, initBringUp_lastResult, initBringUp_busy,
    initBringUp_portWord, initBringUp_panel, initBringUp_host, initEvents, List.append_assoc]
  rfl

@[simp] theorem initDone_cfg (s : State) : (initDone s).cfg = s.cfg := by rw [initDone_eq]
@[simp] theorem initDone_fatal (s : State) : (initDone s).fatal = s.fatal := by rw [initDone_eq]
@[simp] theorem initDone_err (s : State) : (initDone s).err = s.err := by rw [initDone_eq]
@[simp] theorem initDone_phase (s : State) : (initDone s).phase = .active := by rw [initDone_eq]
@[simp] theorem initDone_txnOpen (s : State) : (initDone s).txnOpen = false := by rw [initDone_eq]
@[simp] theorem initDone_winValid (s : State) : (initDone s).winValid = false := by rw [initDone_eq]
@[simp] theorem initDone_winX (s : State) : (initDone s).winX = 0#8 := by rw [initDone_eq]
@[simp] theorem initDone_winY (s : State) : (initDone s).winY = 0#8 := by rw [initDone_eq]
@[simp] theorem initDone_winW (s : State) : (initDone s).winW = 240#8 := by rw [initDone_eq]
@[simp] theorem initDone_winH (s : State) : (initDone s).winH = 240#8 := by rw [initDone_eq]
@[simp] theorem initDone_winCount (s : State) : (initDone s).winCount = 57600#16 := by rw [initDone_eq]
@[simp] theorem initDone_portWord (s : State) : (initDone s).portWord = s.portWord := by rw [initDone_eq]
@[simp] theorem initDone_panel (s : State) : (initDone s).panel = s.panel := by rw [initDone_eq]
@[simp] theorem initDone_host (s : State) : (initDone s).host = s.host := by rw [initDone_eq]
@[simp] theorem initDone_buf (s : State) : (initDone s).buf = s.buf.fillPattern (min s.cfg.cap 115200) 0#16 := by
  rw [initDone_eq]
@[simp] theorem initDone_trace (s : State) : (initDone s).trace = s.trace ++ initEvents s.cfg := by rw [initDone_eq]

/-- INIT's checks pass with no bracket open and a sound capacity, and then it ends with `initDone`. -/
theorem exec_init {s : State} (hf : s.fatal = false) (ho : s.txnOpen = false) (hc : capSound s.cfg.cap) :
    exec .init s = .next (finish .ok (initDone s)) := by
  have hown : ownResult .init s = .ok := (if_neg ((capSound_iff _).mp hc)).trans (by simp [ho])
  exact exec_done hf hown rfl

/-- An INIT that answers OK had a sound capacity and no fault, and ends with `initDone`. -/
theorem exec_init_ok {s t : State} (h : exec .init s = .next t) (ht : t.lastResult = .ok) :
    s.fatal = false ∧ capSound s.cfg.cap ∧ t = finish .ok (initDone s) := by
  obtain ⟨hf, ho, u, rfl, rfl⟩ := exec_ok h ht
  exact ⟨hf, ownResult_init_cap ho, rfl⟩

/-- The clear's chunks: whole buffers of black, then the rest. -/
theorem clearEvents_eq {c : Config} (hc : 0 < c.cap) :
    clearEvents c = .cmd c.panelCmd.ramwr :: (List.replicate (115200 / c.cap) (.data (List.replicate c.cap 0x00#8)) ++
      if 115200 % c.cap = 0 then [] else [.data (List.replicate (115200 % c.cap) 0x00#8)]) := by
  rw [clearEvents, chunkLens_eq hc _ _ (Nat.le_refl _), List.map_append, List.map_replicate]
  split <;> rfl

/-- Settles O26: INIT ends with `initDone`, whose registers and events are computed above. -/
theorem initRunsTheBringUpSequence : Obligations.InitRunsTheBringUpSequence := by
  intro s hf ho hc
  have hc0 : 0 < s.cfg.cap := by have := hc.2; omega
  refine ⟨_, exec_init hf ho hc, ?_, ?_⟩
  · rw [finish_ok, initDone_eq]
  · rw [finish_trace, initDone_trace, initEvents, clearEvents_eq hc0]
    simp only [List.append_assoc, List.cons_append, List.nil_append, bringUpEvents, lineSetupEvents, resetPulseEvents,
      windowEvents]
    rfl

/-- Settles O27: the lines after INIT are those of `init_devices`. -/
theorem initLeavesTheLinesSet : Obligations.InitLeavesTheLinesSet := by
  intro s t h ht
  obtain ⟨_, hc, rfl⟩ := exec_init_ok h ht
  obtain ⟨e, _, hdev⟩ := init_devices s hc
  rw [finish_devices, initDone, hdev]
  exact ⟨rfl, rfl, rfl, rfl⟩

/-! Delays (R116, R123). -/

theorem traceDelays_sendCmdEvents (c : Config) (n : PanelCmd) : traceDelays (sendCmdEvents c n) = [] :=
  traceDelays_transfers (sendCmdEvents_transfers c n)

theorem sendCmds_transfers (c : Config) (ns : List PanelCmd) :
    ∀ e ∈ ns.flatMap (sendCmdEvents c), (∃ k, e = .cmd k) ∨ ∃ bs, e = .data bs := by
  intro e he
  obtain ⟨n, _, hn⟩ := List.mem_flatMap.mp he
  exact sendCmdEvents_transfers c n e hn

theorem traceDelays_sendCmds (c : Config) (ns : List PanelCmd) : traceDelays (ns.flatMap (sendCmdEvents c)) = [] :=
  traceDelays_transfers (sendCmds_transfers c ns)

theorem traceDelays_windowEvents (c : Config) (r : Rect) : traceDelays (windowEvents c r) = [] := rfl

theorem traceDelays_fillEvents (c : Sample) (s : State) : traceDelays (fillEvents c s) = [] :=
  traceDelays_transfers (fillEvents_transfers c s)

theorem traceDelays_clearEvents (c : Config) : traceDelays (clearEvents c) = [] := by
  simp [traceDelays, clearEvents, Event.delayOf, List.flatMap_map]

/-- The delays among INIT's events are its five, in order. -/
theorem traceDelays_initEvents (c : Config) :
    traceDelays (initEvents c) = [c.tRstHigh, c.tRstLow, c.tRstRecover, c.tSlpout, c.tDispon] := by
  simp only [initEvents, bringUpEvents, traceDelays_append, traceDelays_sendCmds, traceDelays_sendCmdEvents,
    traceDelays_windowEvents, traceDelays_clearEvents]
  rfl

/-- No effect but INIT's delays (R123). -/
theorem Effect.noDelay {i : Instr} {s u : State} (h : Effect i s u) (hi : i ≠ .init) :
    u.devices.elapsed = s.devices.elapsed ∧ traceDelays (u.trace.drop s.trace.length) = [] := by
  have drop (es : List Event) : (s.trace ++ es).drop s.trace.length = es := List.drop_left
  cases i with
  | nop => subst h; exact ⟨rfl, by simp [traceDelays]⟩
  | init => exact absurd rfl hi
  | txnBegin => subst h; exact ⟨rfl, by rw [openTxn_trace, drop]; rfl⟩
  | txnEnd => subst h; exact ⟨rfl, by rw [closeTxn_trace, drop]; rfl⟩
  | setWindow x y w g => obtain ⟨q, _, rfl⟩ := h; exact ⟨rfl, by rw [windowBody_trace, drop, traceDelays_windowEvents]⟩
  | fill c =>
    obtain ⟨_, rfl⟩ := h
    obtain ⟨v, hv⟩ := fillEvents_lines s.cfg.wire.dcCommand c s s.devices
    exact ⟨by rw [filled_devices, hv], by rw [filled_trace, drop, traceDelays_fillEvents]⟩
  | drawRect x y w g c =>
    obtain ⟨q, _, _, rfl⟩ := h
    obtain ⟨v, hv⟩ := fillEvents_lines s.cfg.wire.dcCommand c (windowBody q (openTxn s)) (windowBody q (openTxn s)).devices
    refine ⟨?_, ?_⟩
    · rw [closeTxn_devices, filled_devices, windowBody_cfg, openTxn_cfg, hv]; rfl
    · simp only [closeTxn_trace, filled_trace, windowBody_trace, openTxn_trace, List.append_assoc, drop,
        traceDelays_append, traceDelays_windowEvents, traceDelays_fillEvents]
      rfl

/-- Settles O28: INIT's delays are those among its events, and no other effect delays; a rejection emits nothing. -/
theorem initDelaysInOrder : Obligations.InitDelaysInOrder := by
  refine ⟨fun s t _ h ht => ?_, fun s t i hi h => ?_⟩
  · obtain ⟨_, hc, rfl⟩ := exec_init_ok h ht
    obtain ⟨e, he, hdev⟩ := init_devices s hc
    refine ⟨?_, ?_⟩
    · rw [finish_trace, initDone_trace, List.drop_left, traceDelays_initEvents]
    · rw [finish_devices, initDone, hdev]
      exact he
  · rcases exec_cases h with ⟨_, ht⟩ | ⟨_, _, _, u, hu, rfl⟩
    · rw [ht]
      exact ⟨rfl, by simp [traceDelays]⟩
    · exact hu.noDelay hi

/-- Black is a run of zero bytes. -/
theorem patternByte_black (k : Nat) : patternByte 0x0000#16 k = 0x00#8 := by
  unfold patternByte
  split <;> rfl

/-- A second INIT right after the first leaves all but the lines, the events and the host's record as they are (R115). -/
theorem init_init (s : State) :
    finish .ok (initDone (finish .ok (initDone s))) = { finish .ok (initDone s) with
      devices := (initDone (finish .ok (initDone s))).devices,
      trace := (finish .ok (initDone s)).trace ++ initEvents s.cfg,
      host := (initDone (finish .ok (initDone s))).host.returned .ok } := by
  conv_lhs => rw [finish_ok, initDone_eq (finish .ok (initDone s))]
  rw [initDone_eq s]
  simp only [finish, Mem.fillPattern_fillPattern, initDone_host]

/-- Settles O29: INIT's events depend on the configuration alone, and its registers and its black on nothing. -/
theorem reinitRepeatsTheFirstInit : Obligations.ReinitRepeatsTheFirstInit := by
  intro s t u h ht hu
  obtain ⟨hf, hc, rfl⟩ := exec_init_ok h ht
  have hsecond := exec_init (s := finish .ok (initDone s)) (by simpa using hf) (by simp) (by simpa using hc)
  obtain rfl := Host.Outcome.next.inj (hsecond.symm.trans hu)
  refine ⟨finish_lastResult _ _, by simp, by simp, by simp, by simp, by simp, ?window, ?count, fun k hk => ?black, ?_⟩
  case window => simp [readReg_window, windowReg]
  case count => simp [readReg_count, countReg]
  case black =>
    rw [finish_buf, initDone_buf, Mem.readByte_fillPattern, finish_cfg, initDone_cfg, if_pos hk, patternByte_black]
  · conv_lhs => rw [init_init]
    simp only [finish_trace, initDone_trace, finish_cfg, initDone_cfg, finish_devices, finish_host]

end Sys2Proof.Machine
end

section
/-! PROOFS. The invariant: it holds at reset, every part of an operation keeps it, and so do the panel's and the host's
moves. -/

namespace Sys2Proof.Machine

/-- Settles O51: at reset every clause is about a constant of `State.resetWith`. -/
theorem invariantHoldsAtReset : Obligations.InvariantHoldsAtReset := by
  have atReset (c : Config) (hw : c.wf = true) : (State.resetWith c).Inv :=
    { config := hw
      phase := .inl rfl
      activeCap := nofun
      txnActive := nofun
      txnTrace := rfl
      winTxn := nofun
      winExtent := nofun
      winOnPanel := by simp [State.resetWith]
      winCount := rfl
      buffer := reset_buf_wf c
      errSet := fun h => absurd rfl h
      fatalErr := nofun
      quiet := fun _ => rfl
      dataBytes := rfl
      linesOut := nofun
      lineLevels := nofun
      chipSelect := nofun
      panelSeen := Nat.le_refl 0
      panelKeys := ⟨rfl, rfl⟩
      lastReturned := rfl }
  exact ⟨atReset, atReset Config.default (by decide)⟩

/-! The panel's lists keep their form (R56 to R58). -/

/-- The panel's frame memory and configuration registers are in canonical form. -/
def Panel.KeysRise (p : Panel) : Prop := keysRise p.fm = true ∧ keysRise p.config = true

namespace Panel

theorem KeysRise.advance {p : Panel} (h : p.KeysRise) : p.advance.KeysRise := by
  unfold Panel.advance
  split <;> exact h

theorem KeysRise.writeSample {p : Panel} (h : p.KeysRise) (c : Sample) : (p.writeSample c).KeysRise := by
  obtain ⟨hfm, hconfig⟩ := h
  unfold Panel.writeSample
  split
  · exact KeysRise.advance ⟨keysRise_storeKey _ c hfm, hconfig⟩
  · exact ⟨rfl, hconfig⟩

theorem KeysRise.pixelByte {p : Panel} (h : p.KeysRise) (b : Byte) : (p.pixelByte b).KeysRise := by
  unfold Panel.pixelByte
  split
  · exact h
  · exact KeysRise.writeSample (p := { p with latch := none }) h _

theorem KeysRise.argByte {p : Panel} (h : p.KeysRise) (b : Byte) : (p.argByte b).KeysRise := by
  unfold Panel.argByte
  split <;> exact h

theorem KeysRise.columnByte {p : Panel} (h : p.KeysRise) (b : Byte) : (p.columnByte b).KeysRise := by
  unfold Panel.columnByte
  split <;> exact h.argByte b

theorem KeysRise.rowByte {p : Panel} (h : p.KeysRise) (b : Byte) : (p.rowByte b).KeysRise := by
  unfold Panel.rowByte
  split <;> exact h.argByte b

theorem KeysRise.configByte {p : Panel} (h : p.KeysRise) (k b : Byte) : (p.configByte k b).KeysRise :=
  ⟨h.1, keysRise_storeKey _ _ h.2⟩

theorem KeysRise.dataByte {p : Panel} (h : p.KeysRise) (t : PanelCodes) (b : Byte) : (p.dataByte t b).KeysRise := by
  unfold Panel.dataByte
  split
  · exact h
  · split_ifs
    · exact h.pixelByte b
    · exact h.columnByte b
    · exact h.rowByte b
    · exact h.configByte _ b

theorem KeysRise.otherCommand {p : Panel} (h : p.KeysRise) (t : PanelCodes) (b : Byte) : (p.otherCommand t b).KeysRise := by
  have hq : keysRise (storeKey b.toNat [] p.config) = true := keysRise_storeKey _ _ h.2
  unfold Panel.otherCommand
  simp only
  split_ifs <;> exact ⟨h.1, hq⟩

theorem KeysRise.command {p : Panel} (h : p.KeysRise) (t : PanelCodes) (b : Byte) : (p.command t b).KeysRise := by
  unfold Panel.command
  split_ifs
  · exact h
  · exact h
  · exact h
  · exact h.otherCommand t b

/-- Every event keeps the form. -/
theorem KeysRise.observe {p : Panel} (h : p.KeysRise) (t : PanelCodes) (e : Event) : (p.observe t e).KeysRise := by
  unfold Panel.observe
  split
  · exact h.command t _
  · next bs =>
    induction bs generalizing p with
    | nil => exact h
    | cons b bs ih => exact ih (h.dataByte t b)
  all_goals exact h

end Panel

/-! The moves between operations. -/

/-- What the host does is no part of the invariant but for the results it has received; nor are BUSY and the port's word. -/
theorem State.Inv.host {s : State} (h : s.Inv) {g : HostAgent} (hr : g.results = s.host.results) (b : Bool) (w : OpWord) :
    State.Inv { s with host := g, busy := b, portWord := w } :=
  { h with lastReturned := hr ▸ h.lastReturned }

theorem State.Inv.panelMove {s : State} (h : s.Inv) : (panelMove s).Inv := by
  unfold Machine.panelMove
  split
  · next e he =>
    have hseen := (List.getElem?_eq_some_iff.mp he).1
    exact { h with
      panelSeen := hseen
      panelKeys := Panel.KeysRise.observe (p := s.panel) h.panelKeys s.cfg.panelCmd e }
  · exact h

theorem State.Inv.hostMove {s : State} (h : s.Inv) : (hostMove s).Inv := by
  obtain ⟨g, b, w, hmove⟩ := hostMove_frame s
  have hr : g.results = s.host.results := by rw [← hostMove_results s, hmove]
  exact hmove ▸ h.host hr b w

/-! The parts of an operation. -/

@[simp] theorem bracketOpen_delay (es : List Event) (t : Nat) : bracketOpen (es ++ [.delay t]) = bracketOpen es := by
  simp [bracketOpen]

/-- The bring-up opens the bracket: after TxnBegin it sends commands and waits. -/
theorem bracketOpen_bringUp (es : List Event) (c : Config) : bracketOpen (es ++ bringUpEvents c) = true := by
  simp only [bringUpEvents, ← List.append_assoc]
  rw [bracketOpen_delay, bracketOpen_transfers (sendCmdEvents_transfers c .dispon), bracketOpen_delay,
    bracketOpen_transfers (sendCmdEvents_transfers c .slpout), bracketOpen_transfers (sendCmds_transfers c _),
    bracketOpen_txnBegin]

theorem bringUpEvents_nonEmpty (c : Config) : (bringUpEvents c).all Event.nonEmpty = true := by
  simp only [bringUpEvents, List.all_append, List.all_flatMap, sendCmdEvents_nonEmpty]
  rfl

/-- A success's status update. -/
theorem State.Inv.finish_ok {s : State} (h : s.Inv) : (finish .ok s).Inv := by
  rw [Machine.finish_ok]
  exact { h with
    errSet := fun hne => absurd rfl hne
    lastReturned := by simp }

/-- A rejection's status update sets ERR, so FATAL may be set with it. -/
theorem State.Inv.rejected {s : State} (h : s.Inv) {r : Result} (hr : r ≠ .ok) : (finish r (blame r s)).Inv := by
  rw [finish_error hr]
  exact { h with
    errSet := fun _ => rfl
    fatalErr := fun _ => rfl
    lastReturned := by simp }

/-- Command and non-empty `Data` events, sent once ACTIVE. -/
theorem State.Inv.emit {s : State} (h : s.Inv) (ha : s.phase = .active) {es : List Event}
    (ht : ∀ e ∈ es, (∃ k, e = .cmd k) ∨ ∃ bs, e = .data bs) (hne : es.all Event.nonEmpty = true) :
    (emit es s).Inv := by
  obtain ⟨v, hv⟩ := applyAll_transfers s.cfg.wire.dcCommand es s.devices ht
  exact { h with
    txnTrace := by rw [emit_txnOpen, emit_trace, bracketOpen_transfers ht, h.txnTrace]
    quiet := fun hp => by simp [ha] at hp
    dataBytes := by rw [emit_trace, List.all_append, h.dataBytes, hne]; rfl
    linesOut := fun _ => by rw [emit_devices, hv]; exact h.linesOut ha
    lineLevels := fun _ => by rw [emit_devices, hv]; exact h.lineLevels ha
    chipSelect := fun _ => by rw [emit_devices, hv]; exact h.chipSelect ha
    panelSeen := by rw [emit_trace, List.length_append]; exact h.panelSeen.trans (Nat.le_add_right _ _) }

/-- The bracket opens, once ACTIVE, and chip-select goes low. -/
theorem State.Inv.openTxn {s : State} (h : s.Inv) (ha : s.phase = .active) : (openTxn s).Inv :=
  { h with
    txnActive := fun _ => ha
    txnTrace := by rw [openTxn_trace, bracketOpen_txnBegin, openTxn_txnOpen]
    winTxn := fun _ => rfl
    quiet := fun hp => by simp [ha] at hp
    dataBytes := by rw [openTxn_trace, List.all_append, h.dataBytes]; rfl
    linesOut := fun _ => h.linesOut ha
    lineLevels := fun _ => h.lineLevels ha
    chipSelect := fun _ => rfl
    panelSeen := by rw [openTxn_trace, List.length_append]; exact h.panelSeen.trans (Nat.le_add_right _ _) }

/-- The window is given up. -/
theorem State.Inv.noWindow {s : State} (h : s.Inv) : State.Inv { s with winValid := false } :=
  { h with
    winTxn := nofun
    winExtent := nofun }

/-- The bracket closes, with no window valid, and chip-select goes high. -/
theorem State.Inv.closeTxn {s : State} (h : s.Inv) (ha : s.phase = .active) (hv : s.winValid = false) :
    (closeTxn s).Inv :=
  { h with
    txnActive := fun _ => ha
    txnTrace := by rw [closeTxn_trace, bracketOpen_txnEnd, closeTxn_txnOpen]
    winTxn := fun hw => by simp [hv] at hw
    quiet := fun hp => by simp [ha] at hp
    dataBytes := by rw [closeTxn_trace, List.all_append, h.dataBytes]; rfl
    linesOut := fun _ => h.linesOut ha
    lineLevels := fun _ => h.lineLevels ha
    chipSelect := fun _ => rfl
    panelSeen := by rw [closeTxn_trace, List.length_append]; exact h.panelSeen.trans (Nat.le_add_right _ _) }

/-- WindowBody inside a bracket, on a rectangle of the panel. -/
theorem State.Inv.windowBody {s : State} (h : s.Inv) (ho : s.txnOpen = true) {q : Rect} (hq : q.onPanel) :
    (windowBody q s).Inv := by
  obtain ⟨hx, hy, hw, hh, hcount, hpos, hwx, hhy⟩ := onPanel_registers hq
  have hemit := h.emit (h.txnActive ho) (windowEvents_transfers s.cfg q) (windowEvents_nonEmpty s.cfg q)
  exact { hemit with
    winTxn := fun _ => ho
    winExtent := fun _ => by rw [windowBody_winCount, hcount]; exact hpos
    winOnPanel := by
      rw [windowBody_winX, windowBody_winY, windowBody_winW, windowBody_winH, hx, hy, hw, hh]
      exact ⟨hwx, hhy⟩
    winCount := by rw [windowBody_winCount, windowBody_winW, windowBody_winH, hcount, hw, hh] }

/-- FillBody, once ACTIVE. -/
theorem State.Inv.filled {s : State} (h : s.Inv) (ha : s.phase = .active) (c : Sample) : (filled c s).Inv := by
  have hcap : 0 < s.cfg.cap := by have := (h.activeCap ha).2; omega
  have hemit := h.emit ha (fillEvents_transfers c s) (fillEvents_nonEmpty c hcap)
  exact { hemit.noWindow with
    buffer := Mem.wf_fillPattern c h.buffer (Nat.min_le_left _ _) }

/-- The bring-up changes the phase, the bracket, WIN_VALID, the lines and the trace (R75). -/
theorem initBringUp_eq (s : State) :
    initBringUp s = { s with
      phase := .active, txnOpen := true, winValid := false, devices := (initBringUp s).devices,
      trace := s.trace ++ bringUpEvents s.cfg } := by
  rw [← initBringUp_trace]
  simp only [initBringUp, initWake, initConfigure, initReset, emit, sendCmd, sendCmds, openTxn]

/-- The bring-up: it opens the bracket and leaves the lines set, and a window is valid no more. -/
theorem State.Inv.initBringUp {s : State} (h : s.Inv) (hc : capSound s.cfg.cap) : (initBringUp s).Inv := by
  obtain ⟨v, e, _, hdev⟩ := initBringUp_devices s
  rw [initBringUp_eq, hdev]
  exact { h with
    phase := .inr rfl
    activeCap := fun _ => hc
    txnActive := fun _ => rfl
    txnTrace := (bracketOpen_bringUp s.trace s.cfg).symm
    winTxn := fun _ => rfl
    winExtent := nofun
    quiet := nofun
    dataBytes := by rw [List.all_append, h.dataBytes, bringUpEvents_nonEmpty]; rfl
    linesOut := fun _ => ⟨rfl, rfl, rfl, rfl⟩
    lineLevels := fun _ => ⟨rfl, rfl⟩
    chipSelect := fun _ => rfl
    panelSeen := by rw [List.length_append]; exact h.panelSeen.trans (Nat.le_add_right _ _) }

/-! The operations and the step. -/

/-- The operations that need the phase ACTIVE find it so when their checks pass. -/
theorem active_of_ownResult {i : Instr} {s : State} (ho : ownResult i s = .ok) (hn : i ≠ .nop) (hi : i ≠ .init) :
    s.phase = .active := by
  by_contra ha
  simp [ownResult_notActive ha hn hi] at ho

/-- Every effect keeps the invariant. -/
theorem Effect.inv {i : Instr} {s u : State} (he : Effect i s u) (h : s.Inv) (ho : ownResult i s = .ok) : u.Inv := by
  have hactive := active_of_ownResult ho
  cases i with
  | nop => exact he ▸ h
  | init =>
    have hup := h.initBringUp (ownResult_init_cap ho)
    rw [he]
    have hwindow := hup.windowBody (initBringUp_txnOpen s) full_onPanel
    exact (hwindow.filled (by simp) _).closeTxn (by simp) (by simp)
  | txnBegin => exact he ▸ h.openTxn (hactive nofun nofun)
  | txnEnd => exact he ▸ h.noWindow.closeTxn (hactive nofun nofun) rfl
  | setWindow x y w g =>
    obtain ⟨q, hq, rfl⟩ := he
    obtain ⟨_, hopen, _⟩ := ownResult_setWindow_ok_iff.mp ho
    exact h.windowBody hopen hq.onPanel
  | fill c =>
    obtain ⟨_, rfl⟩ := he
    exact h.filled (hactive nofun nofun) c
  | drawRect x y w g c =>
    obtain ⟨q, hq, _, rfl⟩ := he
    have ha := hactive nofun nofun
    have hwindow := (h.openTxn ha).windowBody (openTxn_txnOpen s) hq.onPanel
    exact (hwindow.filled (by simp [ha]) c).closeTxn (by simp [ha]) (by simp)

theorem Ends.inv {s t : State} (he : Ends s t) (h : s.Inv) : t.Inv := by
  cases he with
  | rejected r hr ht => exact ht ▸ h.rejected hr
  | done i u _ _ ho hu ht => exact ht ▸ (hu.inv h ho).finish_ok

/-- Settles O50: LCDSEQ's move by the parts of its operation, the panel's and the host's by their frames. -/
theorem invariantIsKept : Obligations.InvariantIsKept := by
  intro s t h hstep
  obtain ⟨_, ⟨_, hm⟩ | ⟨_, _, rfl⟩ | ⟨_, _, rfl⟩⟩ := step_eq_next.mp hstep
  · exact (lcdseqMove_ends hm).inv h
  · exact h.panelMove
  · exact h.hostMove

/-- From a state that meets the invariant an operation whose checks pass has an effect: NOP always, INIT by its own check of
the capacity, and every other in the phase ACTIVE. -/
theorem State.Inv.effect_exists {s : State} (h : s.Inv) {i : Instr} (ho : ownResult i s = .ok) : ∃ u, Effect i s u := by
  by_cases hn : i = .nop
  · exact ⟨s, hn ▸ rfl⟩
  by_cases hi : i = .init
  · exact Machine.effect_exists (ownResult_init_cap (hi ▸ ho)) ho
  · exact Machine.effect_exists (h.activeCap (active_of_ownResult ho hn hi)) ho

theorem State.Inv.lcdseqMove_goes_on {s : State} (h : s.Inv) : ∃ t, lcdseqMove s = .next t := by
  cases hd : decode s.portWord with
  | error e => exact ⟨_, lcdseqMove_eq_next.mpr (.inl ⟨e, hd, rfl⟩)⟩
  | ok i =>
    rw [lcdseqMove_ok hd]
    cases hf : s.fatal
    · by_cases ho : ownResult i s = .ok
      · obtain ⟨u, hu⟩ := h.effect_exists ho
        exact ⟨_, exec_done hf ho hu⟩
      · exact ⟨_, exec_rejected hf ho⟩
    · exact ⟨_, exec_eq_next.mpr (.inl ⟨hf, rfl⟩)⟩

/-- Settles O52: LCDSEQ's move goes on by the invariant, and the panel's and the host's always do. -/
theorem everyStepGoesOn : Obligations.EveryStepGoesOn := by
  refine ⟨fun s h => ?_, fun s t hb h ht => ?_⟩
  · unfold step
    rw [if_neg (by simp [h.config])]
    split_ifs
    · exact h.lcdseqMove_goes_on
    · exact ⟨_, rfl⟩
    · exact ⟨_, rfl⟩
  · rw [(step_ends hb h).err, ht, errAfter_ok]

end Sys2Proof.Machine
end

section
/-! PROOFS. The staging buffer and the fill engine: the bulk write is the byte loop, and the chunks of a fill (R31, R83, R86,
R87). -/

namespace Sys2Proof.Machine

/-! The bulk write. -/

section Keys
variable {α : Type}

/-- A store past every key of a list's first part goes into the second. -/
theorem storeKey_append {k : Nat} (v : α) : ∀ {l : List (Nat × α)}, (∀ a ∈ l, a.1 < k) → ∀ m : List (Nat × α),
    storeKey k v (l ++ m) = l ++ storeKey k v m
  | [], _, _ => rfl
  | a :: l, h, m => by
    rw [List.cons_append, storeKey, if_pos (h a (by simp)), storeKey_append v (fun b hb => h b (by simp [hb])) m]
    rfl

/-- Under keys that all exceed `n` the bounds `n` and `n + 1` leave out the same entries. -/
theorem filter_ge_succ {n : Nat} {l : List (Nat × α)} (h : ∀ a ∈ l, n < a.1) :
    (l.filter fun a => decide (n ≤ a.1)) = l.filter fun a => decide (n + 1 ≤ a.1) := by
  refine List.filter_congr fun a ha => ?_
  have := h a ha
  simp only [decide_eq_decide]
  omega

/-- A store at the bound of a list's upper part becomes its head. -/
theorem storeKey_filter_ge (n : Nat) (v : α) : ∀ {m : List (Nat × α)}, keysRise m = true →
    storeKey n v (m.filter fun a => decide (n ≤ a.1)) = (n, v) :: m.filter fun a => decide (n + 1 ≤ a.1)
  | [], _ => rfl
  | (k, u) :: m, h => by
    have htail := keysRise_head h
    rw [List.filter_cons, List.filter_cons]
    rcases Nat.lt_trichotomy k n with hlt | rfl | hgt
    · rw [if_neg (by simp; omega), if_neg (by simp; omega), storeKey_filter_ge n v (keysRise_tail h)]
    · rw [if_pos (by simp), if_neg (by simp), storeKey, if_neg (Nat.lt_irrefl k), if_pos rfl, filter_ge_succ htail]
    · rw [if_pos (by simp; omega), if_pos (by simp; omega), storeKey, if_neg (by omega), if_neg (by omega),
        filter_ge_succ fun a ha => hgt.trans (htail a ha)]

end Keys

/-- One more byte of the bulk write is one single-byte write. -/
theorem Mem.writeByte_fillPattern {m : Mem} (h : keysRise m = true) (n : Nat) (c : Sample) :
    (m.fillPattern n c).writeByte n (patternByte c n) = m.fillPattern (n + 1) c := by
  have hbelow : ∀ a ∈ (List.range n).map (fun i => (i, patternByte c i)), a.1 < n := by simp
  rw [Mem.fillPattern, Mem.writeByte, storeKey_append _ hbelow, storeKey_filter_ge _ _ h, Mem.fillPattern, List.range_succ,
    List.map_append, List.append_assoc]
  rfl

/-- Settles O38, by induction on the number of bytes. -/
theorem fillPatternIsTheByteLoop : Obligations.FillPatternIsTheByteLoop := by
  intro m n c h
  induction n with
  | zero => simp [Mem.fillPattern]
  | succ n ih =>
    rw [List.range_succ, List.foldl_append, ← ih, ← Mem.writeByte_fillPattern h]
    rfl

/-- Settles O39: the rules of the single write, the bulk write and the range read. -/
theorem bufferReadsWhatWasWritten : Obligations.BufferReadsWhatWasWritten :=
  ⟨fun _ _ _ _ v h hi => ⟨Mem.wf_writeByte v h hi, Mem.readByte_writeByte (Mem.wf_iff.mp h).1⟩,
    fun _ _ _ c h hn => Mem.wf_fillPattern c h hn, fun _ _ i n h => Mem.readRange_eq n i (Mem.wf_iff.mp h).1⟩

/-! The chunks of a fill. -/

/-- A run of a color starts anew after an even number of its bytes. -/
theorem patternBytes_add {a : Nat} (ha : a % 2 = 0) (c : Sample) (b : Nat) :
    patternBytes c (a + b) = patternBytes c a ++ patternBytes c b := by
  have hshift (i : Nat) : patternByte c (a + i) = patternByte c i := by
    unfold patternByte
    rw [show (a + i) % 2 = i % 2 by omega]
  simp [patternBytes, List.range_add, hshift, Function.comp_def]

/-- The chunks of an even capacity are, one after the other, the whole run of the color (R86). -/
theorem chunkLens_flatMap_patternBytes {cap : Nat} (hcap : capSound cap) (c : Sample) : ∀ fuel rem : Nat, rem ≤ fuel →
    (chunkLens cap fuel rem).flatMap (patternBytes c) = patternBytes c rem
  | 0, rem, h => by
    obtain rfl := Nat.le_zero.mp h
    rfl
  | fuel + 1, rem, h => by
    obtain ⟨heven, hpos⟩ := hcap
    rw [chunkLens]
    split
    · next h0 => rw [h0]; rfl
    · rw [List.flatMap_cons, chunkLens_flatMap_patternBytes ⟨heven, hpos⟩ c fuel _ (by omega)]
      rcases Nat.le_total rem cap with hle | hle
      · rw [Nat.min_eq_left hle, Nat.sub_self]
        exact List.append_nil _
      · rw [Nat.min_eq_right hle, ← patternBytes_add heven, Nat.add_sub_cancel' hle]

/-- The pixel count of a rectangle on the panel gives a fill its bytes, two for each pixel. -/
theorem fillTotal_windowBody {q : Rect} (hq : q.onPanel) (s : State) : fillTotal (windowBody q s) = 2 * (q.w * q.h) := by
  obtain ⟨_, _, _, _, hcount, _⟩ := onPanel_registers hq
  rw [fillTotal, windowBody_winCount, hcount]

/-- The events of a fill of at least one byte: RAMWR, whole buffers, and one last chunk. -/
theorem fillEvents_last {s : State} (hc : 0 < s.cfg.cap) (h : 0 < fillTotal s) (c : Sample) :
    fillEvents c s = .cmd s.cfg.panelCmd.ramwr ::
      (List.replicate ((fillTotal s - 1) / s.cfg.cap) (.data (patternBytes c s.cfg.cap)) ++
        [.data (patternBytes c (fillTotal s - (fillTotal s - 1) / s.cfg.cap * s.cfg.cap))]) := by
  rw [fillEvents_eq, fillChunks_last hc h, List.map_append, List.map_replicate]
  rfl

/-- Under an even capacity every chunk is even (R87). -/
theorem fillChunks_even {s : State} (hc : capSound s.cfg.cap) : ∀ k ∈ fillChunks s, k % 2 = 0 := by
  intro k hk
  obtain ⟨heven, hpos⟩ := hc
  rcases Nat.eq_zero_or_pos (fillTotal s) with h0 | h0
  · simp [fillChunks, h0, chunkLens] at hk
  · have hq : (fillTotal s - 1) / s.cfg.cap * s.cfg.cap % 2 = 0 := by rw [Nat.mul_mod, heven]; simp
    rw [fillChunks_last (by omega) h0, List.mem_append, List.mem_replicate, List.mem_singleton] at hk
    rcases hk with ⟨_, rfl⟩ | rfl
    · exact heven
    · unfold fillTotal at *
      omega

/-- Settles O40: the chunks are those of `fillChunks`, all CAP long but the last. -/
theorem fillChunksAreEvenPrefixes : Obligations.FillChunksAreEvenPrefixes := by
  intro c s t hc ht
  obtain ⟨_, rfl⟩ := fillBody_eq_next.mp ht
  have hcap : 0 < s.cfg.cap := by have := hc.2; omega
  refine ⟨fillChunks s, by rw [filled_trace, fillEvents_eq], chunkLens_length hcap _, chunkLens_sum hcap _ _ (Nat.le_refl _),
    fun k hk => ?bounds, ?whole⟩
  case bounds =>
    have heven := fillChunks_even hc k hk
    have hpos := fillChunks_pos hcap k hk
    obtain ⟨htotal, hle⟩ := chunkLens_le _ _ _ _ hk
    exact ⟨heven, by omega, hle, Nat.le_min.mpr ⟨hle, htotal⟩⟩
  case whole =>
    rcases Nat.eq_zero_or_pos (fillTotal s) with h0 | h0
    · simp [fillChunks, h0, chunkLens]
    · rw [fillChunks_last hcap h0]
      refine ⟨fun j hj => ?_, fun _ => ?_⟩
      · have hj' : j < (fillTotal s - 1) / s.cfg.cap := by simpa using hj
        rw [List.getElem?_append_left (by simpa using hj'), List.getElem?_replicate, if_pos hj']
      · rw [List.getLast?_concat, List.length_append, List.length_replicate]
        rfl

/-- The bytes of a fill of a window are the color, once for every pixel (R86). -/
theorem fillEvents_windowBody {r : Rect} (hr : r.onPanel) {s : State} (hc : capSound s.cfg.cap) (c : Sample) :
    ∃ parts : List (List Byte), fillEvents c (windowBody r s) = .cmd s.cfg.panelCmd.ramwr :: parts.map .data ∧
      parts.flatten = samplePairs c (r.w * r.h) := by
  refine ⟨(fillChunks (windowBody r s)).map (patternBytes c), ?_, ?_⟩
  · rw [fillEvents_eq, List.map_map]
    rfl
  · rw [← List.flatMap_def, ← patternBytes_two_mul, ← fillTotal_windowBody hr s]
    exact chunkLens_flatMap_patternBytes (cap := s.cfg.cap) hc c _ _ (Nat.le_refl _)

/-- Settles O41: the chunks are the whole run, which is the color's two bytes for each pixel. -/
theorem fillSendsTheColorForEveryPixel : Obligations.FillSendsTheColorForEveryPixel := by
  intro c r s t hr hc ht
  obtain ⟨_, rfl⟩ := fillBody_eq_next.mp ht
  obtain ⟨parts, hfill, hflatten⟩ := fillEvents_windowBody hr hc c
  have hbytes : (parts.map Event.data).flatMap Event.bytes = samplePairs c (r.w * r.h) := by
    rw [← hflatten, List.flatMap_map]
    exact List.flatMap_id'
  refine ⟨parts.map .data, by rw [filled_trace, hfill], hbytes, ?_⟩
  rw [hbytes, ← patternBytes_two_mul, patternBytes_length, Nat.mul_assoc]

end Sys2Proof.Machine
end

section
/-! PROOFS. Window and fill: SET_WINDOW, FILL and DRAW_RECT as whole next states, and the number of events of each operation
(R81, R84, R85, R117, R118, R124). -/

namespace Sys2Proof.Machine

/-- Settles O36: SET_WINDOW's checks pass and its effect is WindowBody. -/
theorem setWindowProgramsTheWindow : Obligations.SetWindowProgramsTheWindow := by
  intro s x y w h r hf ha ho hr
  rw [exec_done hf (ownResult_setWindow_ok_iff.mpr ⟨ha, ho, hr.rectResult⟩) ⟨r, hr, rfl⟩, finish_ok]
  rfl

/-- Settles O42: FILL's checks pass and its effect is FillBody. -/
theorem fillStreamsTheWindow : Obligations.FillStreamsTheWindow := by
  intro s c hf ha ho hv hc hcount
  have hcap : 0 < s.cfg.cap := by have := hc.2; omega
  have htotal : 0 < fillTotal s := by unfold fillTotal; omega
  rw [exec_done hf (ownResult_fill_ok_iff.mpr ⟨ha, ho, hv⟩) ⟨fun h => by omega, rfl⟩, finish_ok, filled, emit,
    applyAll_fillEvents _ _ _ _ hcap htotal, fillEvents_last hcap htotal]
  rfl

/-- Settles O43: DRAW_RECT's checks pass and its effect is a window and a fill in a bracket. -/
theorem drawRectDrawsInItsOwnBracket : Obligations.DrawRectDrawsInItsOwnBracket := by
  intro s x y w h c r hf ha ho hc hr
  have hcap : 0 < s.cfg.cap := by have := hc.2; omega
  obtain ⟨_, _, _, _, _, hpixels, _⟩ := onPanel_registers hr.onPanel
  have htotal := fillTotal_windowBody hr.onPanel (openTxn s)
  have hpos : 0 < fillTotal (windowBody r (openTxn s)) := by omega
  have heffect : Effect (.drawRect x y w h c) s (closeTxn (filled c (windowBody r (openTxn s)))) :=
    ⟨r, hr, fun h => by have : s.cfg.cap = 0 := h.1; omega, rfl⟩
  rw [exec_done hf (ownResult_drawRect_ok_iff.mpr ⟨ha, ho, hr.rectResult⟩) heffect, finish_ok, drawn_eq,
    closeTxn_devices, filled_devices, applyAll_fillEvents _ _ (windowBody r (openTxn s)) _ hcap hpos,
    fillEvents_last (s := windowBody r (openTxn s)) hcap hpos, filledBuf, htotal]
  simp only [openTxn_trace, windowEvents, List.append_assoc, List.cons_append, List.nil_append]
  rfl

/-- Settles O44: a success of FILL or TXN_END leaves the phase ACTIVE and FATAL at 0, so that the FILL after it reaches the
check of the window or of the bracket. -/
theorem windowIsConsumedByItsFill : Obligations.WindowIsConsumedByItsFill := by
  refine ⟨fun s t u c c' h ht hu => ?_, fun s t u c h ht hu => ?_⟩
  · obtain ⟨hf, ho, v, ⟨_, rfl⟩, rfl⟩ := exec_ok h ht
    obtain ⟨ha, hopen, _⟩ := ownResult_fill_ok_iff.mp ho
    have hown : ownResult (.fill c') (finish .ok (filled c s)) = .eNoWindow := by simp [ownResult, ha, hopen]
    have hrejected := exec_rejected_eq (s := finish .ok (filled c s)) hf hown (by decide) (by decide) (by decide)
    obtain rfl := Host.Outcome.next.inj (hrejected.symm.trans hu)
    exact ⟨rfl, rfl⟩
  · obtain ⟨hf, ho, v, rfl, rfl⟩ := exec_ok h ht
    obtain ⟨ha, hopen⟩ := ownResult_txnEnd_ok_iff.mp ho
    have hown : ownResult (.fill c) (finish .ok { closeTxn s with winValid := false }) = .eNoTxn := by simp [ownResult, ha]
    have hrejected := exec_rejected_eq (s := finish .ok { closeTxn s with winValid := false }) hf hown (by decide)
      (by decide) (by decide)
    obtain rfl := Host.Outcome.next.inj (hrejected.symm.trans hu)
    exact ⟨rfl, rfl, rfl⟩

end Sys2Proof.Machine
end

section
/-! PROOFS. What every operation leaves: the window registers on the panel, the number of events, the frames, and that no
operation reads the buffer's old bytes, the panel or the lines (R31, R36, R82, R87, R103, R124). -/

namespace Sys2Proof.Machine

/-! The window registers (R29, R82). -/

/-- The window registers hold a rectangle on the panel and its pixel count. -/
def State.WindowOnPanel (s : State) : Prop :=
  s.winX.toNat + s.winW.toNat ≤ 240 ∧ s.winY.toNat + s.winH.toNat ≤ 240 ∧
    s.winCount.toNat = s.winW.toNat * s.winH.toNat

/-- What WindowBody records of a rectangle on the panel is that rectangle. -/
theorem windowBody_windowOnPanel {q : Rect} (hq : q.onPanel) (s : State) : (windowBody q s).WindowOnPanel := by
  obtain ⟨hx, hy, hw, hh, hcount, _, hwx, hhy⟩ := onPanel_registers hq
  rw [State.WindowOnPanel, windowBody_winX, windowBody_winY, windowBody_winW, windowBody_winH, windowBody_winCount, hx, hy, hw,
    hh, hcount]
  exact ⟨hwx, hhy, rfl⟩

/-- An effect records no window but by WindowBody. -/
theorem Effect.windowOnPanel {i : Instr} {s u : State} (he : Effect i s u) (h : s.WindowOnPanel) : u.WindowOnPanel := by
  cases i with
  | nop => exact he ▸ h
  | init => exact he ▸ windowBody_windowOnPanel full_onPanel (initBringUp s)
  | txnBegin => exact he ▸ h
  | txnEnd => exact he ▸ h
  | setWindow x y w g => obtain ⟨q, hq, rfl⟩ := he; exact windowBody_windowOnPanel hq.onPanel s
  | fill c => obtain ⟨_, rfl⟩ := he; exact h
  | drawRect x y w g c => obtain ⟨q, hq, _, rfl⟩ := he; exact windowBody_windowOnPanel hq.onPanel (openTxn s)

/-- Settles O37: a rejection and the moves between operations keep the registers, and an effect records a rectangle on the
panel. -/
theorem noWindowEverLeavesThePanel : Obligations.NoWindowEverLeavesThePanel := by
  intro s t h hstep
  cases hb : s.busy
  · rw [(step_idleMove hb hstep).frame]
    exact h
  · cases step_ends hb hstep with
    | rejected r _ ht => exact ht ▸ h
    | done i u _ _ _ he ht => exact ht ▸ he.windowOnPanel h

/-! The number of events (R124). -/

theorem fillEvents_length {s : State} (hc : 0 < s.cfg.cap) (c : Sample) :
    (fillEvents c s).length = 1 + chunkCount s.cfg.cap (fillTotal s) := by
  rw [fillEvents_eq, List.length_cons, List.length_map, fillChunks, chunkLens_length hc, Nat.add_comm]

theorem windowEvents_length (c : Config) (q : Rect) : (windowEvents c q).length = 4 := rfl

/-- A command with parameters is two events. -/
theorem sendCmdEvents_length_params {c : Config} {n : PanelCmd} (h : c.initParams.bytes n ≠ []) :
    (sendCmdEvents c n).length = 2 := by rw [sendCmdEvents_params h]; rfl

/-- Commands with parameters are two events each. -/
theorem sendCmds_length {c : Config} {ns : List PanelCmd} (h : ∀ n ∈ ns, c.initParams.bytes n ≠ []) :
    (ns.flatMap (sendCmdEvents c)).length = 2 * ns.length := by
  induction ns with
  | nil => rfl
  | cons n ns ih =>
    rw [List.flatMap_cons, List.length_append, ih fun m hm => h m (by simp [hm]), sendCmdEvents_length_params (h n (by simp)),
      List.length_cons]
    omega

/-- INIT's events, for non-empty parameters of the 13 configuration commands: a well-formed configuration has none for
INVON, SLPOUT and DISPON. -/
theorem initEvents_length {c : Config} (hw : c.wf = true) (hc : 0 < c.cap)
    (hp : ∀ n ∈ configCommands, c.initParams.bytes n ≠ []) : (initEvents c).length = 51 + chunkCount c.cap 115200 := by
  obtain ⟨_, _, ⟨_, _, _, _, _, hinvon, hslpout, hdispon⟩, _⟩ := (Config.wf_iff c).mp hw
  have hconfig : (configCommands.flatMap (sendCmdEvents c)).length = 26 := sendCmds_length hp
  rw [initEvents, bringUpEvents, List.flatMap_append, List.flatMap_singleton, sendCmdEvents_noParams (n := .invon) hinvon,
    sendCmdEvents_noParams (n := .slpout) hslpout, sendCmdEvents_noParams (n := .dispon) hdispon, clearEvents]
  simp only [List.length_append, hconfig, windowEvents_length, List.length_cons, List.length_nil, List.length_map,
    chunkLens_length hc, lineSetupEvents, resetPulseEvents]
  omega

/-- Settles O45: each effect's events are counted part by part. -/
theorem traceLengthOfEachOperation : Obligations.TraceLengthOfEachOperation := by
  intro s t i hw hc h ht
  obtain ⟨_, _, u, he, rfl⟩ := exec_ok h ht
  have hcap : 0 < s.cfg.cap := by have := hc.2; omega
  cases i with
  | nop => exact he ▸ rfl
  | init =>
    intro hp
    subst he
    rw [finish_trace, ← initDone, initDone_trace, List.length_append, initEvents_length hw hcap hp]
  | txnBegin => subst he; simp
  | txnEnd => subst he; simp
  | setWindow x y w g => obtain ⟨q, _, rfl⟩ := he; simp [windowEvents_length]
  | fill c =>
    obtain ⟨_, rfl⟩ := he
    rw [finish_trace, filled_trace, List.length_append, fillEvents_length hcap, fillTotal]
  | drawRect x y w g c =>
    obtain ⟨q, hq, _, rfl⟩ := he
    obtain ⟨_, _, hqw, hqh, _⟩ := onPanel_registers hq.onPanel
    refine ⟨_, _, rfl, rfl, ?_⟩
    simp only [finish_trace, closeTxn_trace, filled_trace, windowBody_trace, openTxn_trace, List.length_append,
      windowEvents_length, fillEvents_length (s := windowBody q (openTxn s)) hcap, fillTotal_windowBody hq.onPanel,
      List.length_singleton, finish_winW, finish_winH, closeTxn_winW, closeTxn_winH, filled_winW, filled_winH,
      windowBody_winW, windowBody_winH, hqw, hqh, windowBody_cfg, openTxn_cfg, Nat.mul_assoc]
    omega

/-! Frames. -/

/-- An operation other than INIT sets FATAL only by its rectangle check. -/
theorem exec_fatal {i : Instr} {s t : State} (h : exec i s = .next t) (hi : i ≠ .init)
    (hb : ownResult i s ≠ .eBounds) : t.fatal = s.fatal := by
  rcases exec_eq_next.mp h with ⟨_, rfl⟩ | ⟨_, _, rfl⟩ | ⟨_, _, u, hu, rfl⟩
  · rfl
  · rw [blame_eq_self s (fun hc => hi (ownResult_eConfig hc)) hb, finish_fatal]
  · obtain ⟨_, hfatal, _⟩ := hu.keeps
    exact hfatal

theorem exec_fill_fatal {c : Sample} {s t : State} (h : exec (.fill c) s = .next t) : t.fatal = s.fatal :=
  exec_fatal h nofun (by unfold ownResult; split_ifs <;> exact nofun)

/-- WindowBody's transfers end in data mode and move no other line. -/
theorem applyAll_windowEvents (b : Bool) (c : Config) (q : Rect) (d : Devices) :
    d.applyAll b (windowEvents c q) = { d with dc := { d.dc with level := !b } } := rfl

/-- A fill moves no line but data-select. -/
theorem filled_lines (c : Sample) (s : State) :
    ∃ v, (filled c s).devices = { s.devices with dc := { s.devices.dc with level := v } } :=
  fillEvents_lines s.cfg.wire.dcCommand c s s.devices

/-- What the buffer reads as after a fill. -/
theorem filledBuf_readByte (c : Sample) (s : State) (k : Nat) :
    (filledBuf c s).readByte k =
      if k < min s.cfg.cap (2 * s.winCount.toNat) then patternByte c k else s.buf.readByte k :=
  Mem.readByte_fillPattern _ _ _ _

/-- Settles O46: a rejection is the status update alone, FATAL apart; the four effects store nothing. -/
theorem frameOfOperationsThatStoreNothing : Obligations.FrameOfOperationsThatStoreNothing := by
  intro s t i h hi
  have hfatal : i = .nop ∨ i = .txnBegin ∨ i = .txnEnd → t.fatal = s.fatal := by
    rintro (rfl | rfl | rfl)
    · exact exec_fatal h nofun nofun
    · exact exec_fatal h nofun (by unfold ownResult; split_ifs <;> exact nofun)
    · exact exec_fatal h nofun (by unfold ownResult; split_ifs <;> exact nofun)
  rcases exec_cases h with ⟨_, ht⟩ | ⟨_, _, _, u, he, rfl⟩
  · generalize t.lastResult = r at ht
    subst ht
    exact ⟨fun _ => rfl, rfl, rfl, rfl, rfl, rfl, rfl, rfl, rfl, fun hi => ⟨rfl, rfl, rfl, rfl, rfl, hfatal hi, rfl⟩,
      fun _ => ⟨rfl, rfl, rfl, rfl⟩, fun _ => rfl, fun _ => ⟨rfl, rfl⟩⟩
  · rcases hi with rfl | rfl | rfl | ⟨x, y, w, g, rfl⟩
    · subst he; simp
    · subst he; simp [Devices.drive, Devices.setLine, Devices.line]
    · subst he; simp [Devices.drive, Devices.setLine, Devices.line]
    · obtain ⟨q, _, rfl⟩ := he; simp [applyAll_windowEvents]

/-- Settles O47: a rejection is the status update alone, FATAL apart; each of the three effects writes the buffer by one
fill. -/
theorem frameOfOperationsThatFill : Obligations.FrameOfOperationsThatFill := by
  intro s t i h hi
  have hfatal : (∃ c, i = .fill c) → t.fatal = s.fatal := by
    rintro ⟨c, rfl⟩
    exact exec_fill_fatal h
  rcases exec_cases h with ⟨hr, ht⟩ | ⟨_, _, _, u, he, rfl⟩
  · generalize t.lastResult = r at hr ht
    subst ht
    exact ⟨rfl, rfl, rfl, fun _ _ => rfl, fun hok => absurd hok hr,
      fun hi => ⟨rfl, rfl, rfl, rfl, rfl, rfl, hfatal hi, rfl, rfl⟩, fun _ => ⟨rfl, rfl, rfl, rfl⟩⟩
  · rcases hi with rfl | ⟨c, rfl⟩ | ⟨x, y, w, g, c, rfl⟩
    · subst he
      rw [← initDone]
      simp [Mem.readByte_fillPattern, patternByte_black]
    · obtain ⟨_, rfl⟩ := he
      obtain ⟨v, hv⟩ := filled_lines c s
      simp [filledBuf_readByte, hv, -filled_devices]
    · obtain ⟨q, _, _, rfl⟩ := he
      obtain ⟨v, hv⟩ := filled_lines c (windowBody q (openTxn s))
      simp [filledBuf_readByte, hv, -filled_devices, applyAll_windowEvents, Devices.drive, Devices.setLine, Devices.line]

/-! What no operation reads (R31, R36, R37, R87). -/

/-- A state with another buffer, panel and lines. -/
def State.withUnread (s : State) (b : Mem) (p : Panel) (d : Devices) : State := { s with buf := b, panel := p, devices := d }

/-- An update keeps the panel, makes the buffer from the buffer and the lines from the lines, and reads none of the three for
anything else. -/
def ReadsNoUnread (f : State → State) : Prop :=
  ∀ s, ∃ (B : Mem → Mem) (D : Devices → Devices), ∀ b p d, f (s.withUnread b p d) = (f s).withUnread (B b) p (D d)

theorem ReadsNoUnread.comp {f g : State → State} (hg : ReadsNoUnread g) (hf : ReadsNoUnread f) : ReadsNoUnread (g ∘ f) := by
  intro s
  obtain ⟨B, D, hBD⟩ := hf s
  obtain ⟨B', D', hBD'⟩ := hg (f s)
  refine ⟨B' ∘ B, D' ∘ D, fun b p d => ?_⟩
  rw [Function.comp_apply, hBD, hBD']
  rfl

theorem id_readsNoUnread : ReadsNoUnread id := fun _ => ⟨id, id, fun _ _ _ => rfl⟩

theorem openTxn_readsNoUnread : ReadsNoUnread openTxn := fun _ => ⟨id, (·.drive .cs false), fun _ _ _ => rfl⟩

theorem closeTxn_readsNoUnread : ReadsNoUnread closeTxn := fun _ => ⟨id, (·.drive .cs true), fun _ _ _ => rfl⟩

theorem noWindow_readsNoUnread : ReadsNoUnread fun s => { s with winValid := false } := fun _ => ⟨id, id, fun _ _ _ => rfl⟩

theorem windowBody_readsNoUnread (q : Rect) : ReadsNoUnread (windowBody q) := fun s =>
  ⟨id, (·.applyAll s.cfg.wire.dcCommand (windowEvents s.cfg q)), fun _ _ _ => rfl⟩

theorem fillEvents_withUnread (c : Sample) (s : State) (b : Mem) (p : Panel) (d : Devices) :
    fillEvents c (s.withUnread b p d) = fillEvents c s := by
  rw [fillEvents_eq, fillEvents_eq]
  rfl

/-- The fill engine overwrites the bytes it sends before it reads them (R87). -/
theorem filled_readsNoUnread (c : Sample) : ReadsNoUnread (filled c) := by
  intro s
  refine ⟨(·.fillPattern (min s.cfg.cap (fillTotal s)) c), (·.applyAll s.cfg.wire.dcCommand (fillEvents c s)), fun b p d => ?_⟩
  rw [filled, fillEvents_withUnread]
  rfl

/-- The lines after the bring-up are what its events make of them. -/
theorem initBringUp_devices_eq (s : State) :
    (initBringUp s).devices = s.devices.applyAll s.cfg.wire.dcCommand (bringUpEvents s.cfg) := by
  simp only [initBringUp, initWake, initConfigure, initReset, emit_devices, sendCmd_devices, sendCmds_devices,
    openTxn_devices, bringUpEvents, List.flatMap_append, List.flatMap_singleton, applyAll_append]
  rfl

theorem initBringUp_readsNoUnread : ReadsNoUnread initBringUp := by
  intro s
  refine ⟨id, (·.applyAll s.cfg.wire.dcCommand (bringUpEvents s.cfg)), fun b p d => ?_⟩
  rw [initBringUp_eq, initBringUp_eq s, initBringUp_devices_eq]
  rfl

theorem finish_blame_readsNoUnread (r : Result) : ReadsNoUnread fun s => finish r (blame r s) := fun _ =>
  ⟨id, id, fun _ _ _ => rfl⟩

theorem finish_readsNoUnread (r : Result) : ReadsNoUnread (finish r) := fun _ => ⟨id, id, fun _ _ _ => rfl⟩

theorem ownResult_withUnread (i : Instr) (s : State) (b : Mem) (p : Panel) (d : Devices) :
    ownResult i (s.withUnread b p d) = ownResult i s := by cases i <;> rfl

/-- The effect of an operation is an update that reads none of the three. -/
theorem Effect.readsNoUnread {i : Instr} {s u : State} (he : Effect i s u) :
    ∃ f, ReadsNoUnread f ∧ ∀ b p d, Effect i (s.withUnread b p d) (f (s.withUnread b p d)) := by
  cases i with
  | nop => exact ⟨id, id_readsNoUnread, fun _ _ _ => rfl⟩
  | init =>
    exact ⟨_, closeTxn_readsNoUnread.comp ((filled_readsNoUnread 0x0000#16).comp
      ((windowBody_readsNoUnread Rect.full).comp initBringUp_readsNoUnread)), fun _ _ _ => rfl⟩
  | txnBegin => exact ⟨openTxn, openTxn_readsNoUnread, fun _ _ _ => rfl⟩
  | txnEnd => exact ⟨_, noWindow_readsNoUnread.comp closeTxn_readsNoUnread, fun _ _ _ => rfl⟩
  | setWindow x y w g =>
    obtain ⟨q, hq, _⟩ := he
    exact ⟨windowBody q, windowBody_readsNoUnread q, fun _ _ _ => ⟨q, hq, rfl⟩⟩
  | fill c =>
    obtain ⟨hends, _⟩ := he
    exact ⟨filled c, filled_readsNoUnread c, fun _ _ _ => ⟨hends, rfl⟩⟩
  | drawRect x y w g c =>
    obtain ⟨q, hq, hends, _⟩ := he
    exact ⟨_, closeTxn_readsNoUnread.comp ((filled_readsNoUnread c).comp
      ((windowBody_readsNoUnread q).comp openTxn_readsNoUnread)), fun _ _ _ => ⟨q, hq, hends, rfl⟩⟩

/-- So is a whole operation: E_FATAL, a rejection or its effect. -/
theorem exec_readsNoUnread {i : Instr} {s t : State} (h : exec i s = .next t) :
    ∃ f, ReadsNoUnread f ∧ ∀ b p d, exec i (s.withUnread b p d) = .next (f (s.withUnread b p d)) := by
  rcases exec_eq_next.mp h with ⟨hf, _⟩ | ⟨hf, hr, _⟩ | ⟨hf, ho, u, he, _⟩
  · exact ⟨finish .eFatal, finish_readsNoUnread _, fun _ _ _ => exec_eq_next.mpr (.inl ⟨hf, rfl⟩)⟩
  · refine ⟨_, finish_blame_readsNoUnread (ownResult i s), fun b p d => ?_⟩
    rw [exec_rejected (s := s.withUnread b p d) hf (by rwa [ownResult_withUnread]), ownResult_withUnread]
  · obtain ⟨f, hread, heffect⟩ := he.readsNoUnread
    exact ⟨_, (finish_readsNoUnread .ok).comp hread,
      fun b p d => exec_done (s := s.withUnread b p d) hf (by rwa [ownResult_withUnread]) (heffect b p d)⟩

/-- An operation with another buffer, panel and lines: the same outcome, but for the buffer and the lines, and for the panel
that it was given. -/
theorem exec_withUnread {i : Instr} {s t : State} (h : exec i s = .next t) :
    ∃ (B : Mem → Mem) (D : Devices → Devices), B s.buf = t.buf ∧ t.panel = s.panel ∧ D s.devices = t.devices ∧
      ∀ b p d, exec i (s.withUnread b p d) = .next (t.withUnread (B b) p (D d)) := by
  obtain ⟨f, hread, hexec⟩ := exec_readsNoUnread h
  obtain rfl : f s = t := Host.Outcome.next.inj ((hexec s.buf s.panel s.devices).symm.trans h)
  obtain ⟨B, D, hBD⟩ := hread s
  have hself : f s = (f s).withUnread (B s.buf) s.panel (D s.devices) := hBD s.buf s.panel s.devices
  exact ⟨B, D, (congrArg State.buf hself).symm, (congrArg State.panel hself).trans rfl, (congrArg State.devices hself).symm,
    fun b p d => (hexec b p d).trans (congrArg _ (hBD b p d))⟩

/-- Settles O48: another buffer is one of the parts no operation reads. -/
theorem oldBufferIsNeverObservable : Obligations.OldBufferIsNeverObservable := by
  intro i s t b h
  obtain ⟨B, D, _, hpanel, hdevices, hexec⟩ := exec_withUnread h
  refine ⟨B b, (hexec b s.panel s.devices).trans ?_⟩
  rw [hdevices, ← hpanel]
  rfl

/-- Settles O49: the panel and the lines are parts no operation reads. -/
theorem panelAndLinesAreNeverRead : Obligations.PanelAndLinesAreNeverRead := by
  intro i s t p d h
  obtain ⟨B, D, hbuf, hpanel, hdevices, hexec⟩ := exec_withUnread h
  refine ⟨(hexec s.buf p s.devices).trans ?_, D d, (hexec s.buf s.panel d).trans ?_⟩
  · rw [hbuf, hdevices]
    rfl
  · rw [hbuf, ← hpanel]
    rfl

end Sys2Proof.Machine
end

section
/-! PROOFS. The reference observer (R56 to R59): the four bytes of a window command, and the samples of a fill, one by one. -/

namespace Sys2Proof.Machine

namespace Panel
variable (t : PanelCodes) (p : Panel)

/-! Events and bytes. -/

@[simp] theorem observeAll_nil : p.observeAll t [] = p := rfl

@[simp] theorem observeAll_cons (e : Event) (es : List Event) :
    p.observeAll t (e :: es) = (p.observe t e).observeAll t es := rfl

theorem observe_data (bs : List Byte) : p.observe t (.data bs) = bs.foldl (Panel.dataByte t) p := rfl

theorem observeAll_append (es fs : List Event) : p.observeAll t (es ++ fs) = (p.observeAll t es).observeAll t fs :=
  List.foldl_append

/-- `Data` events are their bytes, however they are split (R57, R58). -/
theorem observeAll_data (parts : List (List Byte)) :
    p.observeAll t (parts.map .data) = parts.flatten.foldl (Panel.dataByte t) p := by
  induction parts generalizing p with
  | nil => rfl
  | cons bs parts ih =>
    rw [List.map_cons, observeAll_cons, ih, List.flatten_cons, List.foldl_append]
    rfl

variable {t}

/-! Window commands (R57). -/

/-- CASET and four data bytes set XS and XE, and nothing else but the bytes received. -/
theorem observe_caset (hc : t.caset ≠ t.ramwr) (a b c d : Byte) :
    [a, b, c, d].foldl (Panel.dataByte t) (p.observe t (.cmd t.caset)) =
      { p with current := some t.caset, args := [a, b, c, d], latch := none, xs := a ++ b, xe := c ++ d } := by
  simp [Panel.observe, Panel.command, hc, Panel.startCommand, Panel.dataByte, Panel.columnByte, Panel.argByte, windowValues]

/-- RASET and four data bytes set YS and YE, and nothing else but the bytes received. -/
theorem observe_raset (hr : t.raset ≠ t.ramwr) (hrc : t.raset ≠ t.caset) (a b c d : Byte) :
    [a, b, c, d].foldl (Panel.dataByte t) (p.observe t (.cmd t.raset)) =
      { p with current := some t.raset, args := [a, b, c, d], latch := none, ys := a ++ b, ye := c ++ d } := by
  simp [Panel.observe, Panel.command, hr, hrc, Panel.startCommand, Panel.dataByte, Panel.rowByte, Panel.argByte,
    windowValues]

end Panel

/-- Settles O53: the parts are their four bytes in a row. -/
theorem observerTakesWindowBytes : Obligations.ObserverTakesWindowBytes := by
  intro t p a b c d parts hparts hc hr hrc
  simp only [Panel.observeAll_cons, Panel.observeAll_data, hparts, Panel.observe_caset p hc, Panel.observe_raset p hr hrc,
    and_self]

/-! A fill (R58, R59). -/

/-- The panel in the middle of a fill of the window `r` with the color `c`, after `k` samples: the pointer is at sample `k`,
in reading order, and frame memory holds the color in the window's samples before it and what `p` held elsewhere. -/
structure Panel.Filling (t : PanelCodes) (p : Panel) (r : Rect) (c : Sample) (k : Nat) (q : Panel) : Prop where
  current : q.current = some t.ramwr
  latch : q.latch = none
  xs : q.xs.toNat = r.x
  xe : q.xe.toNat = r.x + r.w - 1
  ye : q.ye.toNat = r.y + r.h - 1
  pc : q.pc = r.x + k % r.w
  pr : q.pr = r.y + k / r.w
  epoch : q.epoch = p.epoch
  keys : keysRise q.fm = true
  samples : ∀ col row, col < 240 → row < 240 → lookupKey (pixelKey col row) q.fm =
    if r.x ≤ col ∧ col < r.x + r.w ∧ r.y ≤ row ∧ (row - r.y) * r.w + (col - r.x) < k then some c
    else lookupKey (pixelKey col row) p.fm

/-- A pixel's key is its own. -/
theorem pixelKey_inj {col row col' row' : Nat} (h : col < 240) (h' : col' < 240) :
    pixelKey col row = pixelKey col' row' ↔ col = col' ∧ row = row' := by
  simp only [pixelKey, Config.panelW]
  omega

namespace Panel

/-- WindowBody's events set the four window registers (R44, R57). -/
theorem observeAll_windowEvents (p : Panel) {cfg : Config} (hc : cfg.panelCmd.caset ≠ cfg.panelCmd.ramwr)
    (hr : cfg.panelCmd.raset ≠ cfg.panelCmd.ramwr) (hrc : cfg.panelCmd.raset ≠ cfg.panelCmd.caset) (r : Rect) :
    p.observeAll cfg.panelCmd (windowEvents cfg r) = { p with
      current := some cfg.panelCmd.raset, args := windowParams r.y (r.y + r.h - 1), latch := none,
      xs := 0x00#8 ++ addrByte r.x, xe := 0x00#8 ++ addrByte (r.x + r.w - 1),
      ys := 0x00#8 ++ addrByte r.y, ye := 0x00#8 ++ addrByte (r.y + r.h - 1) } := by
  simp only [windowEvents, windowParams, PanelCodes.code, observeAll_cons, observeAll_nil, observe_data, observe_caset _ hc,
    observe_raset _ hr hrc]

/-- RAMWR sets the pointer to the window's start (R58). -/
theorem observe_ramwr (t : PanelCodes) (p : Panel) : p.observe t (.cmd t.ramwr) =
    { p with current := some t.ramwr, args := [], latch := none, pc := p.xs.toNat, pr := p.ys.toNat } := by
  simp [Panel.observe, Panel.command, Panel.startCommand]

end Panel

/-- A window and RAMWR set the observer up for a fill: it has taken no sample yet. -/
theorem Panel.filling_start (p : Panel) {r : Rect} (hr : r.onPanel) (c : Sample) (hk : keysRise p.fm = true) {cfg : Config}
    (h1 : cfg.panelCmd.caset ≠ cfg.panelCmd.ramwr) (h2 : cfg.panelCmd.raset ≠ cfg.panelCmd.ramwr)
    (h3 : cfg.panelCmd.raset ≠ cfg.panelCmd.caset) :
    Panel.Filling cfg.panelCmd p r c 0
      ((p.observeAll cfg.panelCmd (windowEvents cfg r)).observe cfg.panelCmd (.cmd cfg.panelCmd.ramwr)) := by
  obtain ⟨_, _, _, _, _, _, hx, hy⟩ := onPanel_registers hr
  obtain ⟨hxe, hye⟩ := onPanel_lastAddresses hr
  obtain ⟨hw, hh, _⟩ := hr
  have hxs : (0x00#8 ++ addrByte r.x : BitVec 16).toNat = r.x := by rw [zeroByte_append_toNat, addrByte_toNat (by omega)]
  have hys : (0x00#8 ++ addrByte r.y : BitVec 16).toNat = r.y := by rw [zeroByte_append_toNat, addrByte_toNat (by omega)]
  rw [Panel.observeAll_windowEvents p h1 h2 h3, Panel.observe_ramwr]
  exact {
    current := rfl
    latch := rfl
    xs := hxs
    xe := (zeroByte_append_toNat _).trans hxe
    ye := (zeroByte_append_toNat _).trans hye
    pc := by simpa using hxs
    pr := by simpa using hys
    epoch := rfl
    keys := hk
    samples := fun col row _ _ => by simp }

/-- The two bytes of a sample, high byte first, are the sample (R43). -/
theorem sampleHigh_append_sampleLow (c : Sample) : (sampleHigh c ++ sampleLow c : BitVec 16) = c := by
  unfold sampleHigh sampleLow
  ext i hi
  simp
  grind

/-- Under RAMWR, with no byte waiting, two bytes are one sample (R58). -/
theorem Panel.dataByte_sample {t : PanelCodes} {q : Panel} (hcur : q.current = some t.ramwr) (hlatch : q.latch = none)
    (c : Sample) : [sampleHigh c, sampleLow c].foldl (Panel.dataByte t) q = q.writeSample c := by
  have hq : ({ q with current := some t.ramwr, latch := none } : Panel) = q := by rw [← hcur, ← hlatch]
  simp only [List.foldl_cons, List.foldl_nil, Panel.dataByte, hcur, Panel.pixelByte, hlatch, sampleHigh_append_sampleLow,
    if_true]
  exact congrArg (·.writeSample c) hq

/-- Reading order: from sample `k` to the next, in the same row or at the start of the row below. -/
theorem next_in_rows {w : Nat} (hw : 1 ≤ w) (k : Nat) :
    (k % w + 1 = w ∧ (k + 1) % w = 0 ∧ (k + 1) / w = k / w + 1) ∨
    (k % w + 1 < w ∧ (k + 1) % w = k % w + 1 ∧ (k + 1) / w = k / w) := by
  have hk := Nat.mod_add_div k w
  rcases Nat.lt_or_ge (k % w + 1) w with hlt | hge
  · obtain ⟨hdiv, hmod⟩ := (Nat.div_mod_unique (a := k + 1) (d := k / w) (c := k % w + 1) hw).mpr ⟨by omega, hlt⟩
    exact .inr ⟨hlt, hmod, hdiv⟩
  · have hlast : k % w + 1 = w := by have := Nat.mod_lt k hw; omega
    obtain ⟨hdiv, hmod⟩ := (Nat.div_mod_unique (a := k + 1) (d := k / w + 1) (c := 0) hw).mpr
      ⟨by rw [Nat.mul_add]; omega, hw⟩
    exact .inl ⟨hlast, hmod, hdiv⟩

/-- Sample `k` of a window of width `w` stands in column `k % w` and row `k / w`, and no other does. -/
theorem index_eq_iff {w k col row : Nat} (hcol : col < w) : row * w + col = k ↔ col = k % w ∧ row = k / w := by
  have h := Nat.div_mod_unique (a := k) (d := row) (c := col) (b := w) (by omega)
  rw [Nat.mul_comm, Nat.add_comm]
  constructor
  · intro hk
    obtain ⟨hdiv, hmod⟩ := h.mpr ⟨hk, hcol⟩
    exact ⟨hmod.symm, hdiv.symm⟩
  · rintro ⟨hmod, hdiv⟩
    exact (h.mp ⟨hdiv.symm, hmod.symm⟩).1

/-- The color stored at the pointer's pixel is in the window's samples up to and with sample `k`. -/
theorem Panel.Filling.samples_next {t : PanelCodes} {p q : Panel} {r : Rect} {c : Sample} {k : Nat} (hr : r.onPanel)
    (h : Panel.Filling t p r c k q) {col row : Nat} (hcol : col < 240) (hrow : row < 240) :
    lookupKey (pixelKey col row) (storeKey (pixelKey q.pc q.pr) c q.fm) =
      if r.x ≤ col ∧ col < r.x + r.w ∧ r.y ≤ row ∧ (row - r.y) * r.w + (col - r.x) < k + 1 then some c
      else lookupKey (pixelKey col row) p.fm := by
  obtain ⟨hw, _, hx, _⟩ := hr
  simp only [Config.panelW] at hx
  have hpc : k % r.w < r.w := Nat.mod_lt k hw
  rw [lookupKey_storeKey _ _ _ h.keys, h.samples col row hcol hrow, h.pc, h.pr]
  simp only [pixelKey_inj (row := row) (row' := r.y + k / r.w) hcol (show r.x + k % r.w < 240 by omega)]
  by_cases hin : r.x ≤ col ∧ col < r.x + r.w ∧ r.y ≤ row
  · have hindex := index_eq_iff (w := r.w) (k := k) (col := col - r.x) (row := row - r.y) (by omega)
    have hpointer : (col = r.x + k % r.w ∧ row = r.y + k / r.w) ↔ (row - r.y) * r.w + (col - r.x) = k := by
      rw [hindex]
      omega
    simp only [hin, true_and, hpointer]
    by_cases hk : (row - r.y) * r.w + (col - r.x) = k
    · rw [if_pos hk, if_pos (by omega)]
    · simp only [hk, if_false, Nat.lt_succ_iff_lt_or_eq, or_false]
  · have hpointer : ¬(col = r.x + k % r.w ∧ row = r.y + k / r.w) := by
      rintro ⟨rfl, rfl⟩
      exact hin ⟨Nat.le_add_right _ _, Nat.add_lt_add_left hpc _, Nat.le_add_right _ _⟩
    rw [if_neg hpointer, if_neg (by tauto), if_neg (by tauto)]

/-- One sample of a fill: it goes to the pointer's pixel, and the pointer moves on in reading order. -/
theorem Panel.Filling.next {t : PanelCodes} {p q : Panel} {r : Rect} {c : Sample} {k : Nat} (hr : r.onPanel)
    (hk : k < r.w * r.h) (h : Panel.Filling t p r c k q) :
    Panel.Filling t p r c (k + 1) ([sampleHigh c, sampleLow c].foldl (Panel.dataByte t) q) := by
  have hsamples := fun col row hcol hrow => h.samples_next hr (col := col) (row := row) hcol hrow
  obtain ⟨hw, hh, hx, hy⟩ := hr
  simp only [Config.panelW, Config.panelH] at hx hy
  have hcol : k % r.w < r.w := Nat.mod_lt k hw
  have hrow : k / r.w < r.h := Nat.div_lt_of_lt_mul hk
  have hinside : q.pointerInside = true := by
    simp only [Panel.pointerInside, h.pc, h.pr, h.xe, h.ye, Config.panelW, Config.panelH, Bool.and_eq_true, decide_eq_true_eq]
    omega
  rw [Panel.dataByte_sample h.current h.latch, Panel.writeSample, if_pos hinside, Panel.advance]
  rcases next_in_rows hw k with ⟨hlast, hmod, hdiv⟩ | ⟨hmore, hmod, hdiv⟩
  · rw [if_pos (by simp only [h.pc, h.xe]; omega)]
    exact { h with
      pc := by simp only [h.xs, hmod, Nat.add_zero]
      pr := by simp only [h.pr, hdiv, Nat.add_assoc]
      keys := keysRise_storeKey _ _ h.keys
      samples := hsamples }
  · rw [if_neg (by simp only [h.pc, h.xe]; omega)]
    exact { h with
      pc := by simp only [h.pc, hmod, Nat.add_assoc]
      pr := by simp only [h.pr, hdiv]
      keys := keysRise_storeKey _ _ h.keys
      samples := hsamples }

/-- A run of the color, up to the window's last pixel. -/
theorem Panel.Filling.samplePairs {t : PanelCodes} {p q : Panel} {r : Rect} {c : Sample} (hr : r.onPanel)
    (h : Panel.Filling t p r c 0 q) : ∀ n : Nat, n ≤ r.w * r.h →
    Panel.Filling t p r c n ((samplePairs c n).foldl (Panel.dataByte t) q)
  | 0, _ => h
  | n + 1, hn => by
    have hnext := (Filling.samplePairs hr h n (by omega)).next hr (by omega)
    rwa [← List.foldl_append, Machine.samplePairs, ← List.flatten_concat, ← List.replicate_succ'] at hnext

/-- A pixel has an index below the window's pixel count exactly if it lies in the window. -/
theorem index_lt_iff {r : Rect} (hr : r.onPanel) (col row : Nat) :
    (r.x ≤ col ∧ col < r.x + r.w ∧ r.y ≤ row ∧ (row - r.y) * r.w + (col - r.x) < r.w * r.h) ↔
      r.x ≤ col ∧ col ≤ r.x + r.w - 1 ∧ r.y ≤ row ∧ row ≤ r.y + r.h - 1 := by
  obtain ⟨hw, hh, _⟩ := hr
  have hrow (hc : col - r.x < r.w) : (row - r.y) * r.w + (col - r.x) < r.w * r.h ↔ row - r.y < r.h := by
    rw [Nat.mul_comm r.w r.h]
    constructor
    · intro hlt
      by_contra hge
      have := Nat.mul_le_mul_right r.w (Nat.not_lt.mp hge)
      omega
    · intro hlt
      have := Nat.mul_le_mul_right r.w (Nat.succ_le_of_lt hlt)
      rw [Nat.succ_mul] at this
      omega
  constructor
  · rintro ⟨h1, h2, h3, h4⟩
    have := (hrow (by omega)).mp h4
    omega
  · rintro ⟨h1, h2, h3, h4⟩
    exact ⟨h1, by omega, h3, (hrow (by omega)).mpr (by omega)⟩

/-- Settles O54: the window and RAMWR set the observer up for the fill, whose samples color the window in reading order. -/
theorem windowAndFillColorExactlyTheRectangle : Obligations.WindowAndFillColorExactlyTheRectangle := by
  intro r c s t p hr hc hk h1 h2 h3 ht
  obtain ⟨_, rfl⟩ := fillBody_eq_next.mp ht
  obtain ⟨parts, hfill, hbytes⟩ := fillEvents_windowBody hr hc c
  refine ⟨windowEvents s.cfg r ++ fillEvents c (windowBody r s), by simp, fun col row hcol hrow => ?_⟩
  have hdone := (Panel.filling_start p hr c hk h1 h2 h3).samplePairs hr (r.w * r.h) (Nat.le_refl _)
  rw [hfill, Panel.observeAll_append, Panel.observeAll_cons, Panel.observeAll_data, hbytes, Panel.sample,
    hdone.samples col row hcol hrow, hdone.epoch, Panel.sample]
  simp only [index_lt_iff hr]
  split <;> rfl

end Sys2Proof.Machine
end
